-- ==== Sys2Proof/Word.lean ====
section
/-! DEFINITION. The word types of the machine and the sample of a frame.
Spec: 00_scope.md rules R16, R18, R20. -/

namespace Sys2Proof

/-- One unsigned byte: a buffer cell, a palette index, an opcode, an operand (R16). -/
abbrev Byte := BitVec 8

/-- One unsigned 16-bit field: index and header fields, `back` (R16). -/
abbrev Half := BitVec 16

/-- A sample is the transparent sentinel `T` or a palette index `Px v`; `Px 0` is a colour and is
not `T` (R20, R161). -/
inductive Sample where
  | T
  | Px (v : Byte)
  deriving DecidableEq, Repr, Inhabited

end Sys2Proof
end

