-- ==== Sys2Proof/Syntax.lean ====
section
/-! DEFINITION. The instructions: one constructor for each row of spec/opcode_table.json, its fields
the fields of the row's fixed layout, operand bytes included.
Spec: 30_encoding.md rules R70 to R76, R81. What the table writes in angle brackets (the literal
bytes of LIT0, LIT1 and RLE.LIT, the operations of LINE) is stream data: its length depends on the
cursor, so the meaning reads it (log 10). -/

namespace Sys2Proof

/-- The three byte-coded spaces of the table: operations inside a line record, records of a
scanline stream, records of an output RLE stream. A byte has a meaning in each of them. -/
inductive Space where
  | operation
  | record
  | rle
  deriving DecidableEq, Repr

/-- One constructor per row of spec/opcode_table.json. -/
inductive Instr where
  /-- `LIT0` `000nnnnn` (R106). -/
  | lit0 (n : BitVec 5)
  /-- `LIT1` `001nnnnn` (R107). -/
  | lit1 (n : BitVec 5)
  /-- `REP` `010lllll v` (R108). -/
  | rep (len5 : BitVec 5) (v : Byte)
  /-- `COPY` `011lllll back.lo back.hi` (R109, R74). -/
  | copy (len5 : BitVec 5) (back : Half)
  /-- `PAIR` `100lllll a b` (R110). -/
  | pair (len5 : BitVec 5) (a b : Byte)
  /-- `GAP` `101lllll` (R111). -/
  | gap (len5 : BitVec 5)
  /-- `PATU` `110ssppp seed`, `sel = 0ss` (R112). -/
  | patu (ss : BitVec 2) (pattLen : BitVec 3) (seed : Byte)
  /-- `PATD` `111ssppp seed`, `sel = 1ss` (R113). -/
  | patd (ss : BitVec 2) (pattLen : BitVec 3) (seed : Byte)
  /-- `VGAP` `00000000 skip_count` (R95). -/
  | vgap (skipCount : Byte)
  /-- `LINE` `LLLLLLLL x_start` with `LLLLLLLL` not zero (R96). -/
  | line (lineLength xStart : Byte)
  /-- `RLE.RUN` `1rrrrrrr value` (R127). -/
  | rleRun (r : BitVec 7) (value : Byte)
  /-- `RLE.LIT` `0mmmmmmm` (R128). -/
  | rleLit (m : BitVec 7)
  deriving DecidableEq, Repr

/-- The space an instruction belongs to (the table's "space"). -/
def Instr.space : Instr → Space
  | .lit0 _ => .operation
  | .lit1 _ => .operation
  | .rep _ _ => .operation
  | .copy _ _ => .operation
  | .pair _ _ _ => .operation
  | .gap _ => .operation
  | .patu _ _ _ => .operation
  | .patd _ _ _ => .operation
  | .vgap _ => .record
  | .line _ _ => .record
  | .rleRun _ _ => .rle
  | .rleLit _ => .rle

/-- Bytes of the instruction's fixed layout (R72; stream data not counted). -/
def Instr.size : Instr → Nat
  | .lit0 _ => 1
  | .lit1 _ => 1
  | .rep _ _ => 2
  | .copy _ _ => 3
  | .pair _ _ _ => 3
  | .gap _ => 1
  | .patu _ _ _ => 2
  | .patd _ _ _ => 2
  | .vgap _ => 2
  | .line _ _ => 2
  | .rleRun _ _ => 2
  | .rleLit _ => 1

end Sys2Proof
end

