-- ==== Sys2Proof/WellFormed.lean ====
section
/-! DEFINITION. Which instructions have an encoding. The field widths of the constructors leave one
check: a line record's first byte is not zero, since zero marks a gap record.
Spec: 30_encoding.md rules R70, R79 (no reserved encodings). -/

namespace Sys2Proof

/-- The instruction has an encoding (R70: `line_length` is 1 to 255 in a line record). -/
def Instr.wellFormed : Instr → Bool
  | .line lineLength _ => lineLength != 0
  | .lit0 _ => true
  | .lit1 _ => true
  | .rep _ _ => true
  | .copy _ _ => true
  | .pair _ _ _ => true
  | .gap _ => true
  | .patu _ _ _ => true
  | .patd _ _ _ => true
  | .vgap _ => true
  | .rleRun _ _ => true
  | .rleLit _ => true

/-- The canonical encoder of R129 may emit the record: runs of 3 to 127, literal blocks of 1 to 127
(R81, R82). Instructions of the other spaces are emitted by nothing (R6). -/
def Instr.emitted : Instr → Bool
  | .rleRun r _ => decide (3 ≤ r.toNat)
  | .rleLit m => decide (1 ≤ m.toNat)
  | .lit0 _ => false
  | .lit1 _ => false
  | .rep _ _ => false
  | .copy _ _ => false
  | .pair _ _ _ => false
  | .gap _ => false
  | .patu _ _ _ => false
  | .patd _ _ _ => false
  | .vgap _ => false
  | .line _ _ => false

end Sys2Proof
end

