-- ==== Sys2Proof/Decode.lean ====
section
/-! DEFINITION. The decoder, total on every byte sequence, and the encoder.
Spec: 30_encoding.md rules R70 to R77 (records and operations), R81 (RLE tags), R54 (byte order).
The only rejection is a sequence that ends before the fixed layout does: no byte value is illegal
(R79). -/

namespace Sys2Proof

/-- Why the decoder rejects a sequence. -/
inductive Reject where
  /-- there is no first byte. -/
  | noFirstByte
  /-- the sequence ends inside the operand bytes of the named row. -/
  | operandMissing (mnemonic : String)
  deriving DecidableEq, Repr

/-- Bits `lo+width-1 : lo` of a byte (R18). -/
abbrev field (lo width : Nat) (b : Byte) : BitVec width := b.extractLsb' lo width

/-- `u16le(b0, b1) = b0 + 256*b1` (R19, R54): the byte at the lower address is the less significant
one. -/
def u16le (b0 b1 : Byte) : Half := BitVec.ofNat 16 (b0.toNat + 256 * b1.toNat)

/-- `le16(v)` (R19). -/
def le16 (v : Half) : List Byte := [BitVec.ofNat 8 v.toNat, BitVec.ofNat 8 (v.toNat / 256)]

/-- One operation of a line record: dispatch on bits 7, 6, 5 of the opcode byte alone (R71, R72,
R97). -/
def decodeOperation : List Byte → Except Reject (Instr × List Byte)
  | [] => .error .noFirstByte
  | op :: rest =>
    match op.getLsbD 7, op.getLsbD 6, op.getLsbD 5 with
    | false, false, false => .ok (.lit0 (field 0 5 op), rest)
    | false, false, true => .ok (.lit1 (field 0 5 op), rest)
    | false, true, false =>
      match rest with
      | v :: rest => .ok (.rep (field 0 5 op) v, rest)
      | [] => .error (.operandMissing "REP")
    | false, true, true =>
      match rest with
      | b0 :: b1 :: rest => .ok (.copy (field 0 5 op) (u16le b0 b1), rest)
      | _ => .error (.operandMissing "COPY")
    | true, false, false =>
      match rest with
      | a :: b :: rest => .ok (.pair (field 0 5 op) a b, rest)
      | _ => .error (.operandMissing "PAIR")
    | true, false, true => .ok (.gap (field 0 5 op), rest)
    | true, true, false =>
      match rest with
      | seed :: rest => .ok (.patu (field 3 2 op) (field 0 3 op) seed, rest)
      | [] => .error (.operandMissing "PATU")
    | true, true, true =>
      match rest with
      | seed :: rest => .ok (.patd (field 3 2 op) (field 0 3 op) seed, rest)
      | [] => .error (.operandMissing "PATD")

/-- One record of a scanline stream: its kind from its first byte (R70). -/
def decodeRecord : List Byte → Except Reject (Instr × List Byte)
  | [] => .error .noFirstByte
  | lineLength :: rest =>
    if lineLength = 0 then
      match rest with
      | skipCount :: rest => .ok (.vgap skipCount, rest)
      | [] => .error (.operandMissing "VGAP")
    else
      match rest with
      | xStart :: rest => .ok (.line lineLength xStart, rest)
      | [] => .error (.operandMissing "LINE")

/-- One record of an output RLE stream: its form from bit 7 of the tag (R81, R130). -/
def decodeRle : List Byte → Except Reject (Instr × List Byte)
  | [] => .error .noFirstByte
  | tag :: rest =>
    match tag.getLsbD 7 with
    | true =>
      match rest with
      | value :: rest => .ok (.rleRun (field 0 7 tag) value, rest)
      | [] => .error (.operandMissing "RLE.RUN")
    | false => .ok (.rleLit (field 0 7 tag), rest)

/-- The instruction at the head of a byte sequence and the bytes after its fixed layout. -/
def decode : Space → List Byte → Except Reject (Instr × List Byte)
  | .operation, bs => decodeOperation bs
  | .record, bs => decodeRecord bs
  | .rle, bs => decodeRle bs

/-- The bytes of an instruction's fixed layout, from the same tables (R70, R72, R74, R81). -/
def encode : Instr → List Byte
  | .lit0 n => [0b000#3 ++ n]
  | .lit1 n => [0b001#3 ++ n]
  | .rep len5 v => [0b010#3 ++ len5, v]
  | .copy len5 back => (0b011#3 ++ len5) :: le16 back
  | .pair len5 a b => [0b100#3 ++ len5, a, b]
  | .gap len5 => [0b101#3 ++ len5]
  | .patu ss pattLen seed => [0b110#3 ++ ss ++ pattLen, seed]
  | .patd ss pattLen seed => [0b111#3 ++ ss ++ pattLen, seed]
  | .vgap skipCount => [0#8, skipCount]
  | .line lineLength xStart => [lineLength, xStart]
  | .rleRun r value => [0b1#1 ++ r, value]
  | .rleLit m => [0b0#1 ++ m]

/-- The first `count` bytes of a table word, first byte in bits 7..0, bits at and above `nbits`
zero. -/
def tableBytes (nbits w : Nat) : Nat → Nat → List Byte
  | _, 0 => []
  | k, count + 1 =>
    BitVec.ofNat 8 ((w % 2 ^ nbits) >>> (8 * k)) :: tableBytes nbits w (k + 1) count

/-- The space a table word is read in (log 8). The table numbers three spaces, so one word can
belong to several rows; it is read as the row with the most fixed bits among those whose layout is
as long as the word, and a word of one byte in the operation space but for `0x00`, the one word all
of whose bits are fixed by its row (VGAP). -/
def tableSpace (nbits : Nat) (first : Byte) : Space :=
  if first = 0 then .record
  else if nbits ≤ 8 ∨ 16 < nbits then .operation
  else
    match first.getLsbD 7, first.getLsbD 6, first.getLsbD 5 with
    | false, true, false => .operation
    | true, true, _ => .operation
    | true, false, _ => .rle
    | false, _, _ => .record

/-- The instruction the decoder reads from a word numbered as spec/opcode_table.json numbers it. -/
def decodeTableWord (nbits w : Nat) : Option Instr :=
  let bytes := tableBytes nbits w 0 3
  match decode (tableSpace nbits (bytes.headD 0)) bytes with
  | .ok (i, _) => some i
  | .error _ => none

end Sys2Proof
end

