-- ==== Sys2Proof/Config.lean ====
section
/-! DEFINITION. The open parameters of the hardware (the model carries them, a claim holds for every
value of them) and the free values.
Spec: 00_scope.md rules R10, R12; 43_frame_compositor.md rule R121; 92_eei_decisions.md D2, D4, D10,
D23. The defaults stand in Machine/Params.lean. -/

namespace Sys2Proof

/-- How many scanlines a gap record counts toward `height` (92_eei_decisions.md D10). -/
inductive GapLines where
  /-- `skip_count + 1` lines: the spec's choice (R95). -/
  | rows
  /-- one line a record. -/
  | one
  /-- no line. -/
  | none
  deriving DecidableEq, Repr

/-- The parameters an implementation fixes. They are plain data, held in State and changed by no
step (log 3). -/
structure Config where
  /-- `PATTERN_STEPS : Fin 16 -> Int` (R10). -/
  patternSteps : Vector Int 16
  /-- `PLANE_BIT_MSB_FIRST` (R12). -/
  planeBitMsbFirst : Bool
  /-- `GAP_LINES` (D10). -/
  gapLines : GapLines
  /-- `FRAME_MAX_W`, `none` for no limit (R121). -/
  frameMaxW : Option Nat
  /-- `FRAME_MAX_H`, `none` for no limit (R121). -/
  frameMaxH : Option Nat
  deriving DecidableEq, Repr

/-- FREE VALUE (log 12): the sample that stands at address `addr` of the caller's frame after a bare
`decode_cell` has failed (R104, U5: any value). `draw` is the draw counter of State. -/
opaque Config.freeSample (draw addr : Nat) : Sample

/-- FREE VALUE (log 13): `low_confidence` after a failed `parse` (R145: not meaningful). -/
opaque Config.freeFlag (draw : Nat) : Bool

end Sys2Proof
end

