-- ==== Sys2Proof/Machine/Params.lean ====
section
/-! DEFINITION. The constants the spec fixes and the defaults of the open parameters.
Spec: 00_scope.md rules R8 to R13. -/

namespace Sys2Proof.Machine

/-- `XOR_KEY = 0x35` (R8). -/
abbrev xorKey : Byte := 0x35#8

/-- `COUNT_LIMIT = 0x0800` (R9). -/
abbrev countLimit : Nat := 0x0800

/-- `RLE_MIN_RUN = 3` (R11). -/
abbrev rleMinRun : Nat := 3

/-- `RLE_MAX_RUN = 127` (R11; 90_conflicts.md C2). -/
abbrev rleMaxRun : Nat := 127

/-- `RLE_MAX_LIT = 127` (R11). -/
abbrev rleMaxLit : Nat := 127

/-- `FILL = 0` (R13). -/
abbrev fillByte : Byte := 0#8

/-- The spec's default for `PATTERN_STEPS` (R10, general knowledge by the spec's own word: PRESUMED,
log 3). -/
def defaultPatternSteps : Vector Int 16 :=
  #v[0, 1, 1, 1, 2, 2, 3, 3, 0, -1, -1, -1, -2, -2, -3, -3]

/-- The defaults of the open parameters (R10, R12, R121, D10; log 3). -/
def defaultConfig : Config where
  patternSteps := defaultPatternSteps
  planeBitMsbFirst := false
  gapLines := .rows
  frameMaxW := none
  frameMaxH := none

end Sys2Proof.Machine
end

