-- ==== Sys2Proof/Machine/State.lean ====
section
/-! DEFINITION. The state of the machine, the reasons a step can stop, and the state after reset.
Spec: 10_state.md (every rule), 20_memory.md rule R46 (the six address spaces), 60_exceptions.md
rule R135 (the typed errors), 70_reset_and_hazards.md rules R153, R156. -/

namespace Sys2Proof.Machine

/-- A byte buffer of `len` bytes at addresses `0 .. len-1` (R27, R39, R40). `cells` lists the bytes
that are not 0, addresses strictly rising (log 2). -/
structure Memory where
  len : Nat
  cells : List Host.Cell
  deriving DecidableEq, Repr

/-- The Byte Cursor: a borrowed read-only buffer and a position (R28, R29). -/
structure Cursor where
  buf : Memory
  pos : Nat
  deriving DecidableEq, Repr

/-- `hdr` (R32, R69). -/
structure CellHeader where
  xOffset : Half
  width : Half
  yOffset : Half
  height : Half
  deriving DecidableEq, Repr

/-- One index entry; an offset of 0 means the cell is absent (R30, R91). -/
structure Entry where
  offset1 : Half
  offset2 : Half
  deriving DecidableEq, Repr

/-- What the Sprite Index holds after a completed `parse`, `low_confidence` apart (R30). -/
structure SpriteIndex where
  wbuf : Memory
  count : Half
  entries : List Entry
  deriving DecidableEq, Repr

/-- `FRAME`: `FW = w`, `FH = h`, the sample of row `y`, column `x` at address `y*w + x` (R38).
`cells` lists the samples that are not `T`, addresses strictly rising (log 2). -/
structure Frame where
  w : Nat
  h : Nat
  cells : List Host.Cell
  deriving DecidableEq, Repr

/-- `CHUNKY` with its `W` and `H` (R39). -/
structure Chunky where
  w : Nat
  h : Nat
  px : Memory
  deriving DecidableEq, Repr

/-- `PLANE[0 .. plane_count-1]` with the dimensions of the frame (R40). -/
structure Planes where
  w : Nat
  h : Nat
  planes : List Memory
  deriving DecidableEq, Repr

/-- The operation latches (R37). `cmd` and `len5` are slices of `op`. -/
structure Latches where
  op : Byte
  v : Byte
  a : Byte
  b : Byte
  back : Half
  retPos : Nat
  val : Byte
  i : Nat
  deriving DecidableEq, Repr

/-- The RLE working registers of one `rle_compress` call (R41). -/
structure RleRegs where
  i : Nat
  r : Nat
  s : Nat
  deriving DecidableEq, Repr

/-- The information a BoundsError records: the target position, or `(pos, n)` (R48, R50, R135). -/
inductive BoundsInfo where
  | seek (target : Int)
  | read (pos n : Nat)
  deriving DecidableEq, Repr

/-- `outcome`: OK or one typed error with its recorded information (R42, R135). -/
inductive Status where
  | ok
  | boundsError (info : BoundsInfo)
  | truncatedIndex
  | malformedCell (cellOffset : Nat)
  | unsupportedFrame (i : Int)
  | indexRejected
  deriving DecidableEq, Repr

/-- The three origins of `CurSeek` (R48). -/
inductive Origin where
  | start
  | current
  | fromEnd
  deriving DecidableEq, Repr

/-- The payload mode of a bitplane file (R83, R133). -/
inductive FileMode where
  | raw
  | interleaved
  | rle
  deriving DecidableEq, Repr

/-- A working buffer argument: the one the index holds, or the host's own (log 14). -/
inductive BufferArg where
  | held
  | given (bytes : List Byte)
  deriving DecidableEq, Repr

/-- A frame argument: the one the hardware holds for the operation (for `to_chunky` the frame returned
last, for a bare `decode_cell` the caller's frame), or one handed in as its `w*h` samples in row-major
order (for `to_chunky` any frame a `decode_frame` returned, for a bare `decode_cell` the host's own;
log 14). -/
inductive FrameArg where
  | held
  | given (w h : Nat) (samples : List Sample)
  deriving DecidableEq, Repr

/-- A pixel argument of `to_planes`: a chunky buffer, or samples that were not resolved (R123, R163;
logs 14 and 23). -/
inductive PixelArg where
  | held
  | given (w h : Nat) (pixels : List Byte)
  | unresolved (w h : Nat) (samples : List Sample)
  deriving DecidableEq, Repr

/-- A plane argument: the list made last with its dimensions, or planes that a `to_planes` made, handed
in as their bytes in any choice and order, with any `W` and `H` of their size (R124, R133; log 14). -/
inductive PlanesArg where
  | held
  | given (w h : Nat) (planes : List (List Byte))
  deriving DecidableEq, Repr

/-- A byte sequence argument of the RLE operations: any sequence, one held plane, or `OUT` (R156). -/
inductive ByteArg where
  | bytes (x : List Byte)
  | plane (p : Nat)
  | out
  deriving DecidableEq, Repr

/-- The ten operations a host can start, with their arguments (R43). -/
inductive HostOp where
  | parse (bytes : List Byte)
  | getFrameBounds (entry : Entry)
  | decodeFrame (i : Int)
  | decodeCell (buffer : BufferArg) (cellOffset : Nat) (frame : FrameArg)
  | toChunky (frame : FrameArg)
  | toPlanes (pixels : PixelArg) (planeCount : Nat)
  | interleave (planes : PlanesArg)
  | rleCompress (x : ByteArg)
  | rleDecode (z : ByteArg)
  | writeBitplaneFile (planes : PlanesArg) (mode : FileMode)
  deriving DecidableEq, Repr

/-- Which loop of which operation is running (the control position of R92, R96, R118, R129,
R130). -/
inductive Phase where
  /-- no operation runs; the host may act (R24). -/
  | idle
  /-- between the cells of an operation: the next pending cell starts here (R93, R118). -/
  | cellStart
  /-- at the test of the scanline loop (R94). -/
  | record
  /-- at the test of the operation loop of a line record (R97). -/
  | ops
  /-- at the loop test of `rle_decode` (R130). -/
  | rleDecode
  /-- at the outer loop test of `rle_compress` (R129). -/
  | rleCompress
  deriving DecidableEq, Repr

/-- The machine's state. INVENTORY.md lists every field with the rule that names it. -/
structure State where
  /-- the open parameters; no step changes them (log 3). -/
  cfg : Config
  /-- host operations asked for and not yet started (log 5). -/
  requests : List HostOp
  phase : Phase
  /-- the running cell decode is a bare `decode_cell` (R104) and not part of `decode_frame`. -/
  bare : Bool
  /-- addresses of the cells still to decode in the running operation (R118). -/
  pending : List Nat
  /-- the argument `cell_offset` of the running cell decode (R92). -/
  cellOffset : Nat
  /-- `BUF`, `LEN` (R27). -/
  buf : Memory
  /-- the cursor of the running operation: `pos` is the program counter (R28). -/
  cur : Cursor
  /-- `WBUF`, `count`, `entry[]` (R30). -/
  index : Option SpriteIndex
  /-- `low_confidence` (R31). -/
  lowConfidence : Bool
  /-- `hdr` (R32). -/
  hdr : CellHeader
  /-- `dest_y` (R33). -/
  destY : Nat
  /-- `lines_done` (R34). -/
  linesDone : Nat
  /-- `line_length` (R35). -/
  lineLength : Byte
  /-- `line_start` (R35). -/
  lineStart : Nat
  /-- `line_end` (R35). -/
  lineEnd : Nat
  /-- `draw_x` (R35). -/
  drawX : Nat
  /-- `ROW`: the samples that are not `T`, columns strictly rising (R36; log 2). -/
  row : List Host.Cell
  /-- the operation latches (R37). -/
  lat : Latches
  /-- `FRAME` under construction, the one the running cell decode draws into (R38, R92, R118). -/
  canvas : Option Frame
  /-- the frame the last `decode_frame` returned, which nothing draws into (R38, R119; log 19). -/
  frame : Option Frame
  /-- the caller's frame as the last bare `decode_cell` left it (R43, R92, R104; log 19). -/
  callerFrame : Option Frame
  /-- `(W, H)`, the result of `get_frame_bounds` (R43, R117). -/
  bounds : Option (Nat × Nat)
  /-- `CHUNKY` (R39). -/
  chunky : Option Chunky
  /-- `PLANE[]` (R40). -/
  planes : Option Planes
  /-- every frame a completed `decode_frame` has returned to the host, the last one first: what R156
  asks of the operand of `to_chunky` (log 14). -/
  returnedFrames : List Frame
  /-- every plane list a completed `to_planes` has returned, the last one first: R156 and R164 ask for
  them of the planes `interleave` and `write_bitplane_file` read (log 14). -/
  returnedPlanes : List Planes
  /-- `OUT` (R41). -/
  out : List Byte
  /-- `i`, `r`, `s` of `rle_compress` (R41). -/
  rle : RleRegs
  /-- `outcome` (R42). -/
  status : Status
  /-- how many free values have been drawn (logs 12 and 13). -/
  freeCount : Nat
  deriving DecidableEq, Repr

/-- Why the machine stops with a fault. -/
inductive Fault where
  /-- A line record ends, or a cell starts, and there is no frame under construction. Raised by the
  sequencer (`endLine`, `startCell`). Safe: no run reaches it (Safety.lean, `Inv`); it is the "model
  bug, fault" of U6 for a store that does not exist (R153; log 21). -/
  | frameMissing
  deriving DecidableEq, Repr

/-- Why the machine gives a step no meaning. Every refusal but the first is one the spec names, of a
host operation and never of an instruction (log 15); all are safe. -/
inductive Refusal where
  /-- an instruction without a meaning yet; raised by exec's arms only. -/
  | notModelled (mnemonic : String)
  /-- `get_frame_bounds` or `decode_frame` without a completed `parse` (R156). -/
  | noIndex
  /-- bare `decode_cell` without a working buffer (R156). -/
  | noWorkingBuffer
  /-- bare `decode_cell` without an allocated frame, or `to_chunky` of anything but a frame a completed
  `decode_frame` returned (R156). -/
  | noFrame
  /-- `to_planes` without a chunky buffer (R156). -/
  | noChunky
  /-- `interleave`, `rle_compress` of a plane or `write_bitplane_file` without a completed `to_planes`
  (R156), or of a plane that none has made (R164). -/
  | noPlanes
  /-- a sample `T` handed to `to_planes` (R123, R163). -/
  | unresolvedTransparency
  /-- a frame beyond `FRAME_MAX_W` or `FRAME_MAX_H` (R121). -/
  | frameTooLarge
  /-- a field of the bitplane file of 2^32 or more (R133). -/
  | fieldOver32Bits
  /-- a host argument that is not a frame, chunky buffer or plane list of the size it names
  (log 16). -/
  | argumentShape
  deriving DecidableEq, Repr

/-- The state right after reset (R45, R153). What R45 leaves unspecified or does not list is 0, false,
empty or none, `bounds` among it (log 1); the parameters have the spec's defaults (log 3). -/
def State.reset : State where
  cfg := defaultConfig
  requests := []
  phase := .idle
  bare := false
  pending := []
  cellOffset := 0
  buf := { len := 0, cells := [] }
  cur := { buf := { len := 0, cells := [] }, pos := 0 }
  index := none
  lowConfidence := false
  hdr := { xOffset := 0, width := 0, yOffset := 0, height := 0 }
  destY := 0
  linesDone := 0
  lineLength := 0
  lineStart := 0
  lineEnd := 0
  drawX := 0
  row := []
  lat := { op := 0, v := 0, a := 0, b := 0, back := 0, retPos := 0, val := 0, i := 0 }
  canvas := none
  frame := none
  callerFrame := none
  bounds := none
  chunky := none
  planes := none
  returnedFrames := []
  returnedPlanes := []
  out := []
  rle := { i := 0, r := 0, s := 0 }
  status := .ok
  freeCount := 0

end Sys2Proof.Machine
end

