-- ==== Sys2Proof/Machine/Ops.lean ====
section
/-! DEFINITION. The shared operations over stores and registers, and the taking of an error.
Spec: 20_memory.md rules R46, R59; 41_cell_decoder.md rules R98, R101; 60_exceptions.md rules R136 to
R147. -/

namespace Sys2Proof.Machine

/-! ### Sparse stores: lists of (address, byte), addresses strictly rising -/

/-- The byte listed at an address. -/
def cellsFind : List Host.Cell → Nat → Option Byte
  | [], _ => none
  | (k, v) :: cs, a => if a = k then some v else cellsFind cs a

/-- The cells with `v` at address `a`. -/
def cellsPut : List Host.Cell → Nat → Byte → List Host.Cell
  | [], a, v => [(a, v)]
  | (k, w) :: cs, a, v =>
    if a < k then (a, v) :: (k, w) :: cs
    else if a = k then (a, v) :: cs
    else (k, w) :: cellsPut cs a v

/-- The cells with nothing at address `a`. -/
def cellsErase : List Host.Cell → Nat → List Host.Cell
  | [], _ => []
  | (k, w) :: cs, a => if a = k then cellsErase cs a else (k, w) :: cellsErase cs a

/-- Every address is at least `lo` and below `hi`, and addresses strictly rise. -/
def cellsRise (hi : Nat) : Nat → List Host.Cell → Bool
  | _, [] => true
  | lo, (k, _) :: cs => decide (lo ≤ k) && decide (k < hi) && cellsRise hi (k + 1) cs

/-- No listed byte is 0. -/
def cellsNonzero : List Host.Cell → Bool
  | [] => true
  | (_, v) :: cs => v != 0 && cellsNonzero cs

/-! ### Byte buffers -/

/-- What an address of a byte buffer reads as when no cell lists it (log 2). -/
abbrev unlistedByte : Byte := 0#8

/-- The byte at address `a`. -/
def Memory.read (m : Memory) (a : Nat) : Byte := (cellsFind m.cells a).getD unlistedByte

/-- The buffer with `v` at address `a`; an address that does not exist changes nothing. -/
def Memory.write (m : Memory) (a : Nat) (v : Byte) : Memory :=
  if a < m.len then
    { m with cells := if v = unlistedByte then cellsErase m.cells a else cellsPut m.cells a v }
  else m

/-- `n` bytes from address `a` (`MemRead`, R22). -/
def Memory.readList (m : Memory) : Nat → Nat → List Byte
  | _, 0 => []
  | a, n + 1 => m.read a :: m.readList (a + 1) n

/-- The whole buffer in address order. -/
def Memory.toBytes (m : Memory) : List Byte := m.readList 0 m.len

/-- The cells of a byte sequence that starts at address `a`. -/
def cellsOfBytes : Nat → List Byte → List Host.Cell
  | _, [] => []
  | a, b :: bs => if b = unlistedByte then cellsOfBytes (a + 1) bs else (a, b) :: cellsOfBytes (a + 1) bs

/-- The buffer that holds a byte sequence (R27: as supplied by the host). -/
def Memory.ofBytes (bs : List Byte) : Memory := { len := bs.length, cells := cellsOfBytes 0 bs }

/-- `n` bytes of 0 (`rep(0x00, n)`, R40). -/
def Memory.zeros (n : Nat) : Memory := { len := n, cells := [] }

/-- The canonical form: addresses strictly rising and inside the buffer, no listed 0. -/
def Memory.wf (m : Memory) : Bool := cellsRise m.len 0 m.cells && cellsNonzero m.cells

/-! ### Sample stores -/

/-- The sample at an address of the scratch row or a frame; unlisted is `T` (R36, R38; log 2). -/
def sampleAt (cs : List Host.Cell) (a : Nat) : Sample :=
  match cellsFind cs a with
  | some v => .Px v
  | none => .T

/-- The cells of a sample sequence that starts at address `a`. -/
def cellsOfSamples : Nat → List Sample → List Host.Cell
  | _, [] => []
  | a, .T :: xs => cellsOfSamples (a + 1) xs
  | a, .Px v :: xs => (a, v) :: cellsOfSamples (a + 1) xs

/-- `FRAME[y][x]` (R38). -/
def Frame.sample (f : Frame) (x y : Nat) : Sample := sampleAt f.cells (y * f.w + x)

/-- The samples of a frame in row-major order, as the host hands them over. -/
def Frame.samples (f : Frame) : List Sample := (List.range (f.w * f.h)).map (sampleAt f.cells)

/-- `FRAME[y][x] <- Px(v)` (R59: one sample, the later write wins). -/
def Frame.draw (f : Frame) (x y : Nat) (v : Byte) : Frame :=
  { f with cells := cellsPut f.cells (y * f.w + x) v }

/-- A new frame, every sample `T` (R38, R118). -/
def Frame.fresh (w h : Nat) : Frame := { w := w, h := h, cells := [] }

/-- The canonical form of a frame. -/
def Frame.wf (f : Frame) : Bool := cellsRise (f.w * f.h) 0 f.cells

/-- The caller's frame after a failed bare `decode_cell`: the same size, every sample a free value
(R104, U5; log 12). -/
def Frame.freed (draw : Nat) (f : Frame) : Frame :=
  { f with cells := cellsOfSamples 0 ((List.range (f.w * f.h)).map (Config.freeSample draw)) }

/-! ### Emission and blit -/

/-- The row after a sequence of pixels was emitted in order, the first at column `x`: a pixel is kept
when its column lies in the row (R98). -/
def emitRow (width : Nat) : List Byte → Nat → List Host.Cell → List Host.Cell
  | [], _, row => row
  | v :: vs, x, row => emitRow width vs (x + 1) (if x < width then cellsPut row x v else row)

/-- `Emit` (R98) of a sequence of pixels, in order; `Emit(v)` is `emitAll [v]`. The draw position
advances by one a pixel, kept or not. -/
def emitAll (vs : List Byte) (s : State) : State :=
  { s with
    row := emitRow s.hdr.width.toNat vs s.drawX s.row
    drawX := s.drawX + vs.length }

/-- One column of the blit (R101). -/
def blitColumn (row : List Host.Cell) (hdr : CellHeader) (destY : Nat) (f : Frame) (c : Nat) :
    Frame :=
  match sampleAt row c with
  | .T => f
  | .Px v =>
    if hdr.xOffset.toNat + c < f.w ∧ destY < f.h then f.draw (hdr.xOffset.toNat + c) destY v else f

/-- The blit of the scratch row into the frame (R101), columns `0 .. width-1` in order. -/
def blit (row : List Host.Cell) (hdr : CellHeader) (destY : Nat) (f : Frame) : Frame :=
  (List.range hdr.width.toNat).foldl (blitColumn row hdr destY) f

/-! ### Ending an operation: completion, and the taking of an error -/

/-- An operation completes (R42, R167): `outcome` is OK and the hardware is ready. -/
def complete (s : State) : State := { s with status := .ok, phase := .idle }

/-- TAKING AN ERROR (R144): the operation stops at once and `outcome` takes the error; nothing is
saved, there is no handler, no vector and no mode. The working registers are dead and keep what they
held (log 11). There is no return from an error: the next request starts from here (R147). -/
def raise (e : Status) (s : State) : State :=
  { s with status := e, phase := .idle, pending := [] }

/-- The end of the cells of an operation (R92, R118): `decode_frame` returns the frame under
construction, a bare `decode_cell` has updated the caller's. -/
def deliverFrame (s : State) : State :=
  { s with
    canvas := none
    frame := if s.bare then s.frame else s.canvas
    callerFrame := if s.bare then s.canvas else s.callerFrame
    returnedFrames := if s.bare then s.returnedFrames else s.canvas.toList ++ s.returnedFrames }

/-- The frames after a cell decode that failed (R104, R145): the one under construction is gone,
`decode_frame` returns none, a bare `decode_cell` leaves the caller's with free contents (log 12). -/
def dropFrame (s : State) : State :=
  { s with
    canvas := none
    frame := if s.bare then s.frame else none
    callerFrame := if s.bare then s.canvas.map (Frame.freed s.freeCount) else s.callerFrame
    freeCount := if s.bare then s.freeCount + 1 else s.freeCount }

/-- A cursor failure inside `decode_cell` is MalformedCell (R92, R138). -/
def failCell (s : State) : State := raise (.malformedCell s.cellOffset) (dropFrame s)

/-- A cursor failure inside `rle_decode` is BoundsError and there is no result (R130, R144). -/
def failRle (info : BoundsInfo) (s : State) : State :=
  raise (.boundsError info) { s with out := [] }

/-- The end of an attempt to run cursor primitives inside `decode_cell`. -/
def orFailCell (s : State) : Except BoundsInfo State → Host.Outcome State Fault Refusal
  | .ok s' => .next s'
  | .error _ => .next (failCell s)

/-- The end of an attempt to run cursor primitives inside `rle_decode`. -/
def orFailRle (s : State) : Except BoundsInfo State → Host.Outcome State Fault Refusal
  | .ok s' => .next s'
  | .error info => .next (failRle info s)

end Sys2Proof.Machine
end

