-- ==== Sys2Proof/Machine/Cursor.lean ====
section
/-! DEFINITION. The cursor primitives.
Spec: 20_memory.md rules R48 to R53, R56. Each answers the new cursor or the BoundsError it raises;
on an error the cursor is the one before (D13). -/

namespace Sys2Proof.Machine

/-- The address an origin names (R48). -/
def Cursor.base (c : Cursor) : Origin → Nat
  | .start => 0
  | .current => c.pos
  | .fromEnd => c.buf.len

/-- `CurSeek(offset, origin)` (R48): integer arithmetic, no wrap; `LEN` is a legal target. -/
def Cursor.seek (c : Cursor) (origin : Origin) (offset : Int) : Except BoundsInfo Cursor :=
  let target : Int := (c.base origin : Int) + offset
  if target < 0 ∨ (c.buf.len : Int) < target then .error (.seek target)
  else .ok { c with pos := target.toNat }

/-- `CurTell()` (R49). -/
def Cursor.tell (c : Cursor) : Nat := c.pos

/-- `CurRead(n)` (R50): all `n` bytes or BoundsError. -/
def Cursor.read (c : Cursor) (n : Nat) : Except BoundsInfo (List Byte × Cursor) :=
  if c.pos + n ≤ c.buf.len then .ok (c.buf.readList c.pos n, { c with pos := c.pos + n })
  else .error (.read c.pos n)

/-- `CurU8()` (R51): the single byte of `CurRead(1)`. -/
def Cursor.u8 (c : Cursor) : Except BoundsInfo (Byte × Cursor) :=
  match c.read 1 with
  | .ok (bs, c) => .ok (bs.getD 0 0, c)
  | .error e => .error e

/-- `CurU16()` (R52): one read of two bytes, little-endian. -/
def Cursor.u16 (c : Cursor) : Except BoundsInfo (Half × Cursor) :=
  match c.read 2 with
  | .ok (bs, c) => .ok (u16le (bs.getD 0 0) (bs.getD 1 0), c)
  | .error e => .error e

/-- A new cursor over a buffer (R28: position 0). -/
def Cursor.over (m : Memory) : Cursor := { buf := m, pos := 0 }

/-- The bytes at the cursor, at most `n`: what the decoder is given. It moves nothing. -/
def Cursor.window (c : Cursor) (n : Nat) : List Byte :=
  c.buf.readList c.pos (min n (c.buf.len - c.pos))

/-- The cursor's invariant (R28, R53) and its buffer's canonical form. -/
def Cursor.wf (c : Cursor) : Bool := c.buf.wf && decide (c.pos ≤ c.buf.len)

/-- The reads of a cell header at `off` (R93, R117): an absolute seek, then four 16-bit fields. -/
def Cursor.header (c : Cursor) (off : Nat) : Except BoundsInfo (CellHeader × Cursor) := do
  let c ← c.seek .start off
  let (x, c) ← c.u16
  let (w, c) ← c.u16
  let (y, c) ← c.u16
  let (h, c) ← c.u16
  return ({ xOffset := x, width := w, yOffset := y, height := h }, c)

end Sys2Proof.Machine
end

