-- ==== Sys2Proof/Machine/Operands.lean ====
section
/-! DEFINITION. Opcode bytes, count fields and pattern steps of the cell operations.
Spec: 30_encoding.md rules R71, R73, R74, R75; 42_cell_opcodes.md rules R112, R114. -/

namespace Sys2Proof.Machine

/-- `cmd = op[7:5]` (R71). -/
def opCmd (op : Byte) : BitVec 3 := op.extractLsb' 5 3

/-- `len5 = op[4:0]` (R71). -/
def opLen5 (op : Byte) : BitVec 5 := op.extractLsb' 0 5

/-- `sel = op[5:3]` (R71). -/
def opSel (op : Byte) : BitVec 3 := op.extractLsb' 3 3

/-- `patt_len = op[2:0]` (R71). -/
def opPattLen (op : Byte) : BitVec 3 := op.extractLsb' 0 3

/-- The opcode byte of an instruction, the latch `op` (R37). -/
def opcodeByte (i : Instr) : Byte := (encode i).headD 0

/-- LIT0, LIT1: the whole opcode byte plus 1 (R73). -/
def litCount (op : Byte) : Nat := op.toNat + 1

/-- REP: `len5 + 3` (R73). -/
def repCount (len5 : BitVec 5) : Nat := len5.toNat + 3

/-- COPY: `len5 + 4` (R73). -/
def copyCount (len5 : BitVec 5) : Nat := len5.toNat + 4

/-- PAIR: `len5 + 2` pairs (R73). -/
def pairCount (len5 : BitVec 5) : Nat := len5.toNat + 2

/-- GAP: `len5 + 1` (R73). -/
def gapCount (len5 : BitVec 5) : Nat := len5.toNat + 1

/-- PATU, PATD: `patt_len + 3` (R73). -/
def pattCount (pattLen : BitVec 3) : Nat := pattLen.toNat + 3

/-- The pixels of a PAIR: `a, b` repeated (R110). -/
def pairPixels (a b : Byte) : Nat → List Byte
  | 0 => []
  | n + 1 => a :: b :: pairPixels a b n

/-- The step index of pixel `i`: `2*sel + (i mod 2)` (R75). -/
def stepIndex (sel : BitVec 3) (i : Nat) : Fin 16 :=
  ⟨2 * sel.toNat + i % 2, by have := sel.isLt; omega⟩

/-- `(val + step) mod 256`, the mathematical remainder (R112, R114 (f)). -/
def addStep (val : Byte) (step : Int) : Byte := BitVec.ofInt 8 ((val.toNat : Int) + step)

/-- The pixels of a pattern run from pixel `i` on, `count` of them: each is the accumulator before
its update (R112). -/
def patternPixels (steps : Vector Int 16) (sel : BitVec 3) : Nat → Nat → Byte → List Byte
  | 0, _, _ => []
  | count + 1, i, val =>
    val :: patternPixels steps sel count (i + 1) (addStep val (steps.get (stepIndex sel i)))

/-- The accumulator after `count` updates (R112). -/
def patternVal (steps : Vector Int 16) (sel : BitVec 3) : Nat → Nat → Byte → Byte
  | 0, _, val => val
  | count + 1, i, val =>
    patternVal steps sel count (i + 1) (addStep val (steps.get (stepIndex sel i)))

/-- The lines a gap record counts toward `height` (R95, D10; log 4). -/
def gapLinesOf (g : GapLines) (skipCount : Byte) : Nat :=
  match g with
  | .rows => skipCount.toNat + 1
  | .one => 1
  | .none => 0

end Sys2Proof.Machine
end

