-- ==== Sys2Proof/Machine/Copy.lean ====
section
/-! DEFINITION. COPY, the back-reference copy.
Spec: 42_cell_opcodes.md rule R109; 70_reset_and_hazards.md rules R158, R159; 90_conflicts.md C1. -/

namespace Sys2Proof.Machine

/-- `COPY` (R109): `len5 + 4` bytes of the input buffer at `P - back` become pixels, `P` the position
after the field; the cursor is back at `P` afterwards. -/
def execCopy (len5 : BitVec 5) (back : Half) (s : State) : Host.Outcome State Fault Refusal :=
  orFailCell s do
    let (_, c) ← s.cur.read 3
    let retPos := c.tell
    let c ← c.seek .current (-(back.toNat : Int))
    let (src, c) ← c.read (copyCount len5)
    let c ← c.seek .start retPos
    return emitAll src
      { s with
        cur := c
        lat := { s.lat with op := opcodeByte (.copy len5 back), back := back, retPos := retPos } }

end Sys2Proof.Machine
end

