-- ==== Sys2Proof/Machine/Literals.lean ====
section
/-! DEFINITION. LIT0 and LIT1.
Spec: 42_cell_opcodes.md rules R106, R107. -/

namespace Sys2Proof.Machine

/-- A literal run with opcode byte `op`: after the opcode byte, `min(op + 1, line_end - pos)` bytes
of the stream become pixels (R106). -/
def literalRun (op : Byte) (s : State) : Except BoundsInfo State := do
  let (_, c) ← s.cur.read 1
  let (bs, c) ← c.read (min (litCount op) (s.lineEnd - c.tell))
  return emitAll bs { s with cur := c, lat := { s.lat with op := op } }

/-- `LIT0` (R106). -/
def execLit0 (n : BitVec 5) (s : State) : Host.Outcome State Fault Refusal :=
  orFailCell s (literalRun (opcodeByte (.lit0 n)) s)

/-- `LIT1` (R107): the count uses the whole opcode byte, so bit 5 adds 32. -/
def execLit1 (n : BitVec 5) (s : State) : Host.Outcome State Fault Refusal :=
  orFailCell s (literalRun (opcodeByte (.lit1 n)) s)

end Sys2Proof.Machine
end

