-- ==== Sys2Proof/Machine/Patterns.lean ====
section
/-! DEFINITION. PATU and PATD, the pattern fills.
Spec: 42_cell_opcodes.md rules R112, R113; 30_encoding.md rule R75. -/

namespace Sys2Proof.Machine

/-- A pattern fill with opcode byte `op`: `patt_len + 3` pixels from the seed on, the accumulator
stepped after each by `PATTERN_STEPS[2*sel + (i mod 2)]` (R112). The latches `val` and `i` end with
the last update and the last pixel's number (log 22). -/
def patternFill (op seed : Byte) (s : State) : Except BoundsInfo State := do
  let (_, c) ← s.cur.read 2
  let count := pattCount (opPattLen op)
  return emitAll (patternPixels s.cfg.patternSteps (opSel op) count 0 seed)
    { s with
      cur := c
      lat := { s.lat with
        op := op
        val := patternVal s.cfg.patternSteps (opSel op) count 0 seed
        i := count - 1 } }

/-- `PATU` (R112): `sel` 0 to 3. -/
def execPatu (ss : BitVec 2) (pattLen : BitVec 3) (seed : Byte) (s : State) :
    Host.Outcome State Fault Refusal :=
  orFailCell s (patternFill (opcodeByte (.patu ss pattLen seed)) seed s)

/-- `PATD` (R113): `sel` 4 to 7. -/
def execPatd (ss : BitVec 2) (pattLen : BitVec 3) (seed : Byte) (s : State) :
    Host.Outcome State Fault Refusal :=
  orFailCell s (patternFill (opcodeByte (.patd ss pattLen seed)) seed s)

end Sys2Proof.Machine
end

