-- ==== Sys2Proof/Machine/Records.lean ====
section
/-! DEFINITION. The records VGAP and LINE, and the sequencing of a cell around them: its start, the
end of a line record, the end of the cell.
Spec: 41_cell_decoder.md rules R92 to R102. A LINE takes several steps (log 9): `execLine` opens the
record, each operation is a step, `endLine` blits the row. -/

namespace Sys2Proof.Machine

/-- `VGAP` (R95): `dest_y` moves down `skip_count + 1` rows; the lines it counts are `gapLinesOf`. -/
def execVgap (skipCount : Byte) (s : State) : Host.Outcome State Fault Refusal :=
  orFailCell s do
    let (_, c) ← s.cur.read 2
    return { s with
      cur := c
      lineLength := 0
      destY := s.destY + skipCount.toNat + 1
      linesDone := s.linesDone + gapLinesOf s.cfg.gapLines skipCount }

/-- `LINE`, its opening (R96): the budget, a row of `T`, the draw position; then the operation
loop. -/
def execLine (lineLength xStart : Byte) (s : State) : Host.Outcome State Fault Refusal :=
  orFailCell s do
    let (_, c) ← s.cur.read 1
    let lineStart := c.tell
    let (_, c) ← c.read 1
    return { s with
      cur := c
      lineLength := lineLength
      lineStart := lineStart
      lineEnd := lineStart + lineLength.toNat
      row := []
      drawX := xStart.toNat
      phase := .ops }

/-- `LINE`, its end (R96, R101): the row is blitted at `dest_y`, which moves down one row, and one
scanline is done. -/
def endLine (s : State) : Host.Outcome State Fault Refusal :=
  match s.canvas with
  | none => .fault .frameMissing
  | some f =>
    .next { s with
      canvas := some (blit s.row s.hdr s.destY f)
      destY := s.destY + 1
      linesDone := s.linesDone + 1
      phase := .record }

/-- The end of a cell (R102): nothing more is read; the next pending cell is due. -/
def endCell (s : State) : Host.Outcome State Fault Refusal := .next { s with phase := .cellStart }

/-- The header read that starts a cell (R92, R93). -/
def readHeader (off : Nat) (s : State) : Except BoundsInfo State := do
  let (hdr, c) ← s.cur.header off
  return { s with
    cur := c
    hdr := hdr
    destY := hdr.yOffset.toNat
    linesDone := 0
    phase := .record }

/-- The next pending cell starts (R93, R118), or, when there is none, the operation completes with its
frame. -/
def startCell (s : State) : Host.Outcome State Fault Refusal :=
  match s.pending with
  | [] => .next (complete (deliverFrame s))
  | off :: rest =>
    match s.canvas with
    | none => .fault .frameMissing
    | some _ =>
      let s := { s with cellOffset := off, pending := rest }
      orFailCell s (readHeader off s)

end Sys2Proof.Machine
end

