-- ==== Sys2Proof/Machine/Rle.lean ====
section
/-! DEFINITION. The RLE records, as `rle_decode` executes them, and the canonical encoder.
Spec: 45_rle_and_output.md rules R126 to R130. -/

namespace Sys2Proof.Machine

/-- `RLE.RUN` (R127, R130): `r` copies of `value` are appended to `OUT`. -/
def execRleRun (r : BitVec 7) (value : Byte) (s : State) : Host.Outcome State Fault Refusal :=
  orFailRle s do
    let (_, c) ← s.cur.read 2
    return { s with cur := c, out := s.out ++ List.replicate r.toNat value }

/-- `RLE.LIT` (R128, R130): the `m` bytes after the tag are appended to `OUT`. -/
def execRleLit (m : BitVec 7) (s : State) : Host.Outcome State Fault Refusal :=
  orFailRle s do
    let (_, c) ← s.cur.read 1
    let (bs, c) ← c.read m.toNat
    return { s with cur := c, out := s.out ++ bs }

/-- The number of bytes equal to `v` at the head of a sequence, at most `cap`. -/
def headRun (v : Byte) : Nat → List Byte → Nat
  | 0, _ => 0
  | _ + 1, [] => 0
  | cap + 1, b :: bs => if b = v then headRun v cap bs + 1 else 0

/-- `runlen(x, i)` (R126), 0 at the end of `x`. -/
def runLen (x : List Byte) (i : Nat) : Nat :=
  match x.drop i with
  | [] => 0
  | v :: bs => headRun v rleMaxRun (v :: bs)

/-- The inner loop of R129 from index `i`, at most `fuel` bytes: where the literal block ends. -/
def literalEnd (x : List Byte) : Nat → Nat → Nat
  | 0, i => i
  | fuel + 1, i => if i < x.length ∧ runLen x i < rleMinRun then literalEnd x fuel (i + 1) else i

/-- One round of the outer loop of R129 at index `i < |x|`: the working registers after it and the
record it appends. -/
def rleRound (x : List Byte) (g : RleRegs) : RleRegs × List Byte :=
  let r := runLen x g.i
  if rleMinRun ≤ r then
    ({ g with i := g.i + r, r := r },
      encode (.rleRun (BitVec.ofNat 7 r) (x.getD g.i 0)))
  else
    let stop := literalEnd x rleMaxLit g.i
    ({ i := stop, r := r, s := g.i },
      encode (.rleLit (BitVec.ofNat 7 (stop - g.i))) ++ (x.drop g.i).take (stop - g.i))

/-- The outer loop of R129, at most `fuel` rounds. -/
def rleRounds (x : List Byte) : Nat → RleRegs → List Byte
  | 0, _ => []
  | fuel + 1, g =>
    if g.i < x.length then (rleRound x g).2 ++ rleRounds x fuel (rleRound x g).1 else []

/-- `rle_compress(x)` (R129) as a function: each round takes at least one byte, so `|x|` rounds are
enough. -/
def rleCompress (x : List Byte) : List Byte := rleRounds x x.length { i := 0, r := 0, s := 0 }

/-- One step of a running `rle_compress` over the cursor's buffer: a round, or the end (R129). -/
def rleCompressStep (s : State) : Host.Outcome State Fault Refusal :=
  let x := s.cur.buf.toBytes
  if s.rle.i < x.length then
    .next { s with rle := (rleRound x s.rle).1, out := s.out ++ (rleRound x s.rle).2 }
  else .next (complete s)

end Sys2Proof.Machine
end

