-- ==== Sys2Proof/Machine/Runs.lean ====
section
/-! DEFINITION. REP, PAIR and GAP.
Spec: 42_cell_opcodes.md rules R108, R110, R111. Operand bytes are read whether or not they lie
beyond `line_end` (41_cell_decoder.md rule R100). -/

namespace Sys2Proof.Machine

/-- `REP` (R108): `len5 + 3` pixels of `v`. -/
def execRep (len5 : BitVec 5) (v : Byte) (s : State) : Host.Outcome State Fault Refusal :=
  orFailCell s do
    let (_, c) ← s.cur.read 2
    return emitAll (List.replicate (repCount len5) v)
      { s with cur := c, lat := { s.lat with op := opcodeByte (.rep len5 v), v := v } }

/-- `PAIR` (R110): `a, b` repeated `len5 + 2` times. -/
def execPair (len5 : BitVec 5) (a b : Byte) (s : State) : Host.Outcome State Fault Refusal :=
  orFailCell s do
    let (_, c) ← s.cur.read 3
    return emitAll (pairPixels a b (pairCount len5))
      { s with cur := c, lat := { s.lat with op := opcodeByte (.pair len5 a b), a := a, b := b } }

/-- `GAP` (R111): the draw position advances by `len5 + 1`, nothing is drawn. -/
def execGap (len5 : BitVec 5) (s : State) : Host.Outcome State Fault Refusal :=
  orFailCell s do
    let (_, c) ← s.cur.read 1
    return { s with
      cur := c
      drawX := s.drawX + gapCount len5
      lat := { s.lat with op := opcodeByte (.gap len5) } }

end Sys2Proof.Machine
end

