-- ==== Sys2Proof/Machine/Dispatch.lean ====
section
/-! DEFINITION. One arm per constructor of Instr. -/

namespace Sys2Proof.Machine

def exec (i : Instr) (s : State) : Host.Outcome State Fault Refusal :=
  match i with
  | .lit0 n => Sys2Proof.Machine.execLit0 n s
  | .lit1 n => Sys2Proof.Machine.execLit1 n s
  | .rep len5 v => Sys2Proof.Machine.execRep len5 v s
  | .copy len5 back => Sys2Proof.Machine.execCopy len5 back s
  | .pair len5 a b => Sys2Proof.Machine.execPair len5 a b s
  | .gap len5 => Sys2Proof.Machine.execGap len5 s
  | .patu ss pattLen seed => Sys2Proof.Machine.execPatu ss pattLen seed s
  | .patd ss pattLen seed => Sys2Proof.Machine.execPatd ss pattLen seed s
  | .vgap skipCount => Sys2Proof.Machine.execVgap skipCount s
  | .line lineLength xStart => Sys2Proof.Machine.execLine lineLength xStart s
  | .rleRun r value => Sys2Proof.Machine.execRleRun r value s
  | .rleLit m => Sys2Proof.Machine.execRleLit m s

end Sys2Proof.Machine
end

