-- ==== Sys2Proof/Machine/Bitplanes.lean ====
section
/-! DEFINITION. The Bitplane Encoder: chunky resolution, plane split, interleave, the bitplane file.
Spec: 44_bitplane_encoder.md rules R122 to R125; 45_rle_and_output.md rules R133, R134;
30_encoding.md rule R83. -/

namespace Sys2Proof.Machine

/-- A sample resolved to a byte (R122). -/
def resolve : Sample → Byte
  | .T => fillByte
  | .Px v => v

/-- `to_chunky(frame)` (R122): the samples in row-major order, resolved. -/
def chunkyOf (f : Frame) : Chunky where
  w := f.w
  h := f.h
  px := Memory.ofBytes (f.samples.map resolve)

/-- `ROWB = ceil(W/8)` (R40). -/
def rowBytes (w : Nat) : Nat := (w + 7) / 8

/-- `mask(x)` (R123, R12). -/
def planeMask (msbFirst : Bool) (x : Nat) : Byte :=
  if msbFirst then 0x80#8 >>> (x % 8) else 1#8 <<< (x % 8)

/-- The pixel `(x, y)` into plane `p` (the body of the loop of R123). -/
def planePixel (msbFirst : Bool) (c : Chunky) (p y : Nat) (m : Memory) (x : Nat) : Memory :=
  let v := c.px.read (y * c.w + x)
  let a := y * rowBytes c.w + x / 8
  if (v.toNat >>> p) % 2 = 1 then m.write a (m.read a ||| planeMask msbFirst x) else m

/-- Row `y` into plane `p`. -/
def planeRow (msbFirst : Bool) (c : Chunky) (p : Nat) (m : Memory) (y : Nat) : Memory :=
  (List.range c.w).foldl (planePixel msbFirst c p y) m

/-- Plane `p` (R123): all 0, then every pixel's bit `p`. -/
def planeOf (msbFirst : Bool) (c : Chunky) (p : Nat) : Memory :=
  (List.range c.h).foldl (planeRow msbFirst c p) (Memory.zeros (rowBytes c.w * c.h))

/-- `to_planes(CHUNKY, W, H, plane_count)` (R123). -/
def planesOf (msbFirst : Bool) (c : Chunky) (planeCount : Nat) : Planes where
  w := c.w
  h := c.h
  planes := (List.range planeCount).map (planeOf msbFirst c)

/-- `interleave(PLANE[], W, H)` (R124): per row, every plane's bytes of that row in plane order. -/
def interleaveOf (pl : Planes) : List Byte :=
  (List.range pl.h).flatMap fun y =>
    pl.planes.flatMap fun m => m.readList (y * rowBytes pl.w) (rowBytes pl.w)

/-- `le32(v)` (R19). -/
def le32 (v : Nat) : List Byte :=
  [BitVec.ofNat 8 v, BitVec.ofNat 8 (v / 2 ^ 8), BitVec.ofNat 8 (v / 2 ^ 16),
    BitVec.ofNat 8 (v / 2 ^ 24)]

/-- The compressed blocks of the planes, in plane order (R133). -/
def rleBlocks (pl : Planes) : List (List Byte) := pl.planes.map fun m => rleCompress m.toBytes

/-- The payload and the header's `payload_size` in each mode (R133, D26). -/
def filePayload (pl : Planes) : FileMode → List Byte × Nat
  | .raw =>
    let payload := pl.planes.flatMap Memory.toBytes
    (payload, payload.length)
  | .interleaved =>
    let payload := interleaveOf pl
    (payload, payload.length)
  | .rle =>
    ((rleBlocks pl).flatMap fun blk => le32 blk.length ++ blk, ((rleBlocks pl).map List.length).sum)

/-- `write_bitplane_file(W, H, PLANE[], mode)` (R133): `none` where a field needs more than 32
bits. A block is no longer than `payload_size`, so its prefix fits when that field does. -/
def bitplaneFile (pl : Planes) (mode : FileMode) : Option (List Byte) :=
  let (payload, payloadSize) := filePayload pl mode
  if pl.w < 2 ^ 32 ∧ pl.h < 2 ^ 32 ∧ pl.planes.length < 2 ^ 32 ∧ payloadSize < 2 ^ 32 then
    some (le32 pl.w ++ le32 pl.h ++ le32 pl.planes.length ++ le32 payloadSize ++ payload)
  else none

end Sys2Proof.Machine
end

