-- ==== Sys2Proof/Machine/Index.lean ====
section
/-! DEFINITION. The Sprite Index: `parse` and entry lookup.
Spec: 40_sprite_index.md rules R86 to R91. -/

namespace Sys2Proof.Machine

/-- A count is implausible (R86). -/
def implausible (count : Half) : Bool := decide (count.toNat = 0) || decide (countLimit ≤ count.toNat)

/-- The entry loop of R87: `n` pairs of 16-bit reads. -/
def readEntries : Nat → Cursor → Except BoundsInfo (List Entry × Cursor)
  | 0, c => .ok ([], c)
  | n + 1, c => do
    let (o1, c) ← c.u16
    let (o2, c) ← c.u16
    let (es, c) ← readEntries n c
    return ({ offset1 := o1, offset2 := o2 } :: es, c)

/-- The result of one parsing attempt (R87), with the cursor of a successful one. -/
inductive Attempt where
  | ok (index : SpriteIndex) (cursor : Cursor)
  | implausible
  | truncated
  deriving DecidableEq, Repr

/-- `attempt(B)` (R87): length below 2, then plausibility, then length against the count (D19). No
read of the loop can fail; a failing read would be `Truncated`. -/
def attempt (b : Memory) : Attempt :=
  if b.len < 2 then .truncated
  else
    match (Cursor.over b).u16 with
    | .error _ => .truncated
    | .ok (count, c) =>
      if implausible count then .implausible
      else if b.len < count.toNat * 4 + 2 then .truncated
      else
        match readEntries count.toNat c with
        | .error _ => .truncated
        | .ok (entries, c) => .ok { wbuf := b, count := count, entries := entries } c

/-- The buffer with every byte XORed with `XOR_KEY` (R88). -/
def Memory.xored (b : Memory) : Memory := Memory.ofBytes (b.toBytes.map (· ^^^ xorKey))

/-- `parse` completes with an index (R88). -/
def parseDone (index : SpriteIndex) (c : Cursor) (lowConfidence : Bool) (s : State) : State :=
  complete { s with index := some index, cur := c, lowConfidence := lowConfidence }

/-- `parse` fails (R145): no index exists, `low_confidence` is not meaningful (log 13). -/
def parseFail (e : Status) (s : State) : State :=
  raise e { s with
    index := none
    lowConfidence := Config.freeFlag s.freeCount
    freeCount := s.freeCount + 1 }

/-- `parse(BUF)` (R88): one retry over the XORed buffer, and only when the count was implausible. -/
def parse (bytes : List Byte) (s : State) : State :=
  let buf := Memory.ofBytes bytes
  let s := { s with buf := buf }
  match attempt buf with
  | .ok index c => parseDone index c false s
  | .truncated => parseFail .truncatedIndex s
  | .implausible =>
    match attempt buf.xored with
    | .ok index c => parseDone index c true s
    | .truncated => parseFail .truncatedIndex s
    | .implausible => parseFail .indexRejected s

/-- Entry lookup (R90): `none` where it raises UnsupportedFrame. -/
def lookup (index : SpriteIndex) (i : Int) : Option Entry :=
  if i < 0 ∨ (index.count.toNat : Int) ≤ i then none else index.entries[i.toNat]?

end Sys2Proof.Machine
end

