-- ==== Sys2Proof/Machine/Compositor.lean ====
section
/-! DEFINITION. The Frame Compositor: frame bounds, and what `decode_frame` sets up before its cells
run.
Spec: 43_frame_compositor.md rules R117 to R121. -/

namespace Sys2Proof.Machine

/-- One turn of the loop of R117: a non-zero offset's header enlarges the bounds. -/
def boundsOfCell (off : Half) (wh : Nat × Nat) (c : Cursor) :
    Except BoundsInfo ((Nat × Nat) × Cursor) :=
  if off = 0 then .ok (wh, c)
  else do
    let (hdr, c) ← c.header off.toNat
    return ((max wh.1 (hdr.xOffset.toNat + hdr.width.toNat),
      max wh.2 (hdr.yOffset.toNat + hdr.height.toNat)), c)

/-- `get_frame_bounds(entry)` over `WBUF` (R117), with the cursor it leaves. -/
def frameBounds (wbuf : Memory) (e : Entry) : Except BoundsInfo ((Nat × Nat) × Cursor) := do
  let (wh, c) ← boundsOfCell e.offset1 (0, 0) (Cursor.over wbuf)
  let (wh, c) ← boundsOfCell e.offset2 wh c
  return ((max wh.1 1, max wh.2 1), c)

/-- The cells `decode_frame` decodes, in order (R118, R162): those whose offset is not 0. -/
def cellsOfEntry (e : Entry) : List Nat := [e.offset1.toNat, e.offset2.toNat].filter (· ≠ 0)

/-- A limit of the frame store admits a size (R121). -/
def withinLimit (limit : Option Nat) (n : Nat) : Bool :=
  match limit with
  | none => true
  | some m => decide (n ≤ m)

/-- The frame store can hold a `w` by `h` frame (R121). -/
def fitsFrameStore (cfg : Config) (w h : Nat) : Bool :=
  withinLimit cfg.frameMaxW w && withinLimit cfg.frameMaxH h

/-- `get_frame_bounds` as a host operation (R117): BoundsError is reported under its own name
(D22). -/
def getFrameBounds (e : Entry) (s : State) : Host.Outcome State Fault Refusal :=
  match s.index with
  | none => .refused .noIndex
  | some index =>
    match frameBounds index.wbuf e with
    | .error info => .next (raise (.boundsError info) { s with bounds := none })
    | .ok (wh, c) => .next (complete { s with bounds := some wh, cur := c })

/-- `decode_frame(i)` (R118) up to its first cell: lookup, bounds, a fresh frame, the cells to
decode. On an error there is no frame (R145). -/
def startDecodeFrame (i : Int) (s : State) : Host.Outcome State Fault Refusal :=
  match s.index with
  | none => .refused .noIndex
  | some index =>
    match lookup index i with
    | none => .next (raise (.unsupportedFrame i) { s with frame := none })
    | some e =>
      match frameBounds index.wbuf e with
      | .error info => .next (raise (.boundsError info) { s with frame := none })
      | .ok ((w, h), _) =>
        if fitsFrameStore s.cfg w h then
          .next { s with
            canvas := some (Frame.fresh w h)
            pending := cellsOfEntry e
            bare := false
            cur := Cursor.over index.wbuf
            phase := .cellStart }
        else .refused .frameTooLarge

end Sys2Proof.Machine
end

