-- ==== Sys2Proof/Machine/HostOps.lean ====
section
/-! DEFINITION. The start of each of the ten host operations.
Spec: 10_state.md rule R43; 70_reset_and_hazards.md rules R155, R156. An operation that needs several
steps leaves `idle`; the others complete or raise at once (log 25). -/

namespace Sys2Proof.Machine

/-- A frame handed in by the host: `w*h` samples in row-major order (log 16). -/
def frameOfSamples (w h : Nat) (samples : List Sample) : Except Refusal Frame :=
  if samples.length = w * h then .ok { w := w, h := h, cells := cellsOfSamples 0 samples }
  else .error .argumentShape

/-- A chunky buffer handed in by the host: `w*h` bytes (R39; logs 14, 16). -/
def chunkyOfPixels (w h : Nat) (pixels : List Byte) : Except Refusal Chunky :=
  if pixels.length = w * h then .ok { w := w, h := h, px := Memory.ofBytes pixels }
  else .error .argumentShape

/-- The working buffer of a bare `decode_cell` (R156). -/
def bufferArg (s : State) : BufferArg → Except Refusal Memory
  | .given bytes => .ok (Memory.ofBytes bytes)
  | .held =>
    match s.index with
    | some index => .ok index.wbuf
    | none => .error .noWorkingBuffer

/-- The frame argument of a bare `decode_cell` (R156): the caller's. A frame beyond the store's limits
is refused (R121, log 24). -/
def callerFrameArg (s : State) : FrameArg → Except Refusal Frame
  | .given w h samples =>
    if fitsFrameStore s.cfg w h then frameOfSamples w h samples else .error .frameTooLarge
  | .held =>
    match s.callerFrame with
    | some f => .ok f
    | none => .error .noFrame

/-- The frame argument of `to_chunky` (R156): one that a completed `decode_frame` returned, the last or
an earlier one the host hands in; any other is refused. -/
def returnedFrameArg (s : State) : FrameArg → Except Refusal Frame
  | .given w h samples => do
    let f ← frameOfSamples w h samples
    if f ∈ s.returnedFrames then return f else .error .noFrame
  | .held =>
    match s.frame with
    | some f => .ok f
    | none => .error .noFrame

/-- No sample of the list is `T`. -/
def allResolved : List Sample → Bool
  | [] => true
  | .T :: _ => false
  | .Px _ :: xs => allResolved xs

/-- The pixels of `to_planes` (R156); a sample `T` is refused (R123, R163; log 23). -/
def pixelArg (s : State) : PixelArg → Except Refusal Chunky
  | .given w h pixels => chunkyOfPixels w h pixels
  | .unresolved w h samples =>
    if allResolved samples then chunkyOfPixels w h (samples.map resolve)
    else .error .unresolvedTransparency
  | .held =>
    match s.chunky with
    | some c => .ok c
    | none => .error .noChunky

/-- A plane list handed in by the host: each `ROWB*H` bytes (R40; log 16). -/
def planesOfBytes (w h : Nat) (planes : List (List Byte)) : Except Refusal Planes :=
  if planes.all fun bs => decide (bs.length = rowBytes w * h) then
    .ok { w := w, h := h, planes := planes.map Memory.ofBytes }
  else .error .argumentShape

/-- A `to_planes` has completed, and every one of these planes was made by one (R156, R164). -/
abbrev PlanesMade (s : State) (planes : List Memory) : Prop :=
  s.returnedPlanes ≠ [] ∧ ∀ m ∈ planes, ∃ made ∈ s.returnedPlanes, m ∈ made.planes

/-- The planes of `interleave` and `write_bitplane_file` with their dimensions (R124, R133): the list
made last, or any made planes the host hands in, under any `W` and `H` of their size; a plane that no
`to_planes` made is refused (R156, R164; log 14). -/
def planesArg (s : State) : PlanesArg → Except Refusal Planes
  | .given w h planes => do
    let pl ← planesOfBytes w h planes
    if PlanesMade s pl.planes then return pl else .error .noPlanes
  | .held =>
    match s.planes with
    | some pl => .ok pl
    | none => .error .noPlanes

/-- The byte sequence of an RLE operation (R156). -/
def byteArg (s : State) : ByteArg → Except Refusal (List Byte)
  | .bytes x => .ok x
  | .out => .ok s.out
  | .plane p =>
    match s.planes with
    | none => .error .noPlanes
    | some pl =>
      match pl.planes[p]? with
      | some m => .ok m.toBytes
      | none => .error .noPlanes

/-- An operation that is refused has no meaning (R156; log 15). -/
def orRefuse : Except Refusal State → Host.Outcome State Fault Refusal
  | .ok s => .next s
  | .error r => .refused r

/-- Bare `decode_cell(WBUF, cell_offset, FRAME)` up to its header read (R92). A held frame is the
caller's, never a returned one: that is immutable (R119). -/
def startDecodeCell (b : BufferArg) (off : Nat) (fr : FrameArg) (s : State) :
    Except Refusal State := do
  let wbuf ← bufferArg s b
  let f ← callerFrameArg s fr
  return { s with
    canvas := some f
    pending := [off]
    bare := true
    cur := Cursor.over wbuf
    phase := .cellStart }

/-- `to_chunky` (R122), of a frame a completed `decode_frame` returned (R156). -/
def toChunky (fr : FrameArg) (s : State) : Except Refusal State := do
  let f ← returnedFrameArg s fr
  return complete { s with chunky := some (chunkyOf f) }

/-- `to_planes` (R123). -/
def toPlanes (px : PixelArg) (planeCount : Nat) (s : State) : Except Refusal State := do
  let c ← pixelArg s px
  let pl := planesOf s.cfg.planeBitMsbFirst c planeCount
  return complete { s with planes := some pl, returnedPlanes := pl :: s.returnedPlanes }

/-- `interleave` (R124): the result is `OUT` (R41). -/
def interleave (pl : PlanesArg) (s : State) : Except Refusal State := do
  let pl ← planesArg s pl
  return complete { s with out := interleaveOf pl }

/-- `rle_compress` up to its loop (R129): `OUT` empty, `i = 0`. -/
def startRleCompress (x : ByteArg) (s : State) : Except Refusal State := do
  let x ← byteArg s x
  return { s with
    cur := Cursor.over (Memory.ofBytes x)
    out := []
    rle := { s.rle with i := 0 }
    phase := .rleCompress }

/-- `rle_decode` up to its loop (R130): `OUT` empty, `j = 0`. -/
def startRleDecode (z : ByteArg) (s : State) : Except Refusal State := do
  let z ← byteArg s z
  return { s with cur := Cursor.over (Memory.ofBytes z), out := [], phase := .rleDecode }

/-- `write_bitplane_file` (R133): the file is `OUT`; a field over 32 bits is refused (D26). -/
def writeBitplaneFile (pl : PlanesArg) (mode : FileMode) (s : State) : Except Refusal State := do
  let pl ← planesArg s pl
  match bitplaneFile pl mode with
  | some file => return complete { s with out := file }
  | none => .error .fieldOver32Bits

/-- The host starts an operation (R43). -/
def startOp (op : HostOp) (s : State) : Host.Outcome State Fault Refusal :=
  match op with
  | .parse bytes => .next (parse bytes s)
  | .getFrameBounds e => getFrameBounds e s
  | .decodeFrame i => startDecodeFrame i s
  | .decodeCell b off fr => orRefuse (startDecodeCell b off fr s)
  | .toChunky fr => orRefuse (toChunky fr s)
  | .toPlanes px planeCount => orRefuse (toPlanes px planeCount s)
  | .interleave pl => orRefuse (interleave pl s)
  | .rleCompress x => orRefuse (startRleCompress x s)
  | .rleDecode z => orRefuse (startRleDecode z s)
  | .writeBitplaneFile pl mode => orRefuse (writeBitplaneFile pl mode s)

end Sys2Proof.Machine
end

