-- ==== Sys2Proof/Machine/Sequencer.lean ====
section
/-! DEFINITION. What a step does besides running an instruction: whether an instruction is due and in
which space, the bytes the decoder is given, and the sequencing between instructions.
Spec: 41_cell_decoder.md rules R92, R94, R96, R97, R102; 45_rle_and_output.md rules R129, R130;
70_reset_and_hazards.md rule R153. -/

namespace Sys2Proof.Machine

/-- The space of the instruction that is due, if one is: the loop tests of R94, R97 and R130. -/
def dueSpace (s : State) : Option Space :=
  match s.phase with
  | .record => if s.linesDone < s.hdr.height.toNat then some .record else none
  | .ops => if s.cur.pos < s.lineEnd then some .operation else none
  | .rleDecode => if s.cur.pos < s.cur.buf.len then some .rle else none
  | .idle => none
  | .cellStart => none
  | .rleCompress => none

/-- The bytes the decoder is given: at the cursor, as many as the longest fixed layout has. -/
def fetchWindow (s : State) : List Byte := s.cur.window 3

/-- A fetch that ends before the instruction does is a failed cursor read at the end of the buffer
(R136, R138; log 20). -/
def fetchFails (sp : Space) (s : State) : State :=
  match sp with
  | .operation => failCell s
  | .record => failCell s
  | .rle => failRle (.read (s.cur.pos + (fetchWindow s).length) 1) s

/-- What happens when no instruction is due: the idle machine starts the next request, or waits
(R153; log 6); a finished loop ends its record, cell or operation; `rle_compress` takes a round. -/
def sequencer (s : State) : Host.Outcome State Fault Refusal :=
  match s.phase with
  | .idle =>
    match s.requests with
    | [] => .next s
    | op :: rest => startOp op { s with requests := rest }
  | .cellStart => startCell s
  | .record => endCell s
  | .ops => endLine s
  | .rleDecode => .next (complete s)
  | .rleCompress => rleCompressStep s

/-- The buffer with bytes stored from address `a` on, made longer where it must be. Only
`State.withFetchWord` uses it: the hardware never writes its input buffer (R27). -/
def Memory.place (m : Memory) (a : Nat) (bs : List Byte) : Memory :=
  Memory.ofBytes ((m.readList 0 a) ++ bs ++ m.readList (a + bs.length) (m.len - (a + bs.length)))

/-- The length of the longest instruction, stream data included: `RLE.LIT` with 127 bytes (R72,
R81). -/
def longestInstr : Nat := 128

/-- `s` with a table word where the next step fetches, in the space the word is read in, and
everything set that makes that step fetch it (log 7): the phase, and for a cell space a budget, a
height and a frame. -/
def placeWord (s : State) (nbits w : Nat) : State :=
  let bytes := tableBytes nbits w 0 longestInstr
  let s := { s with cur := { s.cur with buf := s.cur.buf.place s.cur.pos bytes } }
  let withFrame := some (s.canvas.getD (Frame.fresh 1 1))
  match tableSpace nbits (bytes.headD 0) with
  | .operation =>
    { s with
      phase := .ops
      canvas := withFrame
      lineLength := BitVec.ofNat 8 longestInstr
      lineStart := s.cur.pos
      lineEnd := s.cur.pos + longestInstr }
  | .record =>
    { s with
      phase := .record
      canvas := withFrame
      linesDone := 0
      hdr := { s.hdr with height := 1 } }
  | .rle => { s with phase := .rleDecode }

end Sys2Proof.Machine
end

