-- ==== Sys2Proof/Machine/Step.lean ====
section
/-! DEFINITION. One step of the machine: the instruction that is due, or the sequencing between
instructions. -/

namespace Sys2Proof.Machine

/-- One step (log 9). -/
def step (s : State) : Host.Outcome State Fault Refusal :=
  match dueSpace s with
  | none => sequencer s
  | some sp =>
    match decode sp (fetchWindow s) with
    | .ok (i, _) => exec i s
    | .error _ => .next (fetchFails sp s)

/-- The state with a table word where step fetches its next instruction (log 7). -/
def State.withFetchWord (s : State) (nbits w : Nat) : State := placeWord s nbits w

end Sys2Proof.Machine
end

