-- ==== Sys2Proof/Machine/Assembler.lean ====
section
/-! DEFINITION. The assembler notation of the spec: one item per line of source, its bytes and its
constraint.
Spec: 30_encoding.md rule R85 (the notation is the spec's own). The machine does not use it; tests
and claims write programs in it. -/

namespace Sys2Proof.Machine

/-- One operation inside `line X { ... }`. -/
inductive AsmOp where
  | lit (bytes : List Byte)
  | rep (n : Nat) (v : Byte)
  | copy (n : Nat) (back : Half)
  | pair (n : Nat) (a b : Byte)
  | gap (n : Nat)
  | patu (sel n : Nat) (seed : Byte)
  | patd (sel n : Nat) (seed : Byte)
  | byte (bytes : List Byte)
  deriving DecidableEq, Repr

/-- The constraint column of R85. -/
def AsmOp.legal : AsmOp → Bool
  | .lit bs => decide (1 ≤ bs.length) && decide (bs.length ≤ 64)
  | .rep n _ => decide (3 ≤ n) && decide (n ≤ 34)
  | .copy n _ => decide (4 ≤ n) && decide (n ≤ 35)
  | .pair n _ _ => decide (2 ≤ n) && decide (n ≤ 33)
  | .gap n => decide (1 ≤ n) && decide (n ≤ 32)
  | .patu sel n _ => decide (sel ≤ 3) && decide (3 ≤ n) && decide (n ≤ 10)
  | .patd sel n _ => decide (sel ≤ 3) && decide (3 ≤ n) && decide (n ≤ 10)
  | .byte _ => true

/-- The bytes emitted. `lit` chooses LIT0 or LIT1 by its count. -/
def AsmOp.bytes : AsmOp → List Byte
  | .lit bs =>
    if bs.length ≤ 32 then encode (.lit0 (BitVec.ofNat 5 (bs.length - 1))) ++ bs
    else encode (.lit1 (BitVec.ofNat 5 (bs.length - 1))) ++ bs
  | .rep n v => encode (.rep (BitVec.ofNat 5 (n - 3)) v)
  | .copy n back => encode (.copy (BitVec.ofNat 5 (n - 4)) back)
  | .pair n a b => encode (.pair (BitVec.ofNat 5 (n - 2)) a b)
  | .gap n => encode (.gap (BitVec.ofNat 5 (n - 1)))
  | .patu sel n seed => encode (.patu (BitVec.ofNat 2 sel) (BitVec.ofNat 3 (n - 3)) seed)
  | .patd sel n seed => encode (.patd (BitVec.ofNat 2 sel) (BitVec.ofNat 3 (n - 3)) seed)
  | .byte bs => bs

/-- One item of a program. -/
inductive AsmItem where
  | index (entries : List Entry)
  | cell (x w y h : Half)
  | line (xStart : Byte) (ops : List AsmOp)
  | vgap (n : Nat)
  | byte (bytes : List Byte)
  | run (n : Nat) (v : Byte)
  | raw (bytes : List Byte)
  deriving DecidableEq, Repr

/-- The constraint column of R85. -/
def AsmItem.legal : AsmItem → Bool
  | .index _ => true
  | .cell _ _ _ _ => true
  | .line _ ops => ops.all AsmOp.legal && decide ((ops.flatMap AsmOp.bytes).length + 1 ≤ 255)
  | .vgap n => decide (1 ≤ n) && decide (n ≤ 256)
  | .byte _ => true
  | .run n _ => decide (3 ≤ n) && decide (n ≤ 127)
  | .raw bs => decide (1 ≤ bs.length) && decide (bs.length ≤ 127)

/-- The bytes emitted. `line` computes its length byte. -/
def AsmItem.bytes : AsmItem → List Byte
  | .index entries =>
    le16 (BitVec.ofNat 16 entries.length) ++
      entries.flatMap fun e => le16 e.offset1 ++ le16 e.offset2
  | .cell x w y h => le16 x ++ le16 w ++ le16 y ++ le16 h
  | .line xStart ops =>
    let body := ops.flatMap AsmOp.bytes
    encode (.line (BitVec.ofNat 8 (body.length + 1)) xStart) ++ body
  | .vgap n => encode (.vgap (BitVec.ofNat 8 (n - 1)))
  | .byte bs => bs
  | .run n v => encode (.rleRun (BitVec.ofNat 7 n) v)
  | .raw bs => encode (.rleLit (BitVec.ofNat 7 bs.length)) ++ bs

/-- A program's bytes, items in order. -/
def assemble (items : List AsmItem) : List Byte := items.flatMap AsmItem.bytes

end Sys2Proof.Machine
end

