-- ==== Sys2Proof/Machine/Flags.lean ====
section
/-! DEFINITION. The one condition code of the hardware, `outcome`, and its numbers.
Spec: 10_state.md rules R31, R42; 60_exceptions.md rule R135. No opcode reads or writes it (R105);
an operation writes it when it ends (`complete`, `raise` in Machine/Ops.lean). -/

namespace Sys2Proof.Machine

/-- The code of an outcome (R135). -/
def Status.code : Status → Nat
  | .ok => 0
  | .boundsError _ => 1
  | .truncatedIndex => 2
  | .malformedCell _ => 3
  | .unsupportedFrame _ => 4
  | .indexRejected => 5

end Sys2Proof.Machine
end

