-- ==== Sys2Proof/Safety.lean ====
section
/-! DEFINITION. What a safe state and a safe run are, the well-formedness predicate of a cell's byte
code, and the terms claims are stated in. -/

namespace Sys2Proof.Machine

/-! ### Well-formed byte code (30_encoding.md rule R78) -/

/-- The literal bytes after an operation's fixed layout, for an opcode byte at `pos` (R77). -/
def literalBytes (lineEnd pos : Nat) : Instr → Nat
  | .lit0 n => min (litCount (opcodeByte (.lit0 n))) (lineEnd - (pos + 1))
  | .lit1 n => min (litCount (opcodeByte (.lit1 n))) (lineEnd - (pos + 1))
  | .rep _ _ => 0
  | .copy _ _ => 0
  | .pair _ _ _ => 0
  | .gap _ => 0
  | .patu _ _ _ => 0
  | .patd _ _ _ => 0
  | .vgap _ => 0
  | .line _ _ => 0
  | .rleRun _ _ => 0
  | .rleLit _ => 0

/-- The operations from `pos` on end exactly at `lineEnd` (R78), their literal bytes included; at most
`fuel` operations. R78 leaves two points open, and both answers are the model's choice (log 26): bytes
that the end of the buffer cuts off make them ill-formed, and a COPY is judged by its three bytes alone,
so one whose source lies outside the buffer, which faults when it runs, counts as well-formed. -/
def opsExact (m : Memory) (lineEnd : Nat) : Nat → Nat → Bool
  | 0, pos => decide (pos = lineEnd)
  | fuel + 1, pos =>
    if pos < lineEnd then
      match decode .operation (Cursor.window { buf := m, pos := pos } 3) with
      | .ok (i, _) =>
        let next := pos + i.size + literalBytes lineEnd pos i
        decide (next ≤ m.len) && opsExact m lineEnd fuel next
      | .error _ => false
    else decide (pos = lineEnd)

/-- Every record from `pos` on is well-formed until `height` lines are counted; at most `fuel`
records. A record that the end of the buffer cuts off is not (log 26). -/
def recordsExact (g : GapLines) (m : Memory) (height : Nat) : Nat → Nat → Nat → Bool
  | 0, linesDone, _ => decide (height ≤ linesDone)
  | fuel + 1, linesDone, pos =>
    if linesDone < height then
      match decode .record (Cursor.window { buf := m, pos := pos } 3) with
      | .ok (.vgap skipCount, _) =>
        recordsExact g m height fuel (linesDone + gapLinesOf g skipCount) (pos + 2)
      | .ok (.line lineLength _, _) =>
        opsExact m (pos + 1 + lineLength.toNat) lineLength.toNat (pos + 2) &&
          recordsExact g m height fuel (linesDone + 1) (pos + 1 + lineLength.toNat)
      | .ok _ => false
      | .error _ => false
    else true

/-- "Every line record of this cell is well-formed" (R78). A cell whose header lies outside the buffer
is not (log 26). -/
def cellWellFormed (g : GapLines) (m : Memory) (off : Nat) : Bool :=
  match (Cursor.over m).header off with
  | .ok (hdr, c) => recordsExact g m hdr.height.toNat m.len 0 c.pos
  | .error _ => false

/-- The line record that is ending is well-formed (R78): its operations ended at `line_end`. -/
def LineWellFormed (s : State) : Prop := s.cur.pos = s.lineEnd

/-! ### The state invariant -/

/-- An index as a completed `parse` leaves it (R30). -/
structure IndexWf (ix : SpriteIndex) : Prop where
  wbuf : ix.wbuf.wf = true
  plausible : implausible ix.count = false
  entries : ix.entries.length = ix.count.toNat

/-- Planes of their size, in canonical form (R40). -/
def Planes.Wf (pl : Planes) : Prop := ∀ m ∈ pl.planes, m.wf = true ∧ m.len = rowBytes pl.w * pl.h

/-- A cell decode is running. -/
def State.decoding (s : State) : Prop :=
  s.phase = .cellStart ∨ s.phase = .record ∨ s.phase = .ops

/-- The invariant of the machine: stores are in canonical form and of their sizes (R36, R38, R39,
R40, R46), the cursor lies in its buffer (R28, R53), a frame is under construction exactly while a
cell decode runs (R92, R118), the held frame and planes are ones an operation returned (R156), and the
registers of an open line record fit together (R35, R96). -/
structure State.Inv (s : State) : Prop where
  buf : s.buf.wf = true
  cur : s.cur.wf = true
  index : ∀ ix, s.index = some ix → IndexWf ix
  row : s.phase = .ops → cellsRise s.hdr.width.toNat 0 s.row = true
  canvas : ∀ f, s.canvas = some f → f.wf = true
  frame : ∀ f, s.frame = some f → f.wf = true
  callerFrame : ∀ f, s.callerFrame = some f → f.wf = true
  chunky : ∀ c, s.chunky = some c → c.px.wf = true ∧ c.px.len = c.w * c.h
  planes : ∀ pl, s.planes = some pl → pl.Wf
  returnedFrames : ∀ f ∈ s.returnedFrames, f.wf = true
  returnedPlanes : ∀ pl ∈ s.returnedPlanes, pl.Wf
  frameReturned : ∀ f, s.frame = some f → f ∈ s.returnedFrames
  planesReturned : ∀ pl, s.planes = some pl → pl ∈ s.returnedPlanes
  drawing : s.decoding ↔ s.canvas.isSome = true
  line : s.phase = .ops →
    s.lineLength ≠ 0 ∧ s.lineEnd = s.lineStart + s.lineLength.toNat ∧ s.lineStart < s.cur.pos

/-- The bound on the draw position of an open line record (R99): 32 columns for each byte consumed
after `x_start`, and an overrun of at most two bytes. -/
def State.DrawBound (s : State) : Prop :=
  s.phase = .ops →
    s.lineEnd = s.lineStart + s.lineLength.toNat ∧ s.lineStart + 1 ≤ s.cur.pos ∧
      s.cur.pos ≤ s.lineEnd + 2 ∧ s.drawX ≤ 255 + 32 * (s.cur.pos - (s.lineStart + 1))

/-- The cell header stored at `off` (R69). -/
def headerAt (m : Memory) (off : Nat) : CellHeader where
  xOffset := u16le (m.read off) (m.read (off + 1))
  width := u16le (m.read (off + 2)) (m.read (off + 3))
  yOffset := u16le (m.read (off + 4)) (m.read (off + 5))
  height := u16le (m.read (off + 6)) (m.read (off + 7))

/-- A cell lies inside a frame (R120). -/
def HeaderFits (hdr : CellHeader) (f : Frame) : Prop :=
  hdr.xOffset.toNat + hdr.width.toNat ≤ f.w ∧ hdr.yOffset.toNat + hdr.height.toNat ≤ f.h

/-- While `decode_frame` runs with gaps counted as rows, every cell it decodes lies inside the frame
it allocated (R120). -/
def State.CellsFit (s : State) : Prop :=
  s.bare = false → s.cfg.gapLines = .rows → s.decoding →
    ∃ f, s.canvas = some f ∧
      (∀ off ∈ s.pending, off + 8 ≤ s.cur.buf.len → HeaderFits (headerAt s.cur.buf off) f) ∧
      (s.phase ≠ .cellStart →
        HeaderFits s.hdr f ∧ s.destY = s.hdr.yOffset.toNat + s.linesDone) ∧
      (s.phase = .ops → s.linesDone < s.hdr.height.toNat)

/-- The headers of an entry's present cells lie inside the buffer (R117). -/
def EntryReadable (m : Memory) (e : Entry) : Prop :=
  (e.offset1 ≠ 0 → e.offset1.toNat + 8 ≤ m.len) ∧ (e.offset2 ≠ 0 → e.offset2.toNat + 8 ≤ m.len)

/-- What a cell adds to the bounds: `(x_offset + width, y_offset + height)`, and nothing when it is
absent (R117). -/
def cellExtent (m : Memory) (off : Half) : Nat × Nat :=
  if off = 0 then (0, 0)
  else
    let hdr := headerAt m off.toNat
    (hdr.xOffset.toNat + hdr.width.toNat, hdr.yOffset.toNat + hdr.height.toNat)

/-- The bounds of an entry: the larger extent of its cells, at least 1 by 1 (R117). -/
def entryExtent (m : Memory) (e : Entry) : Nat × Nat :=
  (max (max (cellExtent m e.offset1).1 (cellExtent m e.offset2).1) 1,
    max (max (cellExtent m e.offset1).2 (cellExtent m e.offset2).2) 1)

/-! ### Terms of claims -/

/-- `t` is what `n` steps from `s` lead to. -/
def Reaches (n : Nat) (s t : State) : Prop := Host.Core.run Sys2Proof.core n s = .next t

/-- The host's request `op` is next and `rest` come after it. -/
def Requested (s : State) (op : HostOp) (rest : List HostOp) : Prop :=
  s.phase = .idle ∧ s.requests = op :: rest

/-- The bytes `bs` stand at the cursor. -/
def AtCursor (s : State) (bs : List Byte) : Prop :=
  s.cur.pos + bs.length ≤ s.cur.buf.len ∧ s.cur.buf.readList s.cur.pos bs.length = bs

/-- `t` is `s` but for what a cell operation may write: `pos`, `draw_x`, `ROW` and the latches
(R105). Every store, flag and other register is that of `s`. -/
def OnlyOperationRegs (s t : State) : Prop :=
  t = { s with cur := { s.cur with pos := t.cur.pos }, drawX := t.drawX, row := t.row, lat := t.lat }

/-- `n` pixels `px 0, px 1, ...` were emitted (R98): the draw position moved by `n`, the columns
inside the row took their pixels, every other column kept its sample. -/
def Draws (s t : State) (n : Nat) (px : Nat → Byte) : Prop :=
  t.drawX = s.drawX + n ∧
    ∀ c, sampleAt t.row c =
      if s.drawX ≤ c ∧ c < s.drawX + n ∧ c < s.hdr.width.toNat then .Px (px (c - s.drawX))
      else sampleAt s.row c

/-- The latches an operation has for its own (R37, R105): `op` of all, `v` of REP, `back` and
`ret_pos` of COPY, `a` and `b` of PAIR, `val` and `i` of the pattern fills. From `l` to `l'` no other
changes. -/
def OwnLatches (i : Instr) (l l' : Latches) : Prop :=
  match i with
  | .lit0 _ => l' = { l with op := l'.op }
  | .lit1 _ => l' = { l with op := l'.op }
  | .rep _ _ => l' = { l with op := l'.op, v := l'.v }
  | .copy _ _ => l' = { l with op := l'.op, back := l'.back, retPos := l'.retPos }
  | .pair _ _ _ => l' = { l with op := l'.op, a := l'.a, b := l'.b }
  | .gap _ => l' = { l with op := l'.op }
  | .patu _ _ _ => l' = { l with op := l'.op, val := l'.val, i := l'.i }
  | .patd _ _ _ => l' = { l with op := l'.op, val := l'.val, i := l'.i }
  | .vgap _ => l' = l
  | .line _ _ => l' = l
  | .rleRun _ _ => l' = l
  | .rleLit _ => l' = l

/-- The size of a frame. -/
def Frame.size (f : Frame) : Nat × Nat := (f.w, f.h)

/-- `s` with the working registers of the cell decoder as `t` has them (R28, R32 to R38): the cursor,
the header, the line registers, the row, the latches, the frame under construction. They are dead after
an operation (R144), so a claim about its end says nothing of them. -/
def State.withCellRegs (s t : State) : State :=
  { s with
    cur := t.cur
    hdr := t.hdr
    destY := t.destY
    linesDone := t.linesDone
    lineLength := t.lineLength
    lineStart := t.lineStart
    lineEnd := t.lineEnd
    drawX := t.drawX
    row := t.row
    lat := t.lat
    canvas := t.canvas }

/-- The running cell decode ends as MalformedCell (R138, R144): `outcome` and the sequencing change.
A `decode_frame` leaves no frame and the caller's alone; a bare `decode_cell` leaves the returned
frame alone, and the caller's with its size, nothing being said of its samples (R104, R145).
Nothing is said of the cell decoder's working registers. -/
def CellFails (s t : State) : Prop :=
  t = { s.withCellRegs t with
    status := .malformedCell s.cellOffset
    phase := .idle
    pending := []
    frame := t.frame
    callerFrame := t.callerFrame
    freeCount := t.freeCount } ∧
  (s.bare = false → t.frame = none ∧ t.callerFrame = s.callerFrame) ∧
  (s.bare = true → t.frame = s.frame ∧ t.callerFrame.map Frame.size = s.canvas.map Frame.size)

/-- The running `rle_decode` ends as BoundsError without a result (R130, R144; that `OUT` is emptied
is log 19). Nothing is said of its cursor, dead now (R144). -/
def RleFails (s t : State) : Prop :=
  ∃ info, t = { s with
    status := .boundsError info, phase := .idle, pending := [], out := [], cur := t.cur }

/-! ### Operands of host operations -/

/-- The frame operand of a bare `decode_cell` stands for a `w` by `h` frame with sample `sm a` at
address `a`: the caller's frame the hardware holds, or one handed in that the frame store can hold
(log 14). -/
def CallerFrameOperand (s : State) (fr : FrameArg) (w h : Nat) (sm : Nat → Sample) : Prop :=
  (fr = .held ∧ ∃ f, s.callerFrame = some f ∧ f.w = w ∧ f.h = h ∧ ∀ a, sm a = sampleAt f.cells a) ∨
    ∃ samples, fr = .given w h samples ∧ samples.length = w * h ∧
      (∀ m, s.cfg.frameMaxW = some m → w ≤ m) ∧ (∀ m, s.cfg.frameMaxH = some m → h ≤ m) ∧
      ∀ a, sm a = samples.getD a .T

/-- The frame operand of `to_chunky` stands for such a frame that a completed `decode_frame` returned:
the last one, held, or any, handed in (R156; log 14). -/
def ReturnedFrameOperand (s : State) (fr : FrameArg) (w h : Nat) (sm : Nat → Sample) : Prop :=
  (fr = .held ∧ ∃ f, s.frame = some f ∧ f.w = w ∧ f.h = h ∧ ∀ a, sm a = sampleAt f.cells a) ∨
    ∃ f ∈ s.returnedFrames, f.wf = true ∧ f.w = w ∧ f.h = h ∧ fr = .given w h f.samples ∧
      ∀ a, sm a = sampleAt f.cells a

/-- A pixel operand stands for `w` by `h` resolved pixels, `px a` at address `a` (logs 14, 23). -/
def PixelOperand (s : State) (arg : PixelArg) (w h : Nat) (px : Nat → Byte) : Prop :=
  (arg = .held ∧ ∃ c, s.chunky = some c ∧ c.w = w ∧ c.h = h ∧ ∀ a, px a = c.px.read a) ∨
    (∃ bytes : List Byte, arg = .given w h bytes ∧ bytes.length = w * h ∧ ∀ a, px a = bytes.getD a 0) ∨
    ∃ bytes : List Byte, arg = .unresolved w h (bytes.map Sample.Px) ∧ bytes.length = w * h ∧
      ∀ a, px a = bytes.getD a 0

/-- A plane operand stands for the planes and dimensions `pl`: the list made last, held, or planes
handed in, each made by a completed `to_planes`, in any choice and order and under any dimensions of
their size (R124, R156, R164; log 14). -/
def PlanesOperand (s : State) (arg : PlanesArg) (pl : Planes) : Prop :=
  (arg = .held ∧ s.planes = some pl) ∨
    (s.returnedPlanes ≠ [] ∧ (∀ m ∈ pl.planes, ∃ made ∈ s.returnedPlanes, m ∈ made.planes) ∧ pl.Wf ∧
      arg = .given pl.w pl.h (pl.planes.map Memory.toBytes))

/-- A byte operand of the RLE operations stands for the sequence `x` (R156; log 14). -/
def BytesOperand (s : State) (arg : ByteArg) (x : List Byte) : Prop :=
  arg = .bytes x ∨ (arg = .out ∧ x = s.out) ∨
    ∃ p pl m, arg = .plane p ∧ s.planes = some pl ∧ pl.planes[p]? = some m ∧ x = m.toBytes

/-- A working buffer operand stands for the buffer `m` (R156; log 14). -/
def BufferOperand (s : State) (arg : BufferArg) (m : Memory) : Prop :=
  (arg = .held ∧ ∃ ix, s.index = some ix ∧ m = ix.wbuf) ∨
    ∃ bytes : List Byte, arg = .given bytes ∧ m = Memory.ofBytes bytes

/-! ### Records of an RLE stream -/

/-- One record of an RLE stream (R81). -/
inductive RleRecord where
  | run (r : BitVec 7) (value : Byte)
  | lit (m : BitVec 7) (data : List Byte)
  deriving DecidableEq, Repr

/-- A literal block has as many bytes as its tag says (R128). -/
def RleRecord.complete : RleRecord → Prop
  | .run _ _ => True
  | .lit m data => data.length = m.toNat

/-- The bytes of a record (R81). -/
def RleRecord.bytes : RleRecord → List Byte
  | .run r value => [0x80#8 ||| r.setWidth 8, value]
  | .lit m data => m.setWidth 8 :: data

/-- The meaning of a record (R127, R128). -/
def RleRecord.meaning : RleRecord → List Byte
  | .run r value => List.replicate r.toNat value
  | .lit _ data => data

/-- The sequence is a record that ends too early: a tag whose value or literal bytes are missing. -/
def RleCutOff (z : List Byte) : Prop :=
  (∃ r : BitVec 7, z = [0x80#8 ||| r.setWidth 8]) ∨
    ∃ (m : BitVec 7) (data : List Byte), z = m.setWidth 8 :: data ∧ data.length < m.toNat

end Sys2Proof.Machine
end

