-- ==== Sys2Proof/Certificates/Slice0/Obligations.lean ====
section
/-! DEFINITION. The statements for the provers. Rules R<n> are those of spec/. -/

open Sys2Proof Sys2Proof.Machine

/-! ### Encoding -/

/-- 30_encoding.md R70 to R76, R81: the decoder reads back every well-formed instruction of every
space, all operands, whatever bytes follow. -/
def Obligations.DecodeReadsBackEncoding : Prop :=
  ∀ (i : Instr) (rest : List Byte), i.wellFormed = true →
    decode i.space (encode i ++ rest) = .ok (i, rest)

/-- The other direction: what the decoder reads is well-formed, of that space, and its encoding is
the bytes it was read from, so no two encodings mean one instruction. -/
def Obligations.DecodedBytesAreTheEncoding : Prop :=
  ∀ (sp : Space) (bs rest : List Byte) (i : Instr), decode sp bs = .ok (i, rest) →
    i.wellFormed = true ∧ i.space = sp ∧ bs = encode i ++ rest

/-- Words written out from 30_encoding.md R70, R72, R81 and the examples of R106 to R113, one of each
row. -/
def Obligations.SpecWordsDecode : Prop :=
  decode .operation [0x02#8, 0x0A#8] = .ok (.lit0 2#5, [0x0A#8]) ∧
  decode .operation [0x3F#8] = .ok (.lit1 31#5, []) ∧
  decode .operation [0x43#8, 0x10#8] = .ok (.rep 3#5 0x10#8, []) ∧
  decode .operation [0x64#8, 0x08#8, 0x01#8] = .ok (.copy 4#5 0x0108#16, []) ∧
  decode .operation [0x81#8, 0x05#8, 0x09#8] = .ok (.pair 1#5 5#8 9#8, []) ∧
  decode .operation [0xA2#8] = .ok (.gap 2#5, []) ∧
  decode .operation [0xC9#8, 0x10#8] = .ok (.patu 1#2 1#3 0x10#8, []) ∧
  decode .operation [0xF8#8, 0x01#8] = .ok (.patd 3#2 0#3 1#8, []) ∧
  decode .record [0x00#8, 0x02#8] = .ok (.vgap 2#8, []) ∧
  decode .record [0x03#8, 0x00#8] = .ok (.line 3#8 0#8, []) ∧
  decode .rle [0x85#8, 0x09#8] = .ok (.rleRun 5#7 9#8, []) ∧
  decode .rle [0x03#8, 0x01#8] = .ok (.rleLit 3#7, [1#8])

/-- With its operand bytes there, every first byte decodes, in every space: 30_encoding.md R79 for the
cell byte code; for the RLE tags the encoder never emits (R82: 0x00, 0x80 to 0x82) the spec's decision
D17 (log 17). -/
def Obligations.EveryFirstByteDecodes : Prop :=
  ∀ (sp : Space) (b0 b1 b2 : Byte) (rest : List Byte),
    ∃ i left, decode sp (b0 :: b1 :: b2 :: rest) = .ok (i, left)

/-- 30_encoding.md R85: what the assembler emits for a legal operation decodes to it, with the
count that was asked for. -/
def Obligations.AssembledOperationsDecode : Prop :=
  ∀ (o : AsmOp) (rest : List Byte), o.legal = true →
    match o with
    | .lit bs => ∃ i, decode .operation (o.bytes ++ rest) = .ok (i, bs ++ rest) ∧
        litCount (opcodeByte i) = bs.length
    | .rep n v => ∃ l, decode .operation (o.bytes ++ rest) = .ok (.rep l v, rest) ∧ repCount l = n
    | .copy n back =>
      ∃ l, decode .operation (o.bytes ++ rest) = .ok (.copy l back, rest) ∧ copyCount l = n
    | .pair n a b =>
      ∃ l, decode .operation (o.bytes ++ rest) = .ok (.pair l a b, rest) ∧ pairCount l = n
    | .gap n => ∃ l, decode .operation (o.bytes ++ rest) = .ok (.gap l, rest) ∧ gapCount l = n
    | .patu sel n seed => ∃ ss p, decode .operation (o.bytes ++ rest) = .ok (.patu ss p seed, rest) ∧
        ss.toNat = sel ∧ pattCount p = n
    | .patd sel n seed => ∃ ss p, decode .operation (o.bytes ++ rest) = .ok (.patd ss p seed, rest) ∧
        ss.toNat = sel ∧ pattCount p = n
    | .byte bs => o.bytes = bs

/-! ### The step -/

/-- A step runs the instruction that is due: when the bytes at the cursor decode, step is exec of
that instruction at that very state (exec itself moves the cursor past it). -/
def Obligations.StepRunsDecodedInstruction : Prop :=
  ∀ (s : State) (sp : Space) (i : Instr) (left : List Byte),
    dueSpace s = some sp → decode sp (fetchWindow s) = .ok (i, left) → step s = exec i s

/-- The same for an instruction whose encoding stands at the cursor. -/
def Obligations.StepRunsEncodingAtCursor : Prop :=
  ∀ (s : State) (i : Instr),
    i.wellFormed = true → dueSpace s = some i.space → AtCursor s (encode i) → step s = exec i s

/-- 60_exceptions.md R138, 45_rle_and_output.md R130: a fetch that the end of the buffer cuts off
ends the cell as MalformedCell, or the RLE decode as BoundsError, the latter by the spec's decision D17
(log 17); that it empties `OUT` is the model's choice (log 19). -/
def Obligations.CutOffFetchEndsTheOperation : Prop :=
  ∀ (s : State) (sp : Space) (r : Reject),
    dueSpace s = some sp → decode sp (fetchWindow s) = .error r →
      s.cur.buf.len < s.cur.pos + 3 ∧
      ∃ t, step s = .next t ∧ (sp ≠ .rle → CellFails s t) ∧ (sp = .rle → RleFails s t)

/-! ### The operations of a line record -/

/-- 42_cell_opcodes.md R106, R107: LIT0 and LIT1 emit `min(op + 1, line_end - pos)` stream bytes, the
count taken from the whole opcode byte, and nothing but the decoder's registers changes, of the latches
`op` alone (R37, R105); when the buffer ends first the cell is malformed. -/
def Obligations.LiteralRunsEmitStreamBytes : Prop :=
  ∀ (n : BitVec 5) (i : Instr) (op : Byte) (s : State),
    (i = .lit0 n ∧ op.toNat = n.toNat) ∨ (i = .lit1 n ∧ op.toNat = 32 + n.toNat) →
    let count := min (op.toNat + 1) (s.lineEnd - (s.cur.pos + 1))
    encode i = [op] ∧
    (s.cur.pos + 1 + count ≤ s.cur.buf.len →
      ∃ t, exec i s = .next t ∧ OnlyOperationRegs s t ∧ t.cur.pos = s.cur.pos + 1 + count ∧
        t.lat = { s.lat with op := op } ∧
        Draws s t count (fun j => s.cur.buf.read (s.cur.pos + 1 + j))) ∧
    (s.cur.buf.len < s.cur.pos + 1 + count → ∃ t, exec i s = .next t ∧ CellFails s t)

/-- 42_cell_opcodes.md R108: REP emits `len5 + 3` pixels of `v`; without its value byte the
cell is malformed. -/
def Obligations.RepEmitsItsValue : Prop :=
  ∀ (len5 : BitVec 5) (v : Byte) (s : State),
    encode (.rep len5 v) = [0b010#3 ++ len5, v] ∧
    (s.cur.pos + 2 ≤ s.cur.buf.len →
      ∃ t, exec (.rep len5 v) s = .next t ∧ OnlyOperationRegs s t ∧ t.cur.pos = s.cur.pos + 2 ∧
        t.lat = { s.lat with op := 0b010#3 ++ len5, v := v } ∧
        Draws s t (len5.toNat + 3) (fun _ => v)) ∧
    (s.cur.buf.len < s.cur.pos + 2 → ∃ t, exec (.rep len5 v) s = .next t ∧ CellFails s t)

/-- 42_cell_opcodes.md R109: COPY emits the `len5 + 4` bytes of the input buffer at `P - back`, `P`
the position after the field, and leaves the cursor at `P`; a source outside the buffer makes the
cell malformed. -/
def Obligations.CopyEmitsBufferBytes : Prop :=
  ∀ (len5 : BitVec 5) (back : Half) (s : State),
    let p := s.cur.pos + 3
    let n := len5.toNat + 4
    (∃ lo hi : Byte, encode (.copy len5 back) = [0b011#3 ++ len5, lo, hi] ∧
      back.toNat = lo.toNat + 256 * hi.toNat) ∧
    (p ≤ s.cur.buf.len → back.toNat ≤ p → p - back.toNat + n ≤ s.cur.buf.len →
      ∃ t, exec (.copy len5 back) s = .next t ∧ OnlyOperationRegs s t ∧ t.cur.pos = p ∧
        t.lat = { s.lat with op := 0b011#3 ++ len5, back := back, retPos := p } ∧
        Draws s t n (fun j => s.cur.buf.read (p - back.toNat + j))) ∧
    (s.cur.buf.len < p ∨ p < back.toNat ∨ s.cur.buf.len < p - back.toNat + n →
      ∃ t, exec (.copy len5 back) s = .next t ∧ CellFails s t)

/-- 42_cell_opcodes.md R110: PAIR emits `2*(len5 + 2)` pixels, `a` first. -/
def Obligations.PairEmitsAlternating : Prop :=
  ∀ (len5 : BitVec 5) (a b : Byte) (s : State),
    encode (.pair len5 a b) = [0b100#3 ++ len5, a, b] ∧
    (s.cur.pos + 3 ≤ s.cur.buf.len →
      ∃ t, exec (.pair len5 a b) s = .next t ∧ OnlyOperationRegs s t ∧ t.cur.pos = s.cur.pos + 3 ∧
        t.lat = { s.lat with op := 0b100#3 ++ len5, a := a, b := b } ∧
        Draws s t (2 * (len5.toNat + 2)) (fun j => if j % 2 = 0 then a else b)) ∧
    (s.cur.buf.len < s.cur.pos + 3 → ∃ t, exec (.pair len5 a b) s = .next t ∧ CellFails s t)

/-- 42_cell_opcodes.md R111: GAP moves the draw position by `len5 + 1` and draws nothing. R111 has no
fault; that exec raises where even the opcode byte lies outside the buffer is the model's own, from the
bytes of a layout being read by the meaning (log 10). -/
def Obligations.GapSkipsColumns : Prop :=
  ∀ (len5 : BitVec 5) (s : State),
    encode (.gap len5) = [0b101#3 ++ len5] ∧
    (s.cur.pos + 1 ≤ s.cur.buf.len →
      exec (.gap len5) s = .next { s with
        cur := { s.cur with pos := s.cur.pos + 1 }
        drawX := s.drawX + (len5.toNat + 1)
        lat := { s.lat with op := 0b101#3 ++ len5 } }) ∧
    (s.cur.buf.len < s.cur.pos + 1 → ∃ t, exec (.gap len5) s = .next t ∧ CellFails s t)

/-- 42_cell_opcodes.md R112, R113: PATU (`sel` 0 to 3) and PATD (`sel` 4 to 7) emit `patt_len + 3`
pixels; pixel `j` is the seed with `ceil(j/2)` steps of index `2*sel` and `floor(j/2)` of index
`2*sel + 1`, modulo 256, whatever the step table. Nothing is said of the latches `val` and `i` at
the end (log 22). The closed form is the spec's own inference (R112, marked derived). -/
def Obligations.PatternFillsFollowStepTable : Prop :=
  ∀ (ss : BitVec 2) (pattLen : BitVec 3) (seed : Byte) (i : Instr) (op : Byte) (sel : Nat)
    (s : State),
    (i = .patu ss pattLen seed ∧ op = 0b110#3 ++ ss ++ pattLen ∧ sel = ss.toNat) ∨
      (i = .patd ss pattLen seed ∧ op = 0b111#3 ++ ss ++ pattLen ∧ sel = 4 + ss.toNat) →
    let stepAt := fun k => s.cfg.patternSteps.toList.getD k 0
    encode i = [op, seed] ∧
    (s.cur.pos + 2 ≤ s.cur.buf.len →
      ∃ t, exec i s = .next t ∧ OnlyOperationRegs s t ∧ t.cur.pos = s.cur.pos + 2 ∧
        t.lat = { s.lat with op := op, val := t.lat.val, i := t.lat.i } ∧
        Draws s t (pattLen.toNat + 3) (fun j =>
          BitVec.ofInt 8 ((seed.toNat : Int) + ((j + 1) / 2 : Nat) * stepAt (2 * sel) +
            (j / 2 : Nat) * stepAt (2 * sel + 1)))) ∧
    (s.cur.buf.len < s.cur.pos + 2 → ∃ t, exec i s = .next t ∧ CellFails s t)

/-- 42_cell_opcodes.md R105: an operation of an open line record changes only `pos`, `draw_x`, `ROW`
and its own latches (R37), or ends the cell as malformed; which of the two, and the effect, depend
neither on a frame nor on the latches earlier operations left. -/
def Obligations.OperationsTouchOnlyDecoderRegisters : Prop :=
  ∀ (i : Instr) (s : State), i.space = .operation → s.phase = .ops →
    let other := fun (r : State) (f g h : Option Frame) (l : Latches) =>
      { r with canvas := f, frame := g, callerFrame := h, lat := l }
    ∃ t, exec i s = .next t ∧
      ((CellFails s t ∧ ∀ f g h l, ∃ u, exec i (other s f g h l) = .next u ∧
          CellFails (other s f g h l) u) ∨
        (OnlyOperationRegs s t ∧ OwnLatches i s.lat t.lat ∧
          ∀ f g h l, ∃ l', OwnLatches i l l' ∧ exec i (other s f g h l) = .next (other t f g h l')))

/-- 41_cell_decoder.md R98: `Emit(v)`, which is `emitAll [v]`, keeps a pixel in the row exactly when
the draw position lies in it, and always advances; what the operations draw with, `emitAll`, is one
`Emit` after another. -/
def Obligations.EmitKeepsOrDrops : Prop :=
  ∀ (v : Byte) (s : State),
    (emitAll [v] s = { s with row := (emitAll [v] s).row, drawX := s.drawX + 1 } ∧
      ∀ c, sampleAt (emitAll [v] s).row c =
        if c = s.drawX ∧ s.drawX < s.hdr.width.toNat then .Px v else sampleAt s.row c) ∧
    ∀ vs, emitAll (v :: vs) s = emitAll vs (emitAll [v] s)

/-! ### Records and the sequencing of a cell -/

/-- 41_cell_decoder.md R95, with D10: VGAP moves `dest_y` by `skip_count + 1`, counts that many lines
(one or none under the alternative settings of `GAP_LINES`) and draws nothing. What a gap counts is
the spec's decision D10 (logs 4, 17). The 0 in `line_length` is the byte R92's loop has read. -/
def Obligations.GapRecordSkipsRows : Prop :=
  ∀ (skipCount : Byte) (s : State),
    encode (.vgap skipCount) = [0x00#8, skipCount] ∧
    (s.cur.pos + 2 ≤ s.cur.buf.len →
      exec (.vgap skipCount) s = .next { s with
        cur := { s.cur with pos := s.cur.pos + 2 }
        lineLength := 0
        destY := s.destY + skipCount.toNat + 1
        linesDone := s.linesDone +
          match s.cfg.gapLines with
          | .rows => skipCount.toNat + 1
          | .one => 1
          | .none => 0 }) ∧
    (s.cur.buf.len < s.cur.pos + 2 → ∃ t, exec (.vgap skipCount) s = .next t ∧ CellFails s t)

/-- 41_cell_decoder.md R96, its opening: LINE sets the budget and the draw position and clears the
row; then the operation loop runs. That the opening is a step of its own is the model's cut (log 9). -/
def Obligations.LineRecordOpens : Prop :=
  ∀ (lineLength xStart : Byte) (s : State),
    encode (.line lineLength xStart) = [lineLength, xStart] ∧
    (s.cur.pos + 2 ≤ s.cur.buf.len →
      ∃ t, exec (.line lineLength xStart) s = .next t ∧
        t = { s with
          cur := { s.cur with pos := s.cur.pos + 2 }
          lineLength := lineLength
          lineStart := s.cur.pos + 1
          lineEnd := s.cur.pos + 1 + lineLength.toNat
          row := t.row
          drawX := xStart.toNat
          phase := .ops } ∧
        ∀ c, sampleAt t.row c = .T) ∧
    (s.cur.buf.len < s.cur.pos + 2 →
      ∃ t, exec (.line lineLength xStart) s = .next t ∧ CellFails s t)

/-- 41_cell_decoder.md R101, and the end of R96: when the budget is consumed the row is blitted at
`dest_y`, opaque samples only, clipped to the frame, and one scanline is done. -/
def Obligations.LineRecordEndsWithBlit : Prop :=
  ∀ (s : State) (f : Frame), s.phase = .ops → s.lineEnd ≤ s.cur.pos → s.canvas = some f →
    ∃ g, step s = .next { s with
        canvas := some g
        destY := s.destY + 1
        linesDone := s.linesDone + 1
        phase := .record } ∧
      g.w = f.w ∧ g.h = f.h ∧
      ∀ x y, x < f.w → y < f.h →
        g.sample x y =
          if y = s.destY ∧ s.hdr.xOffset.toNat ≤ x ∧
              x - s.hdr.xOffset.toNat < s.hdr.width.toNat ∧
              sampleAt s.row (x - s.hdr.xOffset.toNat) ≠ .T then
            sampleAt s.row (x - s.hdr.xOffset.toNat)
          else f.sample x y

/-- 41_cell_decoder.md R93: the next cell's header is read at its offset, four little-endian 16-bit
fields, and the scanline loop starts after it; a header outside the buffer makes the cell
malformed. -/
def Obligations.CellStartsWithHeaderRead : Prop :=
  ∀ (s : State) (off : Nat) (rest : List Nat) (f : Frame),
    s.phase = .cellStart → s.pending = off :: rest → s.canvas = some f →
    let u16At := fun a => u16le (s.cur.buf.read a) (s.cur.buf.read (a + 1))
    (off + 8 ≤ s.cur.buf.len →
      step s = .next { s with
        cellOffset := off
        pending := rest
        cur := { s.cur with pos := off + 8 }
        hdr := { xOffset := u16At off, width := u16At (off + 2), yOffset := u16At (off + 4),
                 height := u16At (off + 6) }
        destY := (u16At (off + 4)).toNat
        linesDone := 0
        phase := .record }) ∧
    (s.cur.buf.len < off + 8 →
      ∃ t, step s = .next t ∧ CellFails { s with cellOffset := off, pending := rest } t)

/-- 41_cell_decoder.md R94, R102: with `lines_done >= height` the cell ends without a read, and with
no cell left the operation completes: `decode_frame` returns its frame (R118), a bare `decode_cell`
has updated the caller's (R92). That these are two registers, and that what was returned is recorded,
is the model's choice (logs 14, 19); nothing is said of the registers that are dead after the
operation (log 11). -/
def Obligations.FinishedCellReadsNoMore : Prop :=
  (∀ s : State, s.phase = .record → s.hdr.height.toNat ≤ s.linesDone →
    step s = .next { s with phase := .cellStart }) ∧
  (∀ s : State, s.phase = .cellStart → s.pending = [] →
    ∃ t, step s = .next t ∧ t = { s.withCellRegs t with
      phase := .idle
      status := .ok
      frame := if s.bare then s.frame else s.canvas
      callerFrame := if s.bare then s.canvas else s.callerFrame
      returnedFrames :=
        if s.bare then s.returnedFrames else s.canvas.toList ++ s.returnedFrames })

/-! ### RLE records -/

/-- 45_rle_and_output.md R127, R130: RLE.RUN appends `r` copies of its value to `OUT`. For `r` of 0 to 2
and for a record that is cut off this is the spec's decision D17 (log 17); that the failure empties
`OUT` is the model's choice (log 19). -/
def Obligations.RleRunAppendsCopies : Prop :=
  ∀ (r : BitVec 7) (value : Byte) (s : State),
    encode (.rleRun r value) = [0x80#8 ||| r.setWidth 8, value] ∧
    (s.cur.pos + 2 ≤ s.cur.buf.len →
      exec (.rleRun r value) s = .next { s with
        cur := { s.cur with pos := s.cur.pos + 2 }
        out := s.out ++ List.replicate r.toNat value }) ∧
    (s.cur.buf.len < s.cur.pos + 2 → ∃ t, exec (.rleRun r value) s = .next t ∧ RleFails s t)

/-- 45_rle_and_output.md R128, R130: RLE.LIT appends the `m` bytes after its tag to `OUT`. For `m = 0`
and for a record that is cut off this is the spec's decision D17 (log 17); that the failure empties
`OUT` is the model's choice (log 19). -/
def Obligations.RleLiteralAppendsBytes : Prop :=
  ∀ (m : BitVec 7) (s : State),
    encode (.rleLit m) = [m.setWidth 8] ∧
    (s.cur.pos + 1 + m.toNat ≤ s.cur.buf.len →
      exec (.rleLit m) s = .next { s with
        cur := { s.cur with pos := s.cur.pos + 1 + m.toNat }
        out := s.out ++ (List.range m.toNat).map (fun j => s.cur.buf.read (s.cur.pos + 1 + j)) }) ∧
    (s.cur.buf.len < s.cur.pos + 1 + m.toNat →
      ∃ t, exec (.rleLit m) s = .next t ∧ RleFails s t)

/-! ### Cursor primitives -/

/-- 20_memory.md R48: a seek moves to `base + offset` when that lies in `[0, LEN]` and raises
BoundsError with the target otherwise. The sum is the spec's decision D13 (log 17). -/
def Obligations.SeekMovesOrRaises : Prop :=
  ∀ (c : Cursor) (origin : Origin) (offset : Int),
    let base : Int := match origin with
      | .start => 0
      | .current => c.pos
      | .fromEnd => c.buf.len
    (0 ≤ base + offset → base + offset ≤ c.buf.len →
      ∃ p : Nat, (p : Int) = base + offset ∧ c.seek origin offset = .ok { c with pos := p }) ∧
    (base + offset < 0 ∨ (c.buf.len : Int) < base + offset →
      c.seek origin offset = .error (.seek (base + offset)))

/-- 20_memory.md R50: a read delivers exactly `n` bytes and moves past them, or raises BoundsError
and moves nothing, the latter by the spec's decision D13 (log 17). -/
def Obligations.ReadIsAllOrNothing : Prop :=
  ∀ (c : Cursor) (n : Nat),
    (c.pos + n ≤ c.buf.len →
      ∃ bs, c.read n = .ok (bs, { c with pos := c.pos + n }) ∧ bs.length = n ∧
        ∀ k, k < n → bs.getD k 0 = c.buf.read (c.pos + k)) ∧
    (c.buf.len < c.pos + n → c.read n = .error (.read c.pos n))

/-- 20_memory.md R51, R52: CurU8 reads one byte; CurU16 is one read of two bytes, the first the less
significant, and consumes nothing when only one remains (R52's own inference). -/
def Obligations.NarrowReadsAreLittleEndian : Prop :=
  ∀ c : Cursor,
    (c.pos + 1 ≤ c.buf.len → c.u8 = .ok (c.buf.read c.pos, { c with pos := c.pos + 1 })) ∧
    (c.buf.len < c.pos + 1 → c.u8 = .error (.read c.pos 1)) ∧
    (c.pos + 2 ≤ c.buf.len →
      ∃ v : Half, c.u16 = .ok (v, { c with pos := c.pos + 2 }) ∧
        v.toNat = (c.buf.read c.pos).toNat + 256 * (c.buf.read (c.pos + 1)).toNat) ∧
    (c.buf.len < c.pos + 2 → c.u16 = .error (.read c.pos 2))

/-- 20_memory.md R53: after every primitive that completes the position lies in `[0, LEN]` and the
buffer is the same; one that raises answers no cursor, so the old one stands. -/
def Obligations.PrimitivesKeepCursorInBuffer : Prop :=
  ∀ c c' : Cursor, c.pos ≤ c.buf.len →
    ((∃ o d, c.seek o d = .ok c') ∨ (∃ n bs, c.read n = .ok (bs, c')) ∨
      (∃ v, c.u8 = .ok (v, c')) ∨ (∃ v, c.u16 = .ok (v, c'))) →
    c'.pos ≤ c'.buf.len ∧ c'.buf = c.buf

/-! ### Sprite Index -/

/-- 40_sprite_index.md R87: one parsing attempt over any byte sequence. The order of its tests is the
spec's decision D19 (log 17). -/
def Obligations.AttemptClassifiesBuffer : Prop :=
  ∀ bs : List Byte,
    let u16At := fun a => u16le (bs.getD a 0) (bs.getD (a + 1) 0)
    let count := (u16At 0).toNat
    (bs.length < 2 → attempt (Memory.ofBytes bs) = .truncated) ∧
    (2 ≤ bs.length → count = 0 ∨ 0x0800 ≤ count → attempt (Memory.ofBytes bs) = .implausible) ∧
    (2 ≤ bs.length → 1 ≤ count → count < 0x0800 → bs.length < count * 4 + 2 →
      attempt (Memory.ofBytes bs) = .truncated) ∧
    (2 ≤ bs.length → 1 ≤ count → count < 0x0800 → count * 4 + 2 ≤ bs.length →
      ∃ entries c,
        attempt (Memory.ofBytes bs) =
          .ok { wbuf := Memory.ofBytes bs, count := u16At 0, entries := entries } c ∧
        entries.length = count ∧
        ∀ k, k < count → entries[k]? =
          some { offset1 := u16At (2 + 4 * k), offset2 := u16At (4 + 4 * k) })

/-- 40_sprite_index.md R88: `parse` takes the first attempt's index; an implausible count, and
nothing else, is retried once over the buffer XORed with 0x35 in every byte, whose index is marked
low-confidence and whose buffer is the working buffer; failures leave no index. The working buffer
and the name IndexRejected are the spec's decisions D9 and D20 (log 17); `low_confidence` after a
failure is free (log 13). Nothing is said of the cursor. -/
def Obligations.ParseRetriesOnceOnImplausible : Prop :=
  ∀ (s : State) (bytes : List Byte) (rest : List HostOp), Requested s (.parse bytes) rest →
    let first := attempt (Memory.ofBytes bytes)
    let second := attempt (Memory.ofBytes (bytes.map (· ^^^ 0x35#8)))
    let done := fun (t : State) (ix : SpriteIndex) (low : Bool) =>
      t = { s with
        requests := rest
        buf := Memory.ofBytes bytes
        index := some ix
        cur := t.cur
        lowConfidence := low
        status := .ok }
    let failed := fun (t : State) (e : Status) =>
      t = { s with
        requests := rest
        buf := Memory.ofBytes bytes
        index := none
        lowConfidence := t.lowConfidence
        freeCount := t.freeCount
        cur := t.cur
        pending := []
        status := e }
    ∃ t, step s = .next t ∧
      (∀ ix c, first = .ok ix c → done t ix false) ∧
      (first = .truncated → failed t .truncatedIndex) ∧
      (first = .implausible →
        (∀ ix c, second = .ok ix c → done t ix true) ∧
        (second = .truncated → failed t .truncatedIndex) ∧
        (second = .implausible → failed t .indexRejected))

/-- 40_sprite_index.md R89: when the XORed buffer's count has a high byte of 0x00 to 0x07, the
buffer's own count is that count XOR 0x3535, at least 0x3000 and implausible; so an enciphered
resource with a valid index is never accepted on the first attempt. The spec's own inference. -/
def Obligations.EncipheredIndexIsImplausible : Prop :=
  ∀ bytes : List Byte,
    let xored := bytes.map (· ^^^ 0x35#8)
    let countOf := fun bs : List Byte => u16le (bs.getD 0 0) (bs.getD 1 0)
    (2 ≤ bytes.length → (countOf xored).toNat < 0x0800 →
      countOf bytes = countOf xored ^^^ 0x3535#16 ∧ 0x3000 ≤ (countOf bytes).toNat ∧
        attempt (Memory.ofBytes bytes) = .implausible) ∧
    ∀ ix c, attempt (Memory.ofBytes xored) = .ok ix c →
      attempt (Memory.ofBytes bytes) = .implausible

/-- 40_sprite_index.md R90: lookup answers entry `i` for `0 <= i < count` and nothing else. -/
def Obligations.LookupIsByFrameNumber : Prop :=
  ∀ (ix : SpriteIndex) (i : Int), IndexWf ix →
    (0 ≤ i → i < ix.count.toNat → ∃ e, lookup ix i = some e ∧ ix.entries[i.toNat]? = some e) ∧
    (i < 0 ∨ (ix.count.toNat : Int) ≤ i → lookup ix i = none)

/-! ### Frame Compositor -/

/-- 43_frame_compositor.md R117: the bounds are the larger extents of the present cells, at least 1
by 1, without wrap; an unreadable header raises BoundsError under its own name (the spec's decision
D22, log 17) and leaves no bounds (log 19). Nothing is said of the cursor. -/
def Obligations.FrameBoundsCoverTheCells : Prop :=
  ∀ (s : State) (e : Entry) (rest : List HostOp) (ix : SpriteIndex),
    Requested s (.getFrameBounds e) rest → s.index = some ix →
    (EntryReadable ix.wbuf e →
      ∃ c, step s = .next { s with
        requests := rest
        bounds := some (entryExtent ix.wbuf e)
        cur := c
        status := .ok }) ∧
    (¬ EntryReadable ix.wbuf e →
      ∃ info c, step s = .next { s with
        requests := rest
        bounds := none
        cur := c
        pending := []
        status := .boundsError info })

/-- 43_frame_compositor.md R118 up to the first cell, R121, 60_exceptions.md R139, R143:
`decode_frame` looks the frame number up, then reads the bounds, then allocates a transparent frame
of that size and queues cell 1 before cell 2; a frame beyond the store's limits is refused. The name
BoundsError and the refusal are the spec's decisions D22 and D23, the position 0 of the new cursor its
decision D8 (log 17); nothing is said of the cursor after an error.
41_cell_decoder.md R92: a bare `decode_cell` takes the working buffer and the caller's frame, held or
handed in (log 14), and its one cell. -/
def Obligations.DecodesSetUpTheirFrames : Prop :=
  (∀ (s : State) (i : Int) (rest : List HostOp) (ix : SpriteIndex),
    Requested s (.decodeFrame i) rest → s.index = some ix →
    (lookup ix i = none →
      ∃ c, step s = .next { s with
        requests := rest, frame := none, cur := c, pending := [], status := .unsupportedFrame i }) ∧
    ∀ e, lookup ix i = some e →
      (¬ EntryReadable ix.wbuf e →
        ∃ info c, step s = .next { s with
          requests := rest, frame := none, cur := c, pending := [], status := .boundsError info }) ∧
      (EntryReadable ix.wbuf e →
        let size := entryExtent ix.wbuf e
        ((∀ m, s.cfg.frameMaxW = some m → size.1 ≤ m) ∧
            (∀ m, s.cfg.frameMaxH = some m → size.2 ≤ m) →
          step s = .next { s with
            requests := rest
            canvas := some { w := size.1, h := size.2, cells := [] }
            pending := (if e.offset1 ≠ 0 then [e.offset1.toNat] else []) ++
              (if e.offset2 ≠ 0 then [e.offset2.toNat] else [])
            bare := false
            cur := { buf := ix.wbuf, pos := 0 }
            phase := .cellStart }) ∧
        ((∃ m, s.cfg.frameMaxW = some m ∧ m < size.1) ∨
            (∃ m, s.cfg.frameMaxH = some m ∧ m < size.2) →
          step s = .refused .frameTooLarge))) ∧
  ∀ (s : State) (b : BufferArg) (off : Nat) (fr : FrameArg) (rest : List HostOp) (m : Memory)
    (w h : Nat) (sm : Nat → Sample),
    Requested s (.decodeCell b off fr) rest → BufferOperand s b m →
    CallerFrameOperand s fr w h sm →
    ∃ f, step s = .next { s with
        requests := rest
        canvas := some f
        pending := [off]
        bare := true
        cur := { buf := m, pos := 0 }
        phase := .cellStart } ∧
      f.w = w ∧ f.h = h ∧ ∀ a, sampleAt f.cells a = sm a

/-- 43_frame_compositor.md R119: when a `decode_frame(i)` completes, at its first return to idle, the
frame it leaves has the bounds of entry `i`. -/
def Obligations.DecodedFrameHasItsBounds : Prop :=
  ∀ (n : Nat) (s t : State) (i : Int) (rest : List HostOp) (ix : SpriteIndex),
    Requested s (.decodeFrame i) rest → s.index = some ix →
    0 < n → Reaches n s t → t.phase = .idle → t.status = .ok →
    (∀ k u, 0 < k → k < n → Reaches k s u → u.phase ≠ .idle) →
    ∃ e f, lookup ix i = some e ∧ EntryReadable ix.wbuf e ∧
      t.frame = some f ∧ (f.w, f.h) = entryExtent ix.wbuf e

/-- 43_frame_compositor.md R120, the invariant: with gaps counted as rows, every cell a
`decode_frame` draws lies inside its frame, and `dest_y` is `y_offset + lines_done`. -/
def Obligations.DecodeFrameCellsStayInside : Prop :=
  ∀ s t : State, s.CellsFit → step s = .next t → t.CellsFit

/-- 43_frame_compositor.md R120: under that invariant the blit of a `decode_frame` clips nothing. -/
def Obligations.DecodeFrameBlitClipsNothing : Prop :=
  ∀ (s : State) (c : Nat), s.CellsFit → s.bare = false → s.cfg.gapLines = .rows → s.phase = .ops →
    c < s.hdr.width.toNat →
    ∃ f, s.canvas = some f ∧ s.hdr.xOffset.toNat + c < f.w ∧ s.destY < f.h

/-! ### Bitplane Encoder -/

/-- 44_bitplane_encoder.md R122: `to_chunky` resolves `T` to 0 and keeps every palette index,
row-major. 70_reset_and_hazards.md R156: for a frame a `decode_frame` returned; that an earlier one is
named by handing its samples in is the model's choice (log 14). -/
def Obligations.ChunkyResolvesTransparency : Prop :=
  ∀ (s : State) (fr : FrameArg) (w h : Nat) (sm : Nat → Sample) (rest : List HostOp),
    Requested s (.toChunky fr) rest → ReturnedFrameOperand s fr w h sm →
    ∃ c, step s = .next { s with requests := rest, chunky := some c, status := .ok } ∧
      c.w = w ∧ c.h = h ∧ c.px.len = w * h ∧
      ∀ x y, x < w → y < h →
        c.px.read (y * w + x) = match sm (y * w + x) with
          | .T => 0x00#8
          | .Px v => v

/-- 44_bitplane_encoder.md R123: bit `p` of pixel `x` goes to plane `p`, byte `x/8` of its row, bit
`x mod 8` from the least or, with `PLANE_BIT_MSB_FIRST`, from the most significant end; pad bits are
0. The pixels are the held chunky buffer's or handed in, bytes or samples without `T`, and the planes
made are recorded (logs 14, 23). -/
def Obligations.PlaneBitsArePixelBits : Prop :=
  ∀ (s : State) (arg : PixelArg) (w h : Nat) (px : Nat → Byte) (planeCount : Nat)
    (rest : List HostOp),
    Requested s (.toPlanes arg planeCount) rest → PixelOperand s arg w h px →
    let rowb := (w + 7) / 8
    ∃ pl, step s = .next { s with
        requests := rest
        planes := some pl
        returnedPlanes := pl :: s.returnedPlanes
        status := .ok } ∧
      pl.w = w ∧ pl.h = h ∧ pl.planes.length = planeCount ∧
      ∀ p m, pl.planes[p]? = some m →
        m.len = rowb * h ∧
        ∀ y k j, y < h → k < rowb → j < 8 →
          (m.read (y * rowb + k)).getLsbD (if s.cfg.planeBitMsbFirst then 7 - j else j) =
            (decide (8 * k + j < w) && (px (y * w + (8 * k + j))).getLsbD p)

/-- 44_bitplane_encoder.md R124: `interleave` puts byte `k` of row `y` of plane `p` at
`(y*P + p)*ROWB + k`. 70_reset_and_hazards.md R156, R164: for planes a `to_planes` made, in any
choice and order and with any `W` and `H` of their size; that they are named by handing their bytes in is
the model's choice (log 14). -/
def Obligations.InterleaveIsRowMajor : Prop :=
  ∀ (s : State) (arg : PlanesArg) (pl : Planes) (rest : List HostOp),
    Requested s (.interleave arg) rest → PlanesOperand s arg pl →
    let rowb := (pl.w + 7) / 8
    ∃ il, step s = .next { s with requests := rest, out := il, status := .ok } ∧
      il.length = pl.planes.length * rowb * pl.h ∧
      ∀ y p k m, y < pl.h → k < rowb → pl.planes[p]? = some m →
        il[(y * pl.planes.length + p) * rowb + k]? = some (m.read (y * rowb + k))

/-- 44_bitplane_encoder.md R125: plane `p` depends only on bit `p` of the pixels, and fewer planes
are a prefix of more. The spec's own inference from R123. -/
def Obligations.PlanesAreIndependent : Prop :=
  (∀ (msb : Bool) (c d : Chunky) (p : Nat), c.w = d.w → c.h = d.h →
    (∀ a, (c.px.read a).getLsbD p = (d.px.read a).getLsbD p) → planeOf msb c p = planeOf msb d p) ∧
  (∀ (msb : Bool) (c : Chunky) (m n : Nat), m ≤ n →
    (planesOf msb c m).planes = (planesOf msb c n).planes.take m)

/-- 45_rle_and_output.md R129: a started `rle_compress` of any sequence, of a held plane or of `OUT`
ends with OK and `OUT` is the canonical encoding (its segmentation is the spec's decision D25, log 17);
no other result register changes. -/
def Obligations.CompressRunsToCanonicalEncoding : Prop :=
  ∀ (s : State) (arg : ByteArg) (x : List Byte) (rest : List HostOp),
    Requested s (.rleCompress arg) rest → BytesOperand s arg x →
    ∃ n t, 0 < n ∧ Reaches n s t ∧ t.phase = .idle ∧ t.status = .ok ∧ t.out = rleCompress x ∧
      t.requests = rest ∧ t.index = s.index ∧ t.frame = s.frame ∧ t.callerFrame = s.callerFrame ∧
      t.chunky = s.chunky ∧ t.planes = s.planes ∧ t.bounds = s.bounds ∧ t.buf = s.buf

/-- 45_rle_and_output.md R131: decoding what `rle_compress` made gives the input back, for every
byte sequence, and raises nothing. -/
def Obligations.RleRoundTripReproducesInput : Prop :=
  ∀ (s : State) (x : List Byte) (rest : List HostOp),
    s.phase = .idle → s.requests = .rleCompress (.bytes x) :: .rleDecode .out :: rest →
    ∃ n t, Reaches n s t ∧ t.phase = .idle ∧ t.status = .ok ∧ t.requests = rest ∧ t.out = x

/-- 45_rle_and_output.md R132: the size bounds of the canonical encoder; some outputs are longer
than their input. The spec's own inference from R129 and its decision D25 (log 17). -/
def Obligations.CompressedSizeIsBounded : Prop :=
  (∀ x : List Byte,
    (rleCompress x).length ≤ x.length + (x.length + 126) / 127 ∧
      2 * ((x.length + 126) / 127) ≤ (rleCompress x).length) ∧
  ∃ x : List Byte, x.length < (rleCompress x).length

/-- 30_encoding.md R81, R82: the encoder's output is a sequence of runs of 3 to 127 and literal
blocks of 1 to 127; the tags 0x00, 0x80, 0x81, 0x82 never start a record. -/
def Obligations.CompressorEmitsLegalRecords : Prop :=
  ∀ x : List Byte, ∃ records : List (Instr × List Byte),
    rleCompress x = records.flatMap (fun r => encode r.1 ++ r.2) ∧
    ∀ r ∈ records, r.1.emitted = true ∧
      ((∃ n v, r.1 = .rleRun n v ∧ r.2 = []) ∨ (∃ m, r.1 = .rleLit m ∧ r.2.length = m.toNat))

/-- 45_rle_and_output.md R133, 30_encoding.md R83: the three payload modes after a header of four
little-endian 32-bit fields; a field of 2^32 or more is refused. `payload_size` and the refusal are the
spec's decision D26 (log 17). The planes are ones a `to_planes` made (R156, R164), the held
list or any handed in, with any `W` and `H` of their size (log 14). Nothing is said of the working registers of the `rle_compress` inside (log 25). -/
def Obligations.BitplaneFileHasItsLayout : Prop :=
  (∀ v, v < 2 ^ 32 → ∃ b0 b1 b2 b3 : Byte, le32 v = [b0, b1, b2, b3] ∧
    v = b0.toNat + 2 ^ 8 * b1.toNat + 2 ^ 16 * b2.toNat + 2 ^ 24 * b3.toNat) ∧
  ∀ (s : State) (arg : PlanesArg) (pl : Planes) (mode : FileMode) (rest : List HostOp),
    Requested s (.writeBitplaneFile arg mode) rest → PlanesOperand s arg pl →
    let blocks := pl.planes.map fun m => rleCompress m.toBytes
    let payload := match mode with
      | .raw => (pl.planes.map Memory.toBytes).flatten
      | .interleaved => interleaveOf pl
      | .rle => (blocks.map fun b => le32 b.length ++ b).flatten
    let payloadSize := match mode with
      | .raw => payload.length
      | .interleaved => payload.length
      | .rle => (blocks.map List.length).sum
    let fits := pl.w < 2 ^ 32 ∧ pl.h < 2 ^ 32 ∧ pl.planes.length < 2 ^ 32 ∧ payloadSize < 2 ^ 32
    (fits → ∃ g, step s = .next { s with
      requests := rest
      out := le32 pl.w ++ le32 pl.h ++ le32 pl.planes.length ++ le32 payloadSize ++ payload
      rle := g
      status := .ok }) ∧
    (¬ fits → step s = .refused .fieldOver32Bits)

/-! ### The whole machine -/

/-- 70_reset_and_hazards.md R156, 42_cell_opcodes.md R116, 44_bitplane_encoder.md R123: an operation
started without what it needs is refused: a held operand that is not there, a frame handed in that no
`decode_frame` returned, planes handed in before any `to_planes` or with one that none made (R164;
log 14). That a refusal is a step's answer of
its own name, after which the run goes no further, is the model's form of it (log 15). -/
def Obligations.RefusedWithoutPrerequisite : Prop :=
  ∀ (s : State) (op : HostOp) (rest : List HostOp), Requested s op rest →
    (s.index = none →
      (∀ e, op = .getFrameBounds e → step s = .refused .noIndex) ∧
      (∀ i, op = .decodeFrame i → step s = .refused .noIndex) ∧
      (∀ off fr, op = .decodeCell .held off fr → step s = .refused .noWorkingBuffer)) ∧
    (s.callerFrame = none →
      (∀ bytes off, op = .decodeCell (.given bytes) off .held → step s = .refused .noFrame) ∧
      (∀ off, s.index ≠ none → op = .decodeCell .held off .held → step s = .refused .noFrame)) ∧
    (s.frame = none → op = .toChunky .held → step s = .refused .noFrame) ∧
    (s.chunky = none → ∀ n, op = .toPlanes .held n → step s = .refused .noChunky) ∧
    (s.planes = none →
      (op = .interleave .held → step s = .refused .noPlanes) ∧
      (∀ p, op = .rleCompress (.plane p) → step s = .refused .noPlanes) ∧
      (∀ mode, op = .writeBitplaneFile .held mode → step s = .refused .noPlanes)) ∧
    (∀ w h samples, op = .toChunky (.given w h samples) → samples.length = w * h →
      (∀ f ∈ s.returnedFrames, (f.w, f.h, f.samples) ≠ (w, h, samples)) →
      step s = .refused .noFrame) ∧
    (∀ w h planes, (∀ bs ∈ planes, bs.length = (w + 7) / 8 * h) →
      (s.returnedPlanes = [] ∨
        ∃ bs ∈ planes, ∀ made ∈ s.returnedPlanes, ∀ m ∈ made.planes, m.toBytes ≠ bs) →
      (op = .interleave (.given w h planes) → step s = .refused .noPlanes) ∧
      (∀ mode, op = .writeBitplaneFile (.given w h planes) mode → step s = .refused .noPlanes)) ∧
    (∀ w h samples n, op = .toPlanes (.unresolved w h samples) n → Sample.T ∈ samples →
      step s = .refused .unresolvedTransparency)

/-- 70_reset_and_hazards.md R153, 10_state.md R45: the reset values the spec gives, and that nothing
runs until the host starts an operation. That there are no bounds is the model's value (log 1), that an
idle machine answers its own state the model's form of waiting (log 6). -/
def Obligations.ResetHoldsNoResults : Prop :=
  State.reset.index = none ∧ State.reset.canvas = none ∧ State.reset.frame = none ∧
    State.reset.callerFrame = none ∧ State.reset.bounds = none ∧ State.reset.chunky = none ∧
    State.reset.planes = none ∧ State.reset.returnedFrames = [] ∧
    State.reset.returnedPlanes = [] ∧ State.reset.out = [] ∧ State.reset.lowConfidence = false ∧
    State.reset.status = .ok ∧ State.reset.cur.pos = 0 ∧ State.reset.phase = .idle ∧
    ∀ n, Reaches n State.reset State.reset

/-- The invariants hold at reset. -/
def Obligations.ResetMeetsTheInvariants : Prop :=
  State.reset.Inv ∧ State.reset.DrawBound ∧ State.reset.CellsFit

/-- Every step keeps the invariant: canonical stores of their sizes (R36, R38 to R40, R46), the cursor
in its buffer (R28, R53), a well-formed index (R30), a frame under construction exactly while a cell
decode runs, a held frame and held planes that an operation returned (R156), and line registers that
fit together (R35, R96). -/
def Obligations.StepKeepsInvariant : Prop :=
  ∀ s t : State, s.Inv → step s = .next t → t.Inv

/-- From a state that meets the invariant no step stops with a fault. -/
def Obligations.InvariantRulesOutFaults : Prop :=
  ∀ (s : State) (r : Fault), s.Inv → step s ≠ .fault r

/-- 70_reset_and_hazards.md R156, 30_encoding.md R79: only the start of a host operation can be
refused; no instruction and no sequencing step is. -/
def Obligations.OnlyHostOperationsAreRefused : Prop :=
  ∀ (s : State) (r : Refusal), step s = .refused r →
    (∃ op rest, Requested s op rest) ∧ ∀ name, r ≠ .notModelled name

/-- 41_cell_decoder.md R103, 70_reset_and_hazards.md R167: every operation ends: from any state that
meets the invariant the machine comes back to idle. -/
def Obligations.EveryOperationEnds : Prop :=
  ∀ s : State, s.Inv → ∃ n t, Reaches n s t ∧ t.phase = .idle

/-- 10_state.md R25, 70_reset_and_hazards.md R154: `decode_frame` is a function of the working
buffer, the entry and the parameters: two machines with the same index and parameters, whatever else
they hold, run it in step and end with the same outcome and frame. -/
def Obligations.DecodeFrameIsPure : Prop :=
  ∀ (n : Nat) (s₁ s₂ t₁ : State) (i : Int) (ix : SpriteIndex),
    Requested s₁ (.decodeFrame i) [] → Requested s₂ (.decodeFrame i) [] →
    s₁.index = some ix → s₂.index = some ix → s₁.cfg = s₂.cfg →
    Reaches n s₁ t₁ →
    ∃ t₂, Reaches n s₂ t₂ ∧ t₁.phase = t₂.phase ∧
      (0 < n → t₁.phase = .idle → t₁.status = t₂.status ∧ t₁.frame = t₂.frame)

/-- 10_state.md R27, R31, 60_exceptions.md R148, log 3: no step changes the parameters, only `parse`
changes `BUF`, the index or `low_confidence`, and a running operation never changes the bytes its
cursor reads. 43_frame_compositor.md R119: a returned frame is immutable: it stands until another
`decode_frame` ends, by an error of its start or after its cells. The caller's frame
(41_cell_decoder.md R92) changes only where a bare `decode_cell` ends. What was returned is recorded
(log 14): a frame where a `decode_frame` completes, planes where a `to_planes` does, and nothing is ever
taken out (70_reset_and_hazards.md R156). -/
def Obligations.ResultsAreWrittenByTheirOperations : Prop :=
  ∀ s t : State, step s = .next t →
    t.cfg = s.cfg ∧
    ((∀ bytes rest, ¬ Requested s (.parse bytes) rest) →
      t.buf = s.buf ∧ t.index = s.index ∧ t.lowConfidence = s.lowConfidence) ∧
    (s.phase ≠ .idle → t.cur.buf = s.cur.buf) ∧
    (t.frame ≠ s.frame → t.phase = .idle ∧
      ((∃ i rest, Requested s (.decodeFrame i) rest ∧ t.status ≠ .ok) ∨
        (s.decoding ∧ s.bare = false))) ∧
    (t.callerFrame ≠ s.callerFrame → t.phase = .idle ∧ s.decoding ∧ s.bare = true) ∧
    (t.returnedFrames ≠ s.returnedFrames → ∃ f, s.canvas = some f ∧ s.decoding ∧ s.bare = false ∧
      t.phase = .idle ∧ t.status = .ok ∧ t.frame = some f ∧
      t.returnedFrames = f :: s.returnedFrames) ∧
    (t.returnedPlanes ≠ s.returnedPlanes → ∃ px n rest pl, Requested s (.toPlanes px n) rest ∧
      t.status = .ok ∧ t.planes = some pl ∧ t.returnedPlanes = pl :: s.returnedPlanes)

/-- 10_state.md R42: `outcome` is written only by a step that ends its operation. -/
def Obligations.OutcomeIsWrittenAtTheEnd : Prop :=
  ∀ s t : State, step s = .next t → t.phase ≠ .idle → t.status = s.status

/-- 41_cell_decoder.md R99, the invariant behind the bound: every step keeps it. -/
def Obligations.StepKeepsDrawBound : Prop :=
  ∀ s t : State, s.DrawBound → step s = .next t → t.DrawBound

/-- 41_cell_decoder.md R99: `draw_x` stays at most 17019, and at most 8383 while the line record has
not overrun its budget. -/
def Obligations.DrawPositionIsBounded : Prop :=
  ∀ s : State, s.DrawBound → s.phase = .ops →
    s.drawX ≤ 17019 ∧ (s.cur.pos ≤ s.lineEnd → s.drawX ≤ 8383)

/-- 42_cell_opcodes.md R115: an instruction that does not end its operation leaves the cursor beyond
its own first byte; and along a cell, from an instruction that is due on, the cursor stays beyond that
instruction's address, so fetch addresses strictly increase. -/
def Obligations.FetchAddressesIncrease : Prop :=
  (∀ (s t : State) (sp : Space), dueSpace s = some sp → step s = .next t → t.phase ≠ .idle →
    s.cur.pos < t.cur.pos) ∧
  (∀ (n : Nat) (s t : State), dueSpace s ≠ none → 0 < n → Reaches n s t →
    (∀ k u, k ≤ n → Reaches k s u → u.phase = .record ∨ u.phase = .ops) → s.cur.pos < t.cur.pos)

/-- 60_exceptions.md R135: the codes of the outcomes. The numbers are the spec's decision D27
(log 17). -/
def Obligations.OutcomeCodesAreTheTable : Prop :=
  ∀ (info : BoundsInfo) (off : Nat) (i : Int),
    Status.ok.code = 0 ∧ (Status.boundsError info).code = 1 ∧ Status.truncatedIndex.code = 2 ∧
      (Status.malformedCell off).code = 3 ∧ (Status.unsupportedFrame i).code = 4 ∧
      Status.indexRejected.code = 5

/-! ### The RLE decoder as a host operation -/

/-- 45_rle_and_output.md R130: `rle_decode` of any sequence, of `OUT` or of a held plane starts with an
empty `OUT` at the first byte; a stream of whole records ends with OK and their meanings in order, one
that ends inside a record with BoundsError and no result; and every sequence is one or the other. The
tags the encoder never emits and the error are the spec's decision D17 (log 17), the emptied `OUT` is
the model's (log 19). -/
def Obligations.RleDecodeExpandsItsRecords : Prop :=
  (∀ (s : State) (arg : ByteArg) (z : List Byte) (rest : List HostOp),
    Requested s (.rleDecode arg) rest → BytesOperand s arg z →
    step s = .next { s with
      requests := rest
      cur := { buf := Memory.ofBytes z, pos := 0 }
      out := []
      phase := .rleDecode } ∧
    ∀ records : List RleRecord, (∀ r ∈ records, r.complete) →
      (z = records.flatMap RleRecord.bytes →
        ∃ n t, Reaches n s t ∧ t.phase = .idle ∧ t.status = .ok ∧ t.requests = rest ∧
          t.out = records.flatMap RleRecord.meaning) ∧
      (∀ cut, RleCutOff cut → z = records.flatMap RleRecord.bytes ++ cut →
        ∃ n t info, Reaches n s t ∧ t.phase = .idle ∧ t.status = .boundsError info ∧
          t.requests = rest ∧ t.out = [])) ∧
  ∀ z : List Byte, ∃ records : List RleRecord, (∀ r ∈ records, r.complete) ∧
    (z = records.flatMap RleRecord.bytes ∨
      ∃ cut, RleCutOff cut ∧ z = records.flatMap RleRecord.bytes ++ cut)
end

