-- ==== Sys2Proof/Laws/Stores.lean ====
section
/-! SUPPORT. Laws of the sparse stores: read after write, and that every operation keeps the
canonical form. -/

namespace Sys2Proof.Machine

/-! ### Reading after a change -/

@[simp] theorem cellsFind_nil (a : Nat) : cellsFind [] a = none := rfl

theorem cellsFind_put (cs : List Host.Cell) (a : Nat) (v : Byte) (b : Nat) :
    cellsFind (cellsPut cs a v) b = if b = a then some v else cellsFind cs b := by
  induction cs with
  | nil => simp only [cellsPut, cellsFind]
  | cons kv cs ih =>
    obtain ⟨k, w⟩ := kv
    rcases Nat.lt_trichotomy a k with h | rfl | h
    · simp only [cellsPut, h, if_true, cellsFind]
    · simp only [cellsPut, Nat.lt_irrefl, if_false, if_true, cellsFind]
      split <;> rfl
    · have h1 : ¬ a < k := by omega
      have h2 : a ≠ k := by omega
      simp only [cellsPut, h1, h2, if_false, cellsFind, ih]
      split
      · rw [if_neg (by omega)]
      · rfl

theorem cellsFind_erase (cs : List Host.Cell) (a b : Nat) :
    cellsFind (cellsErase cs a) b = if b = a then none else cellsFind cs b := by
  induction cs with
  | nil => simp [cellsErase]
  | cons kv cs ih =>
    obtain ⟨k, w⟩ := kv
    by_cases h : a = k
    · simp only [cellsErase, h, if_true, cellsFind]
      rw [← h, ih]
      split <;> rfl
    · simp only [cellsErase, h, if_false, cellsFind, ih]
      split
      · rw [if_neg (by omega)]
      · rfl

/-! ### The canonical form -/

theorem cellsRise_mono {hi hi' lo lo' : Nat} {cs : List Host.Cell} (hhi : hi ≤ hi') (hlo : lo' ≤ lo)
    (h : cellsRise hi lo cs = true) : cellsRise hi' lo' cs = true := by
  induction cs generalizing lo lo' with
  | nil => rfl
  | cons kv cs ih =>
    obtain ⟨k, w⟩ := kv
    simp only [cellsRise, Bool.and_eq_true, decide_eq_true_eq] at h ⊢
    exact ⟨⟨by omega, by omega⟩, ih (Nat.le_refl _) h.2⟩

theorem cellsRise_put {hi lo a : Nat} {cs : List Host.Cell} (v : Byte) (ha : a < hi) (hlo : lo ≤ a)
    (h : cellsRise hi lo cs = true) : cellsRise hi lo (cellsPut cs a v) = true := by
  induction cs generalizing lo with
  | nil => simp [cellsPut, cellsRise, ha, hlo]
  | cons kv cs ih =>
    obtain ⟨k, w⟩ := kv
    simp only [cellsRise, Bool.and_eq_true, decide_eq_true_eq] at h
    obtain ⟨⟨h1, h2⟩, h3⟩ := h
    rcases Nat.lt_trichotomy a k with hk | rfl | hk
    · simp only [cellsPut, hk, if_true, cellsRise, Bool.and_eq_true, decide_eq_true_eq]
      exact ⟨⟨hlo, ha⟩, ⟨by omega, h2⟩, h3⟩
    · simp [cellsPut, cellsRise, h3, h1, h2]
    · have e1 : ¬ a < k := by omega
      have e2 : a ≠ k := by omega
      simp only [cellsPut, e1, e2, if_false, cellsRise, Bool.and_eq_true, decide_eq_true_eq]
      exact ⟨⟨h1, h2⟩, ih (by omega) h3⟩

theorem cellsRise_erase {hi lo : Nat} {cs : List Host.Cell} (a : Nat)
    (h : cellsRise hi lo cs = true) : cellsRise hi lo (cellsErase cs a) = true := by
  induction cs generalizing lo with
  | nil => rfl
  | cons kv cs ih =>
    obtain ⟨k, w⟩ := kv
    simp only [cellsRise, Bool.and_eq_true, decide_eq_true_eq] at h
    obtain ⟨⟨h1, h2⟩, h3⟩ := h
    by_cases e : a = k
    · simp only [cellsErase, e, if_true]
      rw [← e]
      exact ih (cellsRise_mono (Nat.le_refl _) (by omega) h3)
    · simp only [cellsErase, e, if_false, cellsRise, Bool.and_eq_true, decide_eq_true_eq]
      exact ⟨⟨h1, h2⟩, ih h3⟩

theorem cellsNonzero_cons {k : Nat} {w : Byte} {cs : List Host.Cell} :
    cellsNonzero ((k, w) :: cs) = true ↔ w ≠ 0 ∧ cellsNonzero cs = true := by
  simp only [cellsNonzero, Bool.and_eq_true, bne_iff_ne]

theorem cellsNonzero_put {a : Nat} {v : Byte} {cs : List Host.Cell} (hv : v ≠ 0)
    (h : cellsNonzero cs = true) : cellsNonzero (cellsPut cs a v) = true := by
  induction cs with
  | nil => exact cellsNonzero_cons.2 ⟨hv, rfl⟩
  | cons kv cs ih =>
    obtain ⟨k, w⟩ := kv
    have h' := cellsNonzero_cons.1 h
    simp only [cellsPut]
    split
    · exact cellsNonzero_cons.2 ⟨hv, h⟩
    · split
      · exact cellsNonzero_cons.2 ⟨hv, h'.2⟩
      · exact cellsNonzero_cons.2 ⟨h'.1, ih h'.2⟩

theorem cellsNonzero_erase {a : Nat} {cs : List Host.Cell} (h : cellsNonzero cs = true) :
    cellsNonzero (cellsErase cs a) = true := by
  induction cs with
  | nil => rfl
  | cons kv cs ih =>
    obtain ⟨k, w⟩ := kv
    have h' := cellsNonzero_cons.1 h
    simp only [cellsErase]
    split
    · exact ih h'.2
    · exact cellsNonzero_cons.2 ⟨h'.1, ih h'.2⟩

theorem cellsRise_ofBytes (bs : List Byte) (a : Nat) :
    cellsRise (a + bs.length) a (cellsOfBytes a bs) = true := by
  induction bs generalizing a with
  | nil => rfl
  | cons b bs ih =>
    have h : cellsRise (a + (b :: bs).length) (a + 1) (cellsOfBytes (a + 1) bs) = true := by
      have := ih (a + 1)
      rwa [show a + 1 + bs.length = a + (b :: bs).length by simp; omega] at this
    simp only [cellsOfBytes]
    split
    · exact cellsRise_mono (Nat.le_refl _) (by omega) h
    · simp only [cellsRise, Bool.and_eq_true, decide_eq_true_eq]
      exact ⟨⟨Nat.le_refl _, by simp⟩, h⟩

theorem cellsNonzero_ofBytes (bs : List Byte) (a : Nat) :
    cellsNonzero (cellsOfBytes a bs) = true := by
  induction bs generalizing a with
  | nil => rfl
  | cons b bs ih =>
    simp only [cellsOfBytes]
    split
    · exact ih _
    · rename_i h
      exact cellsNonzero_cons.2 ⟨h, ih _⟩

theorem cellsRise_ofSamples (xs : List Sample) (a : Nat) :
    cellsRise (a + xs.length) a (cellsOfSamples a xs) = true := by
  induction xs generalizing a with
  | nil => rfl
  | cons x xs ih =>
    have h : cellsRise (a + (x :: xs).length) (a + 1) (cellsOfSamples (a + 1) xs) = true := by
      have := ih (a + 1)
      rwa [show a + 1 + xs.length = a + (x :: xs).length by simp; omega] at this
    cases x with
    | T => exact cellsRise_mono (Nat.le_refl _) (by omega) h
    | Px v =>
      simp only [cellsOfSamples, cellsRise, Bool.and_eq_true, decide_eq_true_eq]
      exact ⟨⟨Nat.le_refl _, by simp⟩, h⟩

/-! ### Equal contents are equal data -/

/-- No cell below the bound the addresses rise from. -/
theorem cellsFind_below {hi lo a : Nat} {cs : List Host.Cell} (h : cellsRise hi lo cs = true)
    (ha : a < lo) : cellsFind cs a = none := by
  induction cs generalizing lo with
  | nil => rfl
  | cons kv cs ih =>
    obtain ⟨k, w⟩ := kv
    simp only [cellsRise, Bool.and_eq_true, decide_eq_true_eq] at h
    rw [cellsFind, if_neg (by omega)]
    exact ih h.2 (by omega)

/-- No cell at the upper bound or above. -/
theorem cellsFind_above {hi lo a : Nat} {cs : List Host.Cell} (h : cellsRise hi lo cs = true)
    (ha : hi ≤ a) : cellsFind cs a = none := by
  induction cs generalizing lo with
  | nil => rfl
  | cons kv cs ih =>
    obtain ⟨k, w⟩ := kv
    simp only [cellsRise, Bool.and_eq_true, decide_eq_true_eq] at h
    rw [cellsFind, if_neg (by omega)]
    exact ih h.2

/-- Rising cells are determined by what they list at each address. -/
theorem cellsRise_ext {hi hi' lo lo' : Nat} {cs ds : List Host.Cell} (hc : cellsRise hi lo cs = true)
    (hd : cellsRise hi' lo' ds = true) (h : ∀ a, cellsFind cs a = cellsFind ds a) : cs = ds := by
  induction cs generalizing lo lo' ds with
  | nil =>
    cases ds with
    | nil => rfl
    | cons kv ds =>
      have := h kv.1
      simp [cellsFind] at this
  | cons kv cs ih =>
    obtain ⟨k, v⟩ := kv
    cases ds with
    | nil =>
      have := h k
      simp [cellsFind] at this
    | cons kv ds =>
      obtain ⟨j, w⟩ := kv
      simp only [cellsRise, Bool.and_eq_true, decide_eq_true_eq] at hc hd
      have hk := h k
      have hj := h j
      simp only [cellsFind, if_true] at hk hj
      have e : k = j := by
        by_contra hne
        rw [if_neg hne] at hk
        rw [if_neg (Ne.symm hne)] at hj
        rcases Nat.lt_or_gt_of_ne hne with hl | hl
        · rw [cellsFind_below hd.2 (by omega)] at hk
          cases hk
        · rw [cellsFind_below hc.2 (by omega)] at hj
          cases hj
      subst e
      rw [if_pos rfl] at hk
      cases hk
      refine congrArg _ (ih hc.2 hd.2 fun a => ?_)
      by_cases ha : a = k
      · rw [ha, cellsFind_below hc.2 (by omega), cellsFind_below hd.2 (by omega)]
      · have := h a
        rwa [cellsFind, cellsFind, if_neg ha, if_neg ha] at this

/-- Where no listed byte is 0, what is listed is what reads as other than 0. -/
theorem cellsFind_of_getD {cs ds : List Host.Cell} {a : Nat} (hc : cellsNonzero cs = true)
    (hd : cellsNonzero ds = true)
    (h : (cellsFind cs a).getD unlistedByte = (cellsFind ds a).getD unlistedByte) :
    cellsFind cs a = cellsFind ds a := by
  have key : ∀ {es : List Host.Cell}, cellsNonzero es = true → cellsFind es a ≠ some unlistedByte := by
    intro es he hf
    induction es with
    | nil => cases hf
    | cons kv es ih =>
      obtain ⟨k, w⟩ := kv
      obtain ⟨hw, he⟩ := cellsNonzero_cons.1 he
      rw [cellsFind] at hf
      split at hf
      · cases hf
        exact hw rfl
      · exact ih he hf
  have h1 := key hc
  have h2 := key hd
  cases e1 : cellsFind cs a <;> cases e2 : cellsFind ds a <;> simp_all

/-! ### Byte buffers -/

@[simp] theorem Memory.write_len (m : Memory) (a : Nat) (v : Byte) : (m.write a v).len = m.len := by
  simp only [Memory.write]; split <;> rfl

/-- Reading after a write inside the buffer. -/
theorem Memory.read_write (m : Memory) (a b : Nat) (v : Byte) (ha : a < m.len) :
    (m.write a v).read b = if b = a then v else m.read b := by
  simp only [Memory.write, ha, if_true, Memory.read]
  split
  · rename_i h
    rw [cellsFind_erase]
    split <;> simp [h]
  · rw [cellsFind_put]
    split <;> simp

theorem Memory.write_wf {m : Memory} (a : Nat) (v : Byte) (h : m.wf = true) :
    (m.write a v).wf = true := by
  simp only [Memory.wf, Bool.and_eq_true] at h
  simp only [Memory.write]
  split
  · rename_i ha
    simp only [Memory.wf, Bool.and_eq_true]
    split
    · exact ⟨cellsRise_erase a h.1, cellsNonzero_erase h.2⟩
    · rename_i hv
      exact ⟨cellsRise_put v ha (Nat.zero_le _) h.1,
        cellsNonzero_put (by simpa [unlistedByte] using hv) h.2⟩
  · simp only [Memory.wf, Bool.and_eq_true]; exact h

@[simp] theorem Memory.ofBytes_len (bs : List Byte) : (Memory.ofBytes bs).len = bs.length := rfl

theorem Memory.ofBytes_wf (bs : List Byte) : (Memory.ofBytes bs).wf = true := by
  simp only [Memory.wf, Memory.ofBytes, Bool.and_eq_true]
  exact ⟨by simpa using cellsRise_ofBytes bs 0, cellsNonzero_ofBytes bs 0⟩

theorem Memory.zeros_wf (n : Nat) : (Memory.zeros n).wf = true := rfl

theorem Memory.xored_wf (m : Memory) : m.xored.wf = true := Memory.ofBytes_wf _

theorem Memory.place_wf (m : Memory) (a : Nat) (bs : List Byte) : (m.place a bs).wf = true :=
  Memory.ofBytes_wf _

theorem cellsFind_ofBytes (bs : List Byte) (a b : Nat) :
    (cellsFind (cellsOfBytes a bs) b).getD unlistedByte =
      if a ≤ b then bs.getD (b - a) 0 else 0 := by
  induction bs generalizing a with
  | nil => simp [cellsOfBytes, unlistedByte]
  | cons x bs ih =>
    rcases Nat.lt_trichotomy b a with h | rfl | h
    · have hb : ¬ a ≤ b := by omega
      have hb' : ¬ a + 1 ≤ b := by omega
      have hne : b ≠ a := by omega
      simp only [cellsOfBytes]
      split
      · simp only [ih, hb', if_false]
      · simp only [cellsFind, hne, if_false]
        simp only [ih, hb', if_false]
    · simp only [cellsOfBytes]
      split
      · rename_i hx
        rw [ih, if_neg (by omega)]
        simp [hx, unlistedByte]
      · simp [cellsFind]
    · have hb : a ≤ b := by omega
      have hb' : a + 1 ≤ b := by omega
      have hne : b ≠ a := by omega
      have e : b - a = (b - (a + 1)) + 1 := by omega
      simp only [cellsOfBytes]
      split
      · simp only [ih, hb', if_true, e, List.getD_cons_succ]
      · simp only [cellsFind, hne, if_false]
        simp only [ih, hb', if_true, e, List.getD_cons_succ]

/-- A buffer made of bytes reads as those bytes. -/
@[simp] theorem Memory.read_ofBytes (bs : List Byte) (a : Nat) :
    (Memory.ofBytes bs).read a = bs.getD a 0 := by
  simp [Memory.read, Memory.ofBytes, cellsFind_ofBytes]

@[simp] theorem Memory.readList_length (m : Memory) (a n : Nat) : (m.readList a n).length = n := by
  induction n generalizing a with
  | zero => rfl
  | succ n ih => simp [Memory.readList, ih]

theorem Memory.readList_getD (m : Memory) (a n k : Nat) (hk : k < n) :
    (m.readList a n).getD k 0 = m.read (a + k) := by
  induction n generalizing a k with
  | zero => omega
  | succ n ih =>
    cases k with
    | zero => simp [Memory.readList]
    | succ k =>
      have := ih (a + 1) k (by omega)
      simp only [Memory.readList, List.getD_cons_succ, this]
      congr 1; omega

/-- A buffer made of bytes, read whole, gives those bytes back. -/
@[simp] theorem Memory.toBytes_ofBytes (bs : List Byte) : (Memory.ofBytes bs).toBytes = bs := by
  apply List.ext_getElem
  · simp [Memory.toBytes]
  · intro k h1 h2
    have h := Memory.readList_getD (Memory.ofBytes bs) 0 bs.length k h2
    simp only [Memory.toBytes, Memory.ofBytes_len, Memory.read_ofBytes, Nat.zero_add] at h ⊢
    rw [List.getD_eq_getElem _ _ h2, List.getD_eq_getElem _ _ (by simpa using h2)] at h
    exact h

/-- A buffer is the buffer of its bytes. -/
theorem Memory.ofBytes_toBytes {m : Memory} (h : m.wf = true) : Memory.ofBytes m.toBytes = m := by
  have hl : m.toBytes.length = m.len := Memory.readList_length m 0 m.len
  simp only [Memory.wf, Bool.and_eq_true] at h
  have hw := Memory.ofBytes_wf m.toBytes
  simp only [Memory.wf, Bool.and_eq_true] at hw
  have hr : ∀ a, (Memory.ofBytes m.toBytes).read a = m.read a := by
    intro a
    rw [Memory.read_ofBytes]
    by_cases ha : a < m.len
    · rw [Memory.toBytes, Memory.readList_getD m 0 m.len a ha, Nat.zero_add]
    · rw [List.getD_eq_default _ _ (by omega), Memory.read, cellsFind_above h.1 (by omega)]
      rfl
  have hc := cellsRise_ext hw.1 h.1 fun a => cellsFind_of_getD hw.2 h.2 (hr a)
  cases m
  simp only [Memory.ofBytes, Memory.mk.injEq] at hc ⊢
  exact ⟨hl, hc⟩

/-! ### Sample stores -/

@[simp] theorem sampleAt_nil (a : Nat) : sampleAt [] a = .T := rfl

theorem sampleAt_put (cs : List Host.Cell) (a : Nat) (v : Byte) (b : Nat) :
    sampleAt (cellsPut cs a v) b = if b = a then .Px v else sampleAt cs b := by
  simp only [sampleAt, cellsFind_put]
  by_cases h : b = a <;> simp [h]

theorem sampleAt_ofSamples_from (xs : List Sample) (a b : Nat) :
    sampleAt (cellsOfSamples a xs) b = if a ≤ b then xs.getD (b - a) .T else .T := by
  induction xs generalizing a with
  | nil => simp [cellsOfSamples, sampleAt]
  | cons x xs ih =>
    by_cases hb : b = a
    · subst hb
      cases x with
      | T => simp only [cellsOfSamples, ih, if_neg (show ¬ b + 1 ≤ b by omega)]; simp
      | Px v => simp [cellsOfSamples, sampleAt, cellsFind]
    · have h : sampleAt (cellsOfSamples a (x :: xs)) b = sampleAt (cellsOfSamples (a + 1) xs) b := by
        cases x with
        | T => rfl
        | Px v => simp only [cellsOfSamples, sampleAt, cellsFind, if_neg hb]
      rw [h, ih]
      by_cases ha : a ≤ b
      · rw [if_pos ha, if_pos (by omega), show b - a = b - (a + 1) + 1 by omega, List.getD_cons_succ]
      · rw [if_neg ha, if_neg (by omega)]

/-- A store made of samples holds those samples. -/
theorem sampleAt_ofSamples (xs : List Sample) (a : Nat) :
    sampleAt (cellsOfSamples 0 xs) a = xs.getD a .T := by
  rw [sampleAt_ofSamples_from, if_pos (Nat.zero_le a), Nat.sub_zero]

/-- The samples of a frame: as many as it has places, and the one at each address. -/
@[simp] theorem Frame.samples_length (f : Frame) : f.samples.length = f.w * f.h := by
  simp [Frame.samples]

theorem Frame.samples_getD {f : Frame} (hf : f.wf = true) (a : Nat) :
    f.samples.getD a .T = sampleAt f.cells a := by
  by_cases ha : a < f.w * f.h
  · simp [Frame.samples, List.getD, List.getElem?_range ha]
  · rw [List.getD_eq_default _ _ (by rw [Frame.samples_length]; omega), sampleAt,
      cellsFind_above hf (by omega)]

/-- A frame is the frame of its samples. -/
theorem Frame.ofSamples_samples {f : Frame} (hf : f.wf = true) :
    ({ w := f.w, h := f.h, cells := cellsOfSamples 0 f.samples } : Frame) = f := by
  have hs : ∀ a, sampleAt (cellsOfSamples 0 f.samples) a = sampleAt f.cells a := by
    intro a
    rw [sampleAt_ofSamples, Frame.samples_getD hf]
  have hc := cellsRise_ext (cellsRise_ofSamples f.samples 0) hf fun a => by
    have h := hs a
    simp only [sampleAt] at h
    cases e1 : cellsFind (cellsOfSamples 0 f.samples) a <;> cases e2 : cellsFind f.cells a <;>
      simp_all
  rw [hc]

@[simp] theorem Frame.draw_w (f : Frame) (x y : Nat) (v : Byte) : (f.draw x y v).w = f.w := rfl
@[simp] theorem Frame.draw_h (f : Frame) (x y : Nat) (v : Byte) : (f.draw x y v).h = f.h := rfl

theorem Frame.index_lt {w h x y : Nat} (hx : x < w) (hy : y < h) : y * w + x < w * h := by
  calc y * w + x < y * w + w := by omega
    _ = (y + 1) * w := by ring
    _ ≤ h * w := Nat.mul_le_mul_right _ hy
    _ = w * h := Nat.mul_comm _ _

theorem Frame.index_inj {w x x' y y' : Nat} (hx : x < w) (hx' : x' < w)
    (h : y * w + x = y' * w + x') : x = x' ∧ y = y' := by
  have hy : y = y' := by
    have h1 : (y * w + x) / w = y := by
      rw [Nat.mul_comm, Nat.mul_add_div (by omega), Nat.div_eq_of_lt hx, Nat.add_zero]
    have h2 : (y' * w + x') / w = y' := by
      rw [Nat.mul_comm, Nat.mul_add_div (by omega), Nat.div_eq_of_lt hx', Nat.add_zero]
    rw [← h1, ← h2, h]
  subst hy
  exact ⟨by omega, rfl⟩

theorem Frame.draw_sample {f : Frame} {x y x' y' : Nat} (v : Byte) (hx : x < f.w) (hx' : x' < f.w) :
    (f.draw x y v).sample x' y' = if x' = x ∧ y' = y then .Px v else f.sample x' y' := by
  simp only [Frame.sample, Frame.draw, sampleAt_put]
  by_cases h : x' = x ∧ y' = y
  · rw [if_pos h, if_pos (by rw [h.1, h.2])]
  · rw [if_neg h, if_neg (fun e => h (Frame.index_inj hx' hx e))]

theorem Frame.draw_wf {f : Frame} {x y : Nat} (v : Byte) (hx : x < f.w) (hy : y < f.h)
    (h : f.wf = true) : (f.draw x y v).wf = true :=
  cellsRise_put v (Frame.index_lt hx hy) (Nat.zero_le _) h

theorem Frame.fresh_wf (w h : Nat) : (Frame.fresh w h).wf = true := rfl

theorem Frame.freed_wf (draw : Nat) (f : Frame) : (f.freed draw).wf = true := by
  simp only [Frame.wf, Frame.freed]
  have := cellsRise_ofSamples ((List.range (f.w * f.h)).map (Config.freeSample draw)) 0
  simpa using this

end Sys2Proof.Machine
end

