-- ==== Sys2Proof/Laws/Cursor.lean ====
section
/-! SUPPORT. What each cursor primitive can answer, and that it keeps the cursor's invariant. -/

namespace Sys2Proof.Machine

theorem Cursor.read_ok {c : Cursor} {n : Nat} (h : c.pos + n ≤ c.buf.len) :
    c.read n = .ok (c.buf.readList c.pos n, { c with pos := c.pos + n }) := by
  simp [Cursor.read, h]

theorem Cursor.read_short {c : Cursor} {n : Nat} (h : c.buf.len < c.pos + n) :
    c.read n = .error (.read c.pos n) := by
  simp only [Cursor.read]; rw [if_neg (by omega)]

theorem Cursor.seek_ok {c : Cursor} {o : Origin} {d : Int} (h0 : 0 ≤ (c.base o : Int) + d)
    (h1 : (c.base o : Int) + d ≤ c.buf.len) :
    c.seek o d = .ok { c with pos := ((c.base o : Int) + d).toNat } := by
  simp only [Cursor.seek]; rw [if_neg (by omega)]

theorem Cursor.seek_out {c : Cursor} {o : Origin} {d : Int}
    (h : (c.base o : Int) + d < 0 ∨ (c.buf.len : Int) < (c.base o : Int) + d) :
    c.seek o d = .error (.seek ((c.base o : Int) + d)) := by
  simp only [Cursor.seek]; rw [if_pos h]

theorem Cursor.u16_ok {c : Cursor} (h : c.pos + 2 ≤ c.buf.len) :
    c.u16 = .ok (u16le (c.buf.read c.pos) (c.buf.read (c.pos + 1)), { c with pos := c.pos + 2 }) := by
  simp [Cursor.u16, Cursor.read_ok h, Memory.readList]

theorem Cursor.u16_short {c : Cursor} (h : c.buf.len < c.pos + 2) :
    c.u16 = .error (.read c.pos 2) := by
  simp [Cursor.u16, Cursor.read_short h]

/-- A read that succeeds: the buffer stays, the position moves by what was read and stays in the
buffer. -/
theorem Cursor.read_cases {c c' : Cursor} {n : Nat} {bs : List Byte} (h : c.read n = .ok (bs, c')) :
    c.pos + n ≤ c.buf.len ∧ bs = c.buf.readList c.pos n ∧ c' = { c with pos := c.pos + n } := by
  simp only [Cursor.read] at h
  split at h
  · rename_i hle
    simp only [Except.ok.injEq, Prod.mk.injEq] at h
    exact ⟨hle, h.1.symm, h.2.symm⟩
  · cases h

theorem Cursor.seek_cases {c c' : Cursor} {o : Origin} {d : Int} (h : c.seek o d = .ok c') :
    0 ≤ (c.base o : Int) + d ∧ (c.base o : Int) + d ≤ c.buf.len ∧
      c' = { c with pos := ((c.base o : Int) + d).toNat } := by
  simp only [Cursor.seek] at h
  split at h
  · cases h
  · rename_i hn
    simp only [Except.ok.injEq] at h
    exact ⟨by omega, by omega, h.symm⟩

theorem Cursor.u16_cases {c c' : Cursor} {v : Half} (h : c.u16 = .ok (v, c')) :
    c.pos + 2 ≤ c.buf.len ∧ v = u16le (c.buf.read c.pos) (c.buf.read (c.pos + 1)) ∧
      c' = { c with pos := c.pos + 2 } := by
  by_cases hle : c.pos + 2 ≤ c.buf.len
  · rw [Cursor.u16_ok hle] at h
    simp only [Except.ok.injEq, Prod.mk.injEq] at h
    exact ⟨hle, h.1.symm, h.2.symm⟩
  · rw [Cursor.u16_short (by omega)] at h; cases h

/-- The header reads succeed exactly when the eight bytes are there. -/
theorem Cursor.header_ok {c : Cursor} {off : Nat} (h : off + 8 ≤ c.buf.len) :
    c.header off = .ok (headerAt c.buf off, { c with pos := off + 8 }) := by
  have hs : c.seek .start (off : Int) = .ok { c with pos := off } := by
    rw [Cursor.seek_ok (by simp [Cursor.base]) (by simp [Cursor.base]; omega)]
    simp [Cursor.base]
  simp only [Cursor.header, hs, bind, Except.bind]
  rw [Cursor.u16_ok (by simp; omega)]
  simp only []
  rw [Cursor.u16_ok (by simp; omega)]
  simp only []
  rw [Cursor.u16_ok (by simp; omega)]
  simp only []
  rw [Cursor.u16_ok (by simp; omega)]
  rfl

theorem Cursor.header_cases {c c' : Cursor} {off : Nat} {hdr : CellHeader}
    (h : c.header off = .ok (hdr, c')) :
    off + 8 ≤ c.buf.len ∧ hdr = headerAt c.buf off ∧ c' = { c with pos := off + 8 } := by
  by_cases hle : off + 8 ≤ c.buf.len
  · rw [Cursor.header_ok hle] at h
    simp only [Except.ok.injEq, Prod.mk.injEq] at h
    exact ⟨hle, h.1.symm, h.2.symm⟩
  · exfalso
    simp only [Cursor.header, bind, Except.bind] at h
    cases hs : c.seek .start (off : Int) with
    | error e => rw [hs] at h; cases h
    | ok c1 =>
      obtain ⟨-, hs1, rfl⟩ := Cursor.seek_cases hs
      simp only [Cursor.base] at hs1
      rw [hs] at h
      simp only [Cursor.base] at h
      cases h1 : Cursor.u16 { c with pos := ((0 : Nat) + (off : Int) : Int).toNat } with
      | error e => rw [h1] at h; cases h
      | ok p1 =>
        obtain ⟨v1, c1⟩ := p1
        obtain ⟨-, -, rfl⟩ := Cursor.u16_cases h1
        rw [h1] at h; simp only [] at h
        split at h
        · cases h
        · rename_i p2 h2
          obtain ⟨v2, c2⟩ := p2
          obtain ⟨-, -, rfl⟩ := Cursor.u16_cases h2
          simp only [] at h
          split at h
          · cases h
          · rename_i p3 h3
            obtain ⟨v3, c3⟩ := p3
            obtain ⟨-, -, rfl⟩ := Cursor.u16_cases h3
            simp only [] at h
            split at h
            · cases h
            · rename_i p4 h4
              obtain ⟨v4, c4⟩ := p4
              obtain ⟨h4, -, -⟩ := Cursor.u16_cases h4
              simp at h4
              omega

end Sys2Proof.Machine
end

