-- ==== Sys2Proof/Laws/State.lean ====
section
/-! SUPPORT. One lemma per field per update of State, so that no proof unfolds a record update. -/

namespace Sys2Proof.Machine

/-! ### `emitAll` -/

@[simp] theorem emitAll_cfg (vs : List Byte) (s : State) : (emitAll vs s).cfg = s.cfg := rfl
@[simp] theorem emitAll_requests (vs : List Byte) (s : State) :
    (emitAll vs s).requests = s.requests := rfl
@[simp] theorem emitAll_phase (vs : List Byte) (s : State) : (emitAll vs s).phase = s.phase := rfl
@[simp] theorem emitAll_bare (vs : List Byte) (s : State) : (emitAll vs s).bare = s.bare := rfl
@[simp] theorem emitAll_pending (vs : List Byte) (s : State) :
    (emitAll vs s).pending = s.pending := rfl
@[simp] theorem emitAll_cellOffset (vs : List Byte) (s : State) :
    (emitAll vs s).cellOffset = s.cellOffset := rfl
@[simp] theorem emitAll_buf (vs : List Byte) (s : State) : (emitAll vs s).buf = s.buf := rfl
@[simp] theorem emitAll_cur (vs : List Byte) (s : State) : (emitAll vs s).cur = s.cur := rfl
@[simp] theorem emitAll_index (vs : List Byte) (s : State) : (emitAll vs s).index = s.index := rfl
@[simp] theorem emitAll_lowConfidence (vs : List Byte) (s : State) :
    (emitAll vs s).lowConfidence = s.lowConfidence := rfl
@[simp] theorem emitAll_hdr (vs : List Byte) (s : State) : (emitAll vs s).hdr = s.hdr := rfl
@[simp] theorem emitAll_destY (vs : List Byte) (s : State) : (emitAll vs s).destY = s.destY := rfl
@[simp] theorem emitAll_linesDone (vs : List Byte) (s : State) :
    (emitAll vs s).linesDone = s.linesDone := rfl
@[simp] theorem emitAll_lineLength (vs : List Byte) (s : State) :
    (emitAll vs s).lineLength = s.lineLength := rfl
@[simp] theorem emitAll_lineStart (vs : List Byte) (s : State) :
    (emitAll vs s).lineStart = s.lineStart := rfl
@[simp] theorem emitAll_lineEnd (vs : List Byte) (s : State) :
    (emitAll vs s).lineEnd = s.lineEnd := rfl
@[simp] theorem emitAll_drawX (vs : List Byte) (s : State) :
    (emitAll vs s).drawX = s.drawX + vs.length := rfl
@[simp] theorem emitAll_row (vs : List Byte) (s : State) :
    (emitAll vs s).row = emitRow s.hdr.width.toNat vs s.drawX s.row := rfl
@[simp] theorem emitAll_lat (vs : List Byte) (s : State) : (emitAll vs s).lat = s.lat := rfl
@[simp] theorem emitAll_canvas (vs : List Byte) (s : State) :
    (emitAll vs s).canvas = s.canvas := rfl
@[simp] theorem emitAll_frame (vs : List Byte) (s : State) : (emitAll vs s).frame = s.frame := rfl
@[simp] theorem emitAll_callerFrame (vs : List Byte) (s : State) :
    (emitAll vs s).callerFrame = s.callerFrame := rfl
@[simp] theorem emitAll_bounds (vs : List Byte) (s : State) :
    (emitAll vs s).bounds = s.bounds := rfl
@[simp] theorem emitAll_chunky (vs : List Byte) (s : State) :
    (emitAll vs s).chunky = s.chunky := rfl
@[simp] theorem emitAll_planes (vs : List Byte) (s : State) :
    (emitAll vs s).planes = s.planes := rfl
@[simp] theorem emitAll_returnedFrames (vs : List Byte) (s : State) :
    (emitAll vs s).returnedFrames = s.returnedFrames := rfl
@[simp] theorem emitAll_returnedPlanes (vs : List Byte) (s : State) :
    (emitAll vs s).returnedPlanes = s.returnedPlanes := rfl
@[simp] theorem emitAll_out (vs : List Byte) (s : State) : (emitAll vs s).out = s.out := rfl
@[simp] theorem emitAll_rle (vs : List Byte) (s : State) : (emitAll vs s).rle = s.rle := rfl
@[simp] theorem emitAll_status (vs : List Byte) (s : State) :
    (emitAll vs s).status = s.status := rfl
@[simp] theorem emitAll_freeCount (vs : List Byte) (s : State) :
    (emitAll vs s).freeCount = s.freeCount := rfl

/-! ### `complete` -/

@[simp] theorem complete_cfg (s : State) : (complete s).cfg = s.cfg := rfl
@[simp] theorem complete_requests (s : State) : (complete s).requests = s.requests := rfl
@[simp] theorem complete_phase (s : State) : (complete s).phase = .idle := rfl
@[simp] theorem complete_bare (s : State) : (complete s).bare = s.bare := rfl
@[simp] theorem complete_pending (s : State) : (complete s).pending = s.pending := rfl
@[simp] theorem complete_cellOffset (s : State) : (complete s).cellOffset = s.cellOffset := rfl
@[simp] theorem complete_buf (s : State) : (complete s).buf = s.buf := rfl
@[simp] theorem complete_cur (s : State) : (complete s).cur = s.cur := rfl
@[simp] theorem complete_index (s : State) : (complete s).index = s.index := rfl
@[simp] theorem complete_lowConfidence (s : State) :
    (complete s).lowConfidence = s.lowConfidence := rfl
@[simp] theorem complete_hdr (s : State) : (complete s).hdr = s.hdr := rfl
@[simp] theorem complete_destY (s : State) : (complete s).destY = s.destY := rfl
@[simp] theorem complete_linesDone (s : State) : (complete s).linesDone = s.linesDone := rfl
@[simp] theorem complete_lineLength (s : State) : (complete s).lineLength = s.lineLength := rfl
@[simp] theorem complete_lineStart (s : State) : (complete s).lineStart = s.lineStart := rfl
@[simp] theorem complete_lineEnd (s : State) : (complete s).lineEnd = s.lineEnd := rfl
@[simp] theorem complete_drawX (s : State) : (complete s).drawX = s.drawX := rfl
@[simp] theorem complete_row (s : State) : (complete s).row = s.row := rfl
@[simp] theorem complete_lat (s : State) : (complete s).lat = s.lat := rfl
@[simp] theorem complete_canvas (s : State) : (complete s).canvas = s.canvas := rfl
@[simp] theorem complete_frame (s : State) : (complete s).frame = s.frame := rfl
@[simp] theorem complete_callerFrame (s : State) : (complete s).callerFrame = s.callerFrame := rfl
@[simp] theorem complete_bounds (s : State) : (complete s).bounds = s.bounds := rfl
@[simp] theorem complete_chunky (s : State) : (complete s).chunky = s.chunky := rfl
@[simp] theorem complete_planes (s : State) : (complete s).planes = s.planes := rfl
@[simp] theorem complete_returnedFrames (s : State) :
    (complete s).returnedFrames = s.returnedFrames := rfl
@[simp] theorem complete_returnedPlanes (s : State) :
    (complete s).returnedPlanes = s.returnedPlanes := rfl
@[simp] theorem complete_out (s : State) : (complete s).out = s.out := rfl
@[simp] theorem complete_rle (s : State) : (complete s).rle = s.rle := rfl
@[simp] theorem complete_status (s : State) : (complete s).status = .ok := rfl
@[simp] theorem complete_freeCount (s : State) : (complete s).freeCount = s.freeCount := rfl

/-! ### `raise` -/

@[simp] theorem raise_cfg (e : Status) (s : State) : (raise e s).cfg = s.cfg := rfl
@[simp] theorem raise_requests (e : Status) (s : State) : (raise e s).requests = s.requests := rfl
@[simp] theorem raise_phase (e : Status) (s : State) : (raise e s).phase = .idle := rfl
@[simp] theorem raise_bare (e : Status) (s : State) : (raise e s).bare = s.bare := rfl
@[simp] theorem raise_pending (e : Status) (s : State) : (raise e s).pending = [] := rfl
@[simp] theorem raise_cellOffset (e : Status) (s : State) :
    (raise e s).cellOffset = s.cellOffset := rfl
@[simp] theorem raise_buf (e : Status) (s : State) : (raise e s).buf = s.buf := rfl
@[simp] theorem raise_cur (e : Status) (s : State) : (raise e s).cur = s.cur := rfl
@[simp] theorem raise_index (e : Status) (s : State) : (raise e s).index = s.index := rfl
@[simp] theorem raise_lowConfidence (e : Status) (s : State) :
    (raise e s).lowConfidence = s.lowConfidence := rfl
@[simp] theorem raise_hdr (e : Status) (s : State) : (raise e s).hdr = s.hdr := rfl
@[simp] theorem raise_destY (e : Status) (s : State) : (raise e s).destY = s.destY := rfl
@[simp] theorem raise_linesDone (e : Status) (s : State) :
    (raise e s).linesDone = s.linesDone := rfl
@[simp] theorem raise_lineLength (e : Status) (s : State) :
    (raise e s).lineLength = s.lineLength := rfl
@[simp] theorem raise_lineStart (e : Status) (s : State) :
    (raise e s).lineStart = s.lineStart := rfl
@[simp] theorem raise_lineEnd (e : Status) (s : State) : (raise e s).lineEnd = s.lineEnd := rfl
@[simp] theorem raise_drawX (e : Status) (s : State) : (raise e s).drawX = s.drawX := rfl
@[simp] theorem raise_row (e : Status) (s : State) : (raise e s).row = s.row := rfl
@[simp] theorem raise_lat (e : Status) (s : State) : (raise e s).lat = s.lat := rfl
@[simp] theorem raise_canvas (e : Status) (s : State) : (raise e s).canvas = s.canvas := rfl
@[simp] theorem raise_frame (e : Status) (s : State) : (raise e s).frame = s.frame := rfl
@[simp] theorem raise_callerFrame (e : Status) (s : State) :
    (raise e s).callerFrame = s.callerFrame := rfl
@[simp] theorem raise_bounds (e : Status) (s : State) : (raise e s).bounds = s.bounds := rfl
@[simp] theorem raise_chunky (e : Status) (s : State) : (raise e s).chunky = s.chunky := rfl
@[simp] theorem raise_planes (e : Status) (s : State) : (raise e s).planes = s.planes := rfl
@[simp] theorem raise_returnedFrames (e : Status) (s : State) :
    (raise e s).returnedFrames = s.returnedFrames := rfl
@[simp] theorem raise_returnedPlanes (e : Status) (s : State) :
    (raise e s).returnedPlanes = s.returnedPlanes := rfl
@[simp] theorem raise_out (e : Status) (s : State) : (raise e s).out = s.out := rfl
@[simp] theorem raise_rle (e : Status) (s : State) : (raise e s).rle = s.rle := rfl
@[simp] theorem raise_status (e : Status) (s : State) : (raise e s).status = e := rfl
@[simp] theorem raise_freeCount (e : Status) (s : State) :
    (raise e s).freeCount = s.freeCount := rfl

/-! ### `deliverFrame` -/

@[simp] theorem deliverFrame_cfg (s : State) : (deliverFrame s).cfg = s.cfg := rfl
@[simp] theorem deliverFrame_requests (s : State) : (deliverFrame s).requests = s.requests := rfl
@[simp] theorem deliverFrame_phase (s : State) : (deliverFrame s).phase = s.phase := rfl
@[simp] theorem deliverFrame_bare (s : State) : (deliverFrame s).bare = s.bare := rfl
@[simp] theorem deliverFrame_pending (s : State) : (deliverFrame s).pending = s.pending := rfl
@[simp] theorem deliverFrame_cellOffset (s : State) :
    (deliverFrame s).cellOffset = s.cellOffset := rfl
@[simp] theorem deliverFrame_buf (s : State) : (deliverFrame s).buf = s.buf := rfl
@[simp] theorem deliverFrame_cur (s : State) : (deliverFrame s).cur = s.cur := rfl
@[simp] theorem deliverFrame_index (s : State) : (deliverFrame s).index = s.index := rfl
@[simp] theorem deliverFrame_lowConfidence (s : State) :
    (deliverFrame s).lowConfidence = s.lowConfidence := rfl
@[simp] theorem deliverFrame_hdr (s : State) : (deliverFrame s).hdr = s.hdr := rfl
@[simp] theorem deliverFrame_destY (s : State) : (deliverFrame s).destY = s.destY := rfl
@[simp] theorem deliverFrame_linesDone (s : State) : (deliverFrame s).linesDone = s.linesDone := rfl
@[simp] theorem deliverFrame_lineLength (s : State) :
    (deliverFrame s).lineLength = s.lineLength := rfl
@[simp] theorem deliverFrame_lineStart (s : State) : (deliverFrame s).lineStart = s.lineStart := rfl
@[simp] theorem deliverFrame_lineEnd (s : State) : (deliverFrame s).lineEnd = s.lineEnd := rfl
@[simp] theorem deliverFrame_drawX (s : State) : (deliverFrame s).drawX = s.drawX := rfl
@[simp] theorem deliverFrame_row (s : State) : (deliverFrame s).row = s.row := rfl
@[simp] theorem deliverFrame_lat (s : State) : (deliverFrame s).lat = s.lat := rfl
@[simp] theorem deliverFrame_canvas (s : State) : (deliverFrame s).canvas = none := rfl
@[simp] theorem deliverFrame_frame (s : State) :
    (deliverFrame s).frame = if s.bare then s.frame else s.canvas := rfl
@[simp] theorem deliverFrame_callerFrame (s : State) : (deliverFrame s).callerFrame =
    if s.bare then s.canvas else s.callerFrame := rfl
@[simp] theorem deliverFrame_bounds (s : State) : (deliverFrame s).bounds = s.bounds := rfl
@[simp] theorem deliverFrame_chunky (s : State) : (deliverFrame s).chunky = s.chunky := rfl
@[simp] theorem deliverFrame_planes (s : State) : (deliverFrame s).planes = s.planes := rfl
@[simp] theorem deliverFrame_returnedFrames (s : State) : (deliverFrame s).returnedFrames =
    if s.bare then s.returnedFrames else s.canvas.toList ++ s.returnedFrames := rfl
@[simp] theorem deliverFrame_returnedPlanes (s : State) :
    (deliverFrame s).returnedPlanes = s.returnedPlanes := rfl
@[simp] theorem deliverFrame_out (s : State) : (deliverFrame s).out = s.out := rfl
@[simp] theorem deliverFrame_rle (s : State) : (deliverFrame s).rle = s.rle := rfl
@[simp] theorem deliverFrame_status (s : State) : (deliverFrame s).status = s.status := rfl
@[simp] theorem deliverFrame_freeCount (s : State) : (deliverFrame s).freeCount = s.freeCount := rfl

/-! ### `dropFrame` -/

@[simp] theorem dropFrame_cfg (s : State) : (dropFrame s).cfg = s.cfg := rfl
@[simp] theorem dropFrame_requests (s : State) : (dropFrame s).requests = s.requests := rfl
@[simp] theorem dropFrame_phase (s : State) : (dropFrame s).phase = s.phase := rfl
@[simp] theorem dropFrame_bare (s : State) : (dropFrame s).bare = s.bare := rfl
@[simp] theorem dropFrame_pending (s : State) : (dropFrame s).pending = s.pending := rfl
@[simp] theorem dropFrame_cellOffset (s : State) : (dropFrame s).cellOffset = s.cellOffset := rfl
@[simp] theorem dropFrame_buf (s : State) : (dropFrame s).buf = s.buf := rfl
@[simp] theorem dropFrame_cur (s : State) : (dropFrame s).cur = s.cur := rfl
@[simp] theorem dropFrame_index (s : State) : (dropFrame s).index = s.index := rfl
@[simp] theorem dropFrame_lowConfidence (s : State) :
    (dropFrame s).lowConfidence = s.lowConfidence := rfl
@[simp] theorem dropFrame_hdr (s : State) : (dropFrame s).hdr = s.hdr := rfl
@[simp] theorem dropFrame_destY (s : State) : (dropFrame s).destY = s.destY := rfl
@[simp] theorem dropFrame_linesDone (s : State) : (dropFrame s).linesDone = s.linesDone := rfl
@[simp] theorem dropFrame_lineLength (s : State) : (dropFrame s).lineLength = s.lineLength := rfl
@[simp] theorem dropFrame_lineStart (s : State) : (dropFrame s).lineStart = s.lineStart := rfl
@[simp] theorem dropFrame_lineEnd (s : State) : (dropFrame s).lineEnd = s.lineEnd := rfl
@[simp] theorem dropFrame_drawX (s : State) : (dropFrame s).drawX = s.drawX := rfl
@[simp] theorem dropFrame_row (s : State) : (dropFrame s).row = s.row := rfl
@[simp] theorem dropFrame_lat (s : State) : (dropFrame s).lat = s.lat := rfl
@[simp] theorem dropFrame_canvas (s : State) : (dropFrame s).canvas = none := rfl
@[simp] theorem dropFrame_frame (s : State) :
    (dropFrame s).frame = if s.bare then s.frame else none := rfl
@[simp] theorem dropFrame_callerFrame (s : State) : (dropFrame s).callerFrame =
    if s.bare then s.canvas.map (Frame.freed s.freeCount) else s.callerFrame := rfl
@[simp] theorem dropFrame_bounds (s : State) : (dropFrame s).bounds = s.bounds := rfl
@[simp] theorem dropFrame_chunky (s : State) : (dropFrame s).chunky = s.chunky := rfl
@[simp] theorem dropFrame_planes (s : State) : (dropFrame s).planes = s.planes := rfl
@[simp] theorem dropFrame_returnedFrames (s : State) :
    (dropFrame s).returnedFrames = s.returnedFrames := rfl
@[simp] theorem dropFrame_returnedPlanes (s : State) :
    (dropFrame s).returnedPlanes = s.returnedPlanes := rfl
@[simp] theorem dropFrame_out (s : State) : (dropFrame s).out = s.out := rfl
@[simp] theorem dropFrame_rle (s : State) : (dropFrame s).rle = s.rle := rfl
@[simp] theorem dropFrame_status (s : State) : (dropFrame s).status = s.status := rfl
@[simp] theorem dropFrame_freeCount (s : State) :
    (dropFrame s).freeCount = if s.bare then s.freeCount + 1 else s.freeCount := rfl

/-! ### `failCell` -/

@[simp] theorem failCell_cfg (s : State) : (failCell s).cfg = s.cfg := rfl
@[simp] theorem failCell_requests (s : State) : (failCell s).requests = s.requests := rfl
@[simp] theorem failCell_phase (s : State) : (failCell s).phase = .idle := rfl
@[simp] theorem failCell_bare (s : State) : (failCell s).bare = s.bare := rfl
@[simp] theorem failCell_pending (s : State) : (failCell s).pending = [] := rfl
@[simp] theorem failCell_cellOffset (s : State) : (failCell s).cellOffset = s.cellOffset := rfl
@[simp] theorem failCell_buf (s : State) : (failCell s).buf = s.buf := rfl
@[simp] theorem failCell_cur (s : State) : (failCell s).cur = s.cur := rfl
@[simp] theorem failCell_index (s : State) : (failCell s).index = s.index := rfl
@[simp] theorem failCell_lowConfidence (s : State) :
    (failCell s).lowConfidence = s.lowConfidence := rfl
@[simp] theorem failCell_hdr (s : State) : (failCell s).hdr = s.hdr := rfl
@[simp] theorem failCell_destY (s : State) : (failCell s).destY = s.destY := rfl
@[simp] theorem failCell_linesDone (s : State) : (failCell s).linesDone = s.linesDone := rfl
@[simp] theorem failCell_lineLength (s : State) : (failCell s).lineLength = s.lineLength := rfl
@[simp] theorem failCell_lineStart (s : State) : (failCell s).lineStart = s.lineStart := rfl
@[simp] theorem failCell_lineEnd (s : State) : (failCell s).lineEnd = s.lineEnd := rfl
@[simp] theorem failCell_drawX (s : State) : (failCell s).drawX = s.drawX := rfl
@[simp] theorem failCell_row (s : State) : (failCell s).row = s.row := rfl
@[simp] theorem failCell_lat (s : State) : (failCell s).lat = s.lat := rfl
@[simp] theorem failCell_canvas (s : State) : (failCell s).canvas = none := rfl
@[simp] theorem failCell_frame (s : State) :
    (failCell s).frame = if s.bare then s.frame else none := rfl
@[simp] theorem failCell_callerFrame (s : State) : (failCell s).callerFrame =
    if s.bare then s.canvas.map (Frame.freed s.freeCount) else s.callerFrame := rfl
@[simp] theorem failCell_bounds (s : State) : (failCell s).bounds = s.bounds := rfl
@[simp] theorem failCell_chunky (s : State) : (failCell s).chunky = s.chunky := rfl
@[simp] theorem failCell_planes (s : State) : (failCell s).planes = s.planes := rfl
@[simp] theorem failCell_returnedFrames (s : State) :
    (failCell s).returnedFrames = s.returnedFrames := rfl
@[simp] theorem failCell_returnedPlanes (s : State) :
    (failCell s).returnedPlanes = s.returnedPlanes := rfl
@[simp] theorem failCell_out (s : State) : (failCell s).out = s.out := rfl
@[simp] theorem failCell_rle (s : State) : (failCell s).rle = s.rle := rfl
@[simp] theorem failCell_status (s : State) :
    (failCell s).status = .malformedCell s.cellOffset := rfl
@[simp] theorem failCell_freeCount (s : State) :
    (failCell s).freeCount = if s.bare then s.freeCount + 1 else s.freeCount := rfl

/-! ### `failRle` -/

@[simp] theorem failRle_cfg (e : BoundsInfo) (s : State) : (failRle e s).cfg = s.cfg := rfl
@[simp] theorem failRle_requests (e : BoundsInfo) (s : State) :
    (failRle e s).requests = s.requests := rfl
@[simp] theorem failRle_phase (e : BoundsInfo) (s : State) : (failRle e s).phase = .idle := rfl
@[simp] theorem failRle_bare (e : BoundsInfo) (s : State) : (failRle e s).bare = s.bare := rfl
@[simp] theorem failRle_pending (e : BoundsInfo) (s : State) : (failRle e s).pending = [] := rfl
@[simp] theorem failRle_cellOffset (e : BoundsInfo) (s : State) :
    (failRle e s).cellOffset = s.cellOffset := rfl
@[simp] theorem failRle_buf (e : BoundsInfo) (s : State) : (failRle e s).buf = s.buf := rfl
@[simp] theorem failRle_cur (e : BoundsInfo) (s : State) : (failRle e s).cur = s.cur := rfl
@[simp] theorem failRle_index (e : BoundsInfo) (s : State) : (failRle e s).index = s.index := rfl
@[simp] theorem failRle_lowConfidence (e : BoundsInfo) (s : State) :
    (failRle e s).lowConfidence = s.lowConfidence := rfl
@[simp] theorem failRle_hdr (e : BoundsInfo) (s : State) : (failRle e s).hdr = s.hdr := rfl
@[simp] theorem failRle_destY (e : BoundsInfo) (s : State) : (failRle e s).destY = s.destY := rfl
@[simp] theorem failRle_linesDone (e : BoundsInfo) (s : State) :
    (failRle e s).linesDone = s.linesDone := rfl
@[simp] theorem failRle_lineLength (e : BoundsInfo) (s : State) :
    (failRle e s).lineLength = s.lineLength := rfl
@[simp] theorem failRle_lineStart (e : BoundsInfo) (s : State) :
    (failRle e s).lineStart = s.lineStart := rfl
@[simp] theorem failRle_lineEnd (e : BoundsInfo) (s : State) :
    (failRle e s).lineEnd = s.lineEnd := rfl
@[simp] theorem failRle_drawX (e : BoundsInfo) (s : State) : (failRle e s).drawX = s.drawX := rfl
@[simp] theorem failRle_row (e : BoundsInfo) (s : State) : (failRle e s).row = s.row := rfl
@[simp] theorem failRle_lat (e : BoundsInfo) (s : State) : (failRle e s).lat = s.lat := rfl
@[simp] theorem failRle_canvas (e : BoundsInfo) (s : State) : (failRle e s).canvas = s.canvas := rfl
@[simp] theorem failRle_frame (e : BoundsInfo) (s : State) : (failRle e s).frame = s.frame := rfl
@[simp] theorem failRle_callerFrame (e : BoundsInfo) (s : State) :
    (failRle e s).callerFrame = s.callerFrame := rfl
@[simp] theorem failRle_bounds (e : BoundsInfo) (s : State) : (failRle e s).bounds = s.bounds := rfl
@[simp] theorem failRle_chunky (e : BoundsInfo) (s : State) : (failRle e s).chunky = s.chunky := rfl
@[simp] theorem failRle_planes (e : BoundsInfo) (s : State) : (failRle e s).planes = s.planes := rfl
@[simp] theorem failRle_returnedFrames (e : BoundsInfo) (s : State) :
    (failRle e s).returnedFrames = s.returnedFrames := rfl
@[simp] theorem failRle_returnedPlanes (e : BoundsInfo) (s : State) :
    (failRle e s).returnedPlanes = s.returnedPlanes := rfl
@[simp] theorem failRle_out (e : BoundsInfo) (s : State) : (failRle e s).out = [] := rfl
@[simp] theorem failRle_rle (e : BoundsInfo) (s : State) : (failRle e s).rle = s.rle := rfl
@[simp] theorem failRle_status (e : BoundsInfo) (s : State) :
    (failRle e s).status = .boundsError e := rfl
@[simp] theorem failRle_freeCount (e : BoundsInfo) (s : State) :
    (failRle e s).freeCount = s.freeCount := rfl

end Sys2Proof.Machine
end

