-- ==== Sys2Proof/Laws/Draw.lean ====
section
/-! SUPPORT. What emission and the blit do to the samples, and that they keep the canonical form. -/

namespace Sys2Proof.Machine

/-- The row after an emission, column by column: kept pixels in their columns, the rest as before. -/
theorem sampleAt_emitRow (width : Nat) (vs : List Byte) (x : Nat) (row : List Host.Cell) (c : Nat) :
    sampleAt (emitRow width vs x row) c =
      if x ≤ c ∧ c < x + vs.length ∧ c < width then .Px (vs.getD (c - x) 0) else sampleAt row c := by
  induction vs generalizing x row with
  | nil => simp only [emitRow, List.length_nil]; rw [if_neg (by omega)]
  | cons v vs ih =>
    simp only [emitRow, ih, List.length_cons]
    by_cases hc : c = x
    · subst hc
      rw [if_neg (by omega)]
      by_cases hw : c < width
      · rw [if_pos hw, sampleAt_put, if_pos rfl, if_pos ⟨by omega, by omega, hw⟩]; simp
      · rw [if_neg hw, if_neg (fun h => hw h.2.2)]
    · by_cases h : x + 1 ≤ c ∧ c < x + 1 + vs.length ∧ c < width
      · rw [if_pos h, if_pos ⟨by omega, by omega, h.2.2⟩]
        have e : c - x = (c - (x + 1)) + 1 := by omega
        rw [e, List.getD_cons_succ]
      · rw [if_neg h,
          if_neg (show ¬ (x ≤ c ∧ c < x + (vs.length + 1) ∧ c < width) by omega)]
        split
        · rw [sampleAt_put, if_neg hc]
        · rfl

theorem emitRow_rise {width : Nat} (vs : List Byte) (x : Nat) {row : List Host.Cell}
    (h : cellsRise width 0 row = true) : cellsRise width 0 (emitRow width vs x row) = true := by
  induction vs generalizing x row with
  | nil => exact h
  | cons v vs ih =>
    simp only [emitRow]
    split
    · rename_i hx; exact ih _ (cellsRise_put v hx (Nat.zero_le _) h)
    · exact ih _ h

/-- Emission says all of `Draws` with the pixels of the list. -/
theorem draws_emitAll (vs : List Byte) (s : State) :
    Draws s (emitAll vs s) vs.length (fun j => vs.getD j 0) :=
  ⟨rfl, fun c => sampleAt_emitRow _ vs _ _ c⟩

/-! ### The blit -/

@[simp] theorem blitColumn_w (row : List Host.Cell) (hdr : CellHeader) (y : Nat) (f : Frame)
    (c : Nat) : (blitColumn row hdr y f c).w = f.w := by
  simp only [blitColumn]; split <;> [rfl; (split <;> rfl)]

@[simp] theorem blitColumn_h (row : List Host.Cell) (hdr : CellHeader) (y : Nat) (f : Frame)
    (c : Nat) : (blitColumn row hdr y f c).h = f.h := by
  simp only [blitColumn]; split <;> [rfl; (split <;> rfl)]

theorem blitColumn_wf {row : List Host.Cell} {hdr : CellHeader} {y : Nat} {f : Frame} (c : Nat)
    (h : f.wf = true) : (blitColumn row hdr y f c).wf = true := by
  simp only [blitColumn]
  split
  · exact h
  · split
    · rename_i hin; exact Frame.draw_wf _ hin.1 hin.2 h
    · exact h

theorem blitColumn_sample {row : List Host.Cell} {hdr : CellHeader} {y : Nat} {f : Frame} {c x' y' : Nat}
    (hx' : x' < f.w) (hy' : y' < f.h) :
    (blitColumn row hdr y f c).sample x' y' =
      if y' = y ∧ x' = hdr.xOffset.toNat + c ∧ sampleAt row c ≠ .T then sampleAt row c
      else f.sample x' y' := by
  simp only [blitColumn]
  cases hs : sampleAt row c with
  | T => simp
  | Px v =>
    simp only []
    by_cases hin : hdr.xOffset.toNat + c < f.w ∧ y < f.h
    · rw [if_pos hin, Frame.draw_sample v hin.1 hx']
      by_cases e : x' = hdr.xOffset.toNat + c ∧ y' = y
      · rw [if_pos e, if_pos ⟨e.2, e.1, by simp⟩]
      · rw [if_neg e, if_neg (fun h => e ⟨h.2.1, h.1⟩)]
    · rw [if_neg hin, if_neg]
      rintro ⟨rfl, rfl, -⟩
      exact hin ⟨hx', hy'⟩

/-- The blit of the first `n` columns, as a fold. -/
theorem blitColumns_spec (row : List Host.Cell) (hdr : CellHeader) (y : Nat) (f : Frame) (n : Nat) :
    let g := (List.range n).foldl (blitColumn row hdr y) f
    g.w = f.w ∧ g.h = f.h ∧ (f.wf = true → g.wf = true) ∧
      ∀ x' y', x' < f.w → y' < f.h →
        g.sample x' y' =
          if y' = y ∧ hdr.xOffset.toNat ≤ x' ∧ x' - hdr.xOffset.toNat < n ∧
              sampleAt row (x' - hdr.xOffset.toNat) ≠ .T then
            sampleAt row (x' - hdr.xOffset.toNat)
          else f.sample x' y' := by
  induction n with
  | zero => exact ⟨rfl, rfl, id, fun x' y' _ _ => by simp⟩
  | succ n ih =>
    obtain ⟨hw, hh, hwf, hs⟩ := ih
    simp only [List.range_succ, List.foldl_append, List.foldl_cons, List.foldl_nil]
    refine ⟨by simp [hw], by simp [hh], fun h => blitColumn_wf _ (hwf h), fun x' y' hx' hy' => ?_⟩
    rw [blitColumn_sample (by rw [hw]; exact hx') (by rw [hh]; exact hy'), hs x' y' hx' hy']
    by_cases e : x' = hdr.xOffset.toNat + n
    · subst e
      have e1 : hdr.xOffset.toNat + n - hdr.xOffset.toNat = n := by omega
      simp only [e1, Nat.lt_irrefl, Nat.le_add_right, true_and, false_and, and_false, if_false,
        Nat.lt_succ_self]
    · have e1 : ∀ P : Prop, (hdr.xOffset.toNat ≤ x' ∧ x' - hdr.xOffset.toNat < n ∧ P) ↔
          (hdr.xOffset.toNat ≤ x' ∧ x' - hdr.xOffset.toNat < n + 1 ∧ P) := by
        intro P; constructor
        · rintro ⟨h1, h2, h3⟩; exact ⟨h1, by omega, h3⟩
        · rintro ⟨h1, h2, h3⟩; exact ⟨h1, by omega, h3⟩
      simp only [e, false_and, and_false, if_false, e1]

theorem blit_wf {row : List Host.Cell} {hdr : CellHeader} {y : Nat} {f : Frame} (h : f.wf = true) :
    (blit row hdr y f).wf = true := (blitColumns_spec row hdr y f _).2.2.1 h

@[simp] theorem blit_w (row : List Host.Cell) (hdr : CellHeader) (y : Nat) (f : Frame) :
    (blit row hdr y f).w = f.w := (blitColumns_spec row hdr y f _).1

@[simp] theorem blit_h (row : List Host.Cell) (hdr : CellHeader) (y : Nat) (f : Frame) :
    (blit row hdr y f).h = f.h := (blitColumns_spec row hdr y f _).2.1

end Sys2Proof.Machine
end

