-- ==== Sys2Proof/Laws/Encoding.lean ====
section
/-! SUPPORT. The bits of the encoded bytes: what each field of an opcode or tag byte reads as, and
that the fields make up the byte. -/

namespace Sys2Proof

/-- The fields of an opcode byte of formats L and N (R71). -/
theorem opcode_fields : ∀ (cmd : BitVec 3) (n : BitVec 5),
    (cmd ++ n : Byte).getLsbD 7 = cmd.getLsbD 2 ∧ (cmd ++ n : Byte).getLsbD 6 = cmd.getLsbD 1 ∧
      (cmd ++ n : Byte).getLsbD 5 = cmd.getLsbD 0 ∧ field 0 5 (cmd ++ n) = n ∧
      (cmd ++ n : Byte).toNat = 32 * cmd.toNat + n.toNat := by decide +kernel

/-- The fields of an opcode byte of format P (R71). -/
theorem pattern_fields : ∀ (cmd : BitVec 3) (ss : BitVec 2) (p : BitVec 3),
    (cmd ++ ss ++ p : Byte).getLsbD 7 = cmd.getLsbD 2 ∧
      (cmd ++ ss ++ p : Byte).getLsbD 6 = cmd.getLsbD 1 ∧
      (cmd ++ ss ++ p : Byte).getLsbD 5 = cmd.getLsbD 0 ∧
      field 3 2 (cmd ++ ss ++ p) = ss ∧ field 0 3 (cmd ++ ss ++ p) = p := by decide +kernel

/-- The fields of an RLE tag (R81). -/
theorem tag_fields : ∀ (form : BitVec 1) (r : BitVec 7),
    (form ++ r : Byte).getLsbD 7 = form.getLsbD 0 ∧ field 0 7 (form ++ r) = r ∧
      (form ++ r : Byte).toNat = 128 * form.toNat + r.toNat := by decide +kernel

/-- A byte is made up of its fields, whichever format is read. -/
theorem byte_of_fields : ∀ b : Byte,
    (BitVec.ofBool (b.getLsbD 7) ++ BitVec.ofBool (b.getLsbD 6) ++ BitVec.ofBool (b.getLsbD 5) ++
        field 0 5 b : Byte) = b ∧
      (BitVec.ofBool (b.getLsbD 7) ++ BitVec.ofBool (b.getLsbD 6) ++ BitVec.ofBool (b.getLsbD 5) ++
        field 3 2 b ++ field 0 3 b : Byte) = b ∧
      (BitVec.ofBool (b.getLsbD 7) ++ field 0 7 b : Byte) = b := by decide +kernel

theorem u16le_toNat (b0 b1 : Byte) : (u16le b0 b1).toNat = b0.toNat + 256 * b1.toNat := by
  have h0 := b0.isLt
  have h1 := b1.isLt
  simp only [u16le, BitVec.toNat_ofNat]
  omega

/-- The two bytes of a 16-bit field are its low and its high byte (R54). -/
theorem le16_u16le (b0 b1 : Byte) : le16 (u16le b0 b1) = [b0, b1] := by
  have h0 := b0.isLt
  have h1 := b1.isLt
  simp only [le16, u16le_toNat, List.cons.injEq, and_true]
  constructor <;> (apply BitVec.eq_of_toNat_eq; simp only [BitVec.toNat_ofNat]; omega)

theorem u16le_le16 (v : Half) :
    u16le (BitVec.ofNat 8 v.toNat) (BitVec.ofNat 8 (v.toNat / 256)) = v := by
  have h := v.isLt
  apply BitVec.eq_of_toNat_eq
  rw [u16le_toNat]
  simp only [BitVec.toNat_ofNat]
  omega

end Sys2Proof
end

