-- ==== Sys2Proof/Laws/Exec.lean ====
section
/-! SUPPORT. One lemma for each meaning and outcome: what it answers when its reads stay in the
buffer, and that it ends the operation when they do not. -/

namespace Sys2Proof.Machine

/-! ### Opcode bytes -/

@[simp] theorem opcodeByte_lit0 (n : BitVec 5) : (opcodeByte (.lit0 n)).toNat = n.toNat := by
  have h := (opcode_fields 0b000#3 n).2.2.2.2
  simpa [opcodeByte, encode] using h

@[simp] theorem opcodeByte_lit1 (n : BitVec 5) : (opcodeByte (.lit1 n)).toNat = 32 + n.toNat := by
  have h := (opcode_fields 0b001#3 n).2.2.2.2
  simpa [opcodeByte, encode] using h

theorem opSel_patu (ss : BitVec 2) (p : BitVec 3) (seed : Byte) :
    (opSel (opcodeByte (.patu ss p seed))).toNat = ss.toNat ∧
      opPattLen (opcodeByte (.patu ss p seed)) = p := by
  revert ss p; simp only [opcodeByte, encode, List.headD_cons]; decide +kernel

theorem opSel_patd (ss : BitVec 2) (p : BitVec 3) (seed : Byte) :
    (opSel (opcodeByte (.patd ss p seed))).toNat = 4 + ss.toNat ∧
      opPattLen (opcodeByte (.patd ss p seed)) = p := by
  revert ss p; simp only [opcodeByte, encode, List.headD_cons]; decide +kernel

@[simp] theorem pairPixels_length (a b : Byte) (n : Nat) : (pairPixels a b n).length = 2 * n := by
  induction n with
  | zero => rfl
  | succ n ih => simp only [pairPixels, List.length_cons, ih]; omega

@[simp] theorem patternPixels_length (st : Vector Int 16) (sel : BitVec 3) (n i : Nat) (v : Byte) :
    (patternPixels st sel n i v).length = n := by
  induction n generalizing i v with
  | zero => rfl
  | succ n ih => simp only [patternPixels, List.length_cons, ih]

/-! ### An instruction always answers a next state -/

theorem orFailCell_next (s : State) (r : Except BoundsInfo State) :
    ∃ t, orFailCell s r = .next t := by
  cases r <;> exact ⟨_, rfl⟩

theorem orFailRle_next (s : State) (r : Except BoundsInfo State) : ∃ t, orFailRle s r = .next t := by
  cases r <;> exact ⟨_, rfl⟩

theorem exec_next (i : Instr) (s : State) : ∃ t, exec i s = .next t := by
  cases i with
  | rleRun r v => exact orFailRle_next _ _
  | rleLit m => exact orFailRle_next _ _
  | _ => exact orFailCell_next _ _

/-! ### The two failures say all that the claims ask of them -/

theorem failCell_fails (s : State) : CellFails s (failCell s) := by
  refine ⟨rfl, fun h => ?_, fun h => ?_⟩
  · simp [h]
  · simp only [failCell_frame, failCell_callerFrame, h, if_true, Option.map_map, true_and]
    exact congrArg (s.canvas.map ·) rfl

theorem failRle_fails (info : BoundsInfo) (s : State) : RleFails s (failRle info s) := ⟨info, rfl⟩

/-! ### Cell operations -/

/-- The bytes a literal run takes after its opcode byte (R106). -/
theorem literalRun_ok {op : Byte} {s : State}
    (h : s.cur.pos + 1 + min (litCount op) (s.lineEnd - (s.cur.pos + 1)) ≤ s.cur.buf.len) :
    literalRun op s = .ok (emitAll
      (s.cur.buf.readList (s.cur.pos + 1) (min (litCount op) (s.lineEnd - (s.cur.pos + 1))))
      { s with
        cur := { s.cur with
          pos := s.cur.pos + 1 + min (litCount op) (s.lineEnd - (s.cur.pos + 1)) }
        lat := { s.lat with op := op } }) := by
  simp only [literalRun, bind, Except.bind, Cursor.read_ok (c := s.cur) (n := 1) (by omega),
    Cursor.tell]
  rw [Cursor.read_ok (by simpa using h)]
  rfl

theorem literalRun_short {op : Byte} {s : State}
    (h : s.cur.buf.len < s.cur.pos + 1 + min (litCount op) (s.lineEnd - (s.cur.pos + 1))) :
    ∃ e, literalRun op s = .error e := by
  by_cases h1 : s.cur.pos + 1 ≤ s.cur.buf.len
  · refine ⟨.read (s.cur.pos + 1) (min (litCount op) (s.lineEnd - (s.cur.pos + 1))), ?_⟩
    simp only [literalRun, bind, Except.bind, Cursor.read_ok h1, Cursor.tell]
    rw [Cursor.read_short (by simpa using h)]
  · refine ⟨.read s.cur.pos 1, ?_⟩
    simp only [literalRun, bind, Except.bind, Cursor.read_short (c := s.cur) (n := 1) (by omega)]

theorem execRep_ok {len5 : BitVec 5} {v : Byte} {s : State} (h : s.cur.pos + 2 ≤ s.cur.buf.len) :
    execRep len5 v s = .next (emitAll (List.replicate (repCount len5) v)
      { s with
        cur := { s.cur with pos := s.cur.pos + 2 }
        lat := { s.lat with op := opcodeByte (.rep len5 v), v := v } }) := by
  simp only [execRep, bind, Except.bind, Cursor.read_ok h]; rfl

theorem execRep_short {len5 : BitVec 5} {v : Byte} {s : State} (h : s.cur.buf.len < s.cur.pos + 2) :
    execRep len5 v s = .next (failCell s) := by
  simp only [execRep, bind, Except.bind, Cursor.read_short h]; rfl

theorem execPair_ok {len5 : BitVec 5} {a b : Byte} {s : State}
    (h : s.cur.pos + 3 ≤ s.cur.buf.len) :
    execPair len5 a b s = .next (emitAll (pairPixels a b (pairCount len5))
      { s with
        cur := { s.cur with pos := s.cur.pos + 3 }
        lat := { s.lat with op := opcodeByte (.pair len5 a b), a := a, b := b } }) := by
  simp only [execPair, bind, Except.bind, Cursor.read_ok h]; rfl

theorem execPair_short {len5 : BitVec 5} {a b : Byte} {s : State}
    (h : s.cur.buf.len < s.cur.pos + 3) : execPair len5 a b s = .next (failCell s) := by
  simp only [execPair, bind, Except.bind, Cursor.read_short h]; rfl

theorem execGap_ok {len5 : BitVec 5} {s : State} (h : s.cur.pos + 1 ≤ s.cur.buf.len) :
    execGap len5 s = .next { s with
      cur := { s.cur with pos := s.cur.pos + 1 }
      drawX := s.drawX + gapCount len5
      lat := { s.lat with op := opcodeByte (.gap len5) } } := by
  simp only [execGap, bind, Except.bind, Cursor.read_ok h]; rfl

theorem execGap_short {len5 : BitVec 5} {s : State} (h : s.cur.buf.len < s.cur.pos + 1) :
    execGap len5 s = .next (failCell s) := by
  simp only [execGap, bind, Except.bind, Cursor.read_short h]; rfl

theorem patternFill_ok {op seed : Byte} {s : State} (h : s.cur.pos + 2 ≤ s.cur.buf.len) :
    patternFill op seed s = .ok (emitAll
      (patternPixels s.cfg.patternSteps (opSel op) (pattCount (opPattLen op)) 0 seed)
      { s with
        cur := { s.cur with pos := s.cur.pos + 2 }
        lat := { s.lat with
          op := op
          val := patternVal s.cfg.patternSteps (opSel op) (pattCount (opPattLen op)) 0 seed
          i := pattCount (opPattLen op) - 1 } }) := by
  simp only [patternFill, bind, Except.bind, Cursor.read_ok h]; rfl

theorem patternFill_short {op seed : Byte} {s : State} (h : s.cur.buf.len < s.cur.pos + 2) :
    patternFill op seed s = .error (.read s.cur.pos 2) := by
  simp only [patternFill, bind, Except.bind, Cursor.read_short h]

/-- COPY runs exactly when its field and its source lie in the buffer (R109). -/
theorem execCopy_ok {len5 : BitVec 5} {back : Half} {s : State} (h : s.cur.pos + 3 ≤ s.cur.buf.len)
    (h0 : back.toNat ≤ s.cur.pos + 3)
    (h1 : s.cur.pos + 3 - back.toNat + copyCount len5 ≤ s.cur.buf.len) :
    execCopy len5 back s = .next (emitAll
      (s.cur.buf.readList (s.cur.pos + 3 - back.toNat) (copyCount len5))
      { s with
        cur := { s.cur with pos := s.cur.pos + 3 }
        lat := { s.lat with
          op := opcodeByte (.copy len5 back), back := back, retPos := s.cur.pos + 3 } }) := by
  simp only [execCopy, bind, Except.bind, Cursor.read_ok h, Cursor.tell]
  rw [Cursor.seek_ok (by simp [Cursor.base]; omega) (by simp [Cursor.base]; omega)]
  have e : (((s.cur.pos + 3 : Nat) : Int) + -(back.toNat : Int)).toNat =
      s.cur.pos + 3 - back.toNat := by omega
  simp only [Cursor.base, e]
  rw [Cursor.read_ok (by simpa using h1)]
  simp only []
  rw [Cursor.seek_ok (by simp [Cursor.base]; omega) (by simp [Cursor.base]; omega)]
  simp only [Cursor.base, Int.toNat_natCast, Int.ofNat_zero, Int.zero_add]
  rfl

theorem execCopy_short {len5 : BitVec 5} {back : Half} {s : State}
    (h : s.cur.buf.len < s.cur.pos + 3 ∨ s.cur.pos + 3 < back.toNat ∨
      s.cur.buf.len < s.cur.pos + 3 - back.toNat + copyCount len5) :
    execCopy len5 back s = .next (failCell s) := by
  by_cases hp : s.cur.pos + 3 ≤ s.cur.buf.len
  · simp only [execCopy, bind, Except.bind, Cursor.read_ok hp, Cursor.tell]
    by_cases hb : back.toNat ≤ s.cur.pos + 3
    · rw [Cursor.seek_ok (by simp [Cursor.base]; omega) (by simp [Cursor.base]; omega)]
      have e : (((s.cur.pos + 3 : Nat) : Int) + -(back.toNat : Int)).toNat =
          s.cur.pos + 3 - back.toNat := by omega
      simp only [Cursor.base, e]
      rw [Cursor.read_short (by simp; omega)]
      rfl
    · rw [Cursor.seek_out (by simp [Cursor.base]; omega)]
      rfl
  · simp only [execCopy, bind, Except.bind, Cursor.read_short (c := s.cur) (n := 3) (by omega)]
    rfl

/-! ### Records -/

theorem execVgap_ok {k : Byte} {s : State} (h : s.cur.pos + 2 ≤ s.cur.buf.len) :
    execVgap k s = .next { s with
      cur := { s.cur with pos := s.cur.pos + 2 }
      lineLength := 0
      destY := s.destY + k.toNat + 1
      linesDone := s.linesDone + gapLinesOf s.cfg.gapLines k } := by
  simp only [execVgap, bind, Except.bind, Cursor.read_ok h]; rfl

theorem execVgap_short {k : Byte} {s : State} (h : s.cur.buf.len < s.cur.pos + 2) :
    execVgap k s = .next (failCell s) := by
  simp only [execVgap, bind, Except.bind, Cursor.read_short h]; rfl

theorem execLine_ok {l x : Byte} {s : State} (h : s.cur.pos + 2 ≤ s.cur.buf.len) :
    execLine l x s = .next { s with
      cur := { s.cur with pos := s.cur.pos + 2 }
      lineLength := l
      lineStart := s.cur.pos + 1
      lineEnd := s.cur.pos + 1 + l.toNat
      row := []
      drawX := x.toNat
      phase := .ops } := by
  simp only [execLine, bind, Except.bind, Cursor.read_ok (c := s.cur) (n := 1) (by omega), Cursor.tell]
  rw [Cursor.read_ok (by simp only []; omega)]
  rfl

theorem execLine_short {l x : Byte} {s : State} (h : s.cur.buf.len < s.cur.pos + 2) :
    execLine l x s = .next (failCell s) := by
  by_cases h1 : s.cur.pos + 1 ≤ s.cur.buf.len
  · simp only [execLine, bind, Except.bind, Cursor.read_ok h1, Cursor.tell]
    rw [Cursor.read_short (by simp only []; omega)]
    rfl
  · simp only [execLine, bind, Except.bind, Cursor.read_short (c := s.cur) (n := 1) (by omega)]
    rfl

theorem readHeader_ok {off : Nat} {s : State} (h : off + 8 ≤ s.cur.buf.len) :
    readHeader off s = .ok { s with
      cur := { s.cur with pos := off + 8 }
      hdr := headerAt s.cur.buf off
      destY := (headerAt s.cur.buf off).yOffset.toNat
      linesDone := 0
      phase := .record } := by
  simp only [readHeader, bind, Except.bind, Cursor.header_ok h]; rfl

theorem readHeader_short {off : Nat} {s : State} (h : s.cur.buf.len < off + 8) :
    ∃ e, readHeader off s = .error e := by
  cases hc : s.cur.header off with
  | error e => exact ⟨e, by simp only [readHeader, bind, Except.bind, hc]⟩
  | ok p =>
    obtain ⟨hdr, c⟩ := p
    have := (Cursor.header_cases hc).1
    omega

/-! ### RLE records -/

theorem execRleRun_ok {r : BitVec 7} {v : Byte} {s : State} (h : s.cur.pos + 2 ≤ s.cur.buf.len) :
    execRleRun r v s = .next { s with
      cur := { s.cur with pos := s.cur.pos + 2 }
      out := s.out ++ List.replicate r.toNat v } := by
  simp only [execRleRun, bind, Except.bind, Cursor.read_ok h]; rfl

theorem execRleRun_short {r : BitVec 7} {v : Byte} {s : State} (h : s.cur.buf.len < s.cur.pos + 2) :
    execRleRun r v s = .next (failRle (.read s.cur.pos 2) s) := by
  simp only [execRleRun, bind, Except.bind, Cursor.read_short h]; rfl

theorem execRleLit_ok {m : BitVec 7} {s : State} (h : s.cur.pos + 1 + m.toNat ≤ s.cur.buf.len) :
    execRleLit m s = .next { s with
      cur := { s.cur with pos := s.cur.pos + 1 + m.toNat }
      out := s.out ++ s.cur.buf.readList (s.cur.pos + 1) m.toNat } := by
  simp only [execRleLit, bind, Except.bind, Cursor.read_ok (c := s.cur) (n := 1) (by omega)]
  rw [Cursor.read_ok (by simpa using h)]
  rfl

theorem execRleLit_short {m : BitVec 7} {s : State} (h : s.cur.buf.len < s.cur.pos + 1 + m.toNat) :
    ∃ info, execRleLit m s = .next (failRle info s) := by
  by_cases h1 : s.cur.pos + 1 ≤ s.cur.buf.len
  · refine ⟨.read (s.cur.pos + 1) m.toNat, ?_⟩
    simp only [execRleLit, bind, Except.bind, Cursor.read_ok h1]
    rw [Cursor.read_short (by simpa using h)]
    rfl
  · refine ⟨.read s.cur.pos 1, ?_⟩
    simp only [execRleLit, bind, Except.bind, Cursor.read_short (c := s.cur) (n := 1) (by omega)]
    rfl

end Sys2Proof.Machine
end

