-- ==== Sys2Proof/Laws/Inversion.lean ====
section
/-! SUPPORT. What an operation of a line record can do, said once: the inversion the invariants are
proved from. -/

namespace Sys2Proof.Machine

/-- Two states agree on everything an operation's effect is computed from (R105). -/
structure SameLine (s s' : State) : Prop where
  cur : s'.cur = s.cur
  lineEnd : s'.lineEnd = s.lineEnd
  drawX : s'.drawX = s.drawX
  row : s'.row = s.row
  width : s'.hdr.width = s.hdr.width
  steps : s'.cfg.patternSteps = s.cfg.patternSteps

theorem SameLine.refl (s : State) : SameLine s s := ⟨rfl, rfl, rfl, rfl, rfl, rfl⟩

/-- What an operation that runs to its end does: the new position, draw position and row, and the
change of the latches. -/
structure OpEffect (s : State) where
  pos : Nat
  drawX : Nat
  row : List Host.Cell
  lat : Latches → Latches
  pos_gt : s.cur.pos < pos
  pos_le : pos ≤ s.cur.buf.len
  pos_line : s.cur.pos < s.lineEnd → pos ≤ s.lineEnd + 2
  draw_ge : s.drawX ≤ drawX
  draw_le : drawX ≤ s.drawX + 32 * (pos - s.cur.pos)
  rise : cellsRise s.hdr.width.toNat 0 s.row = true → cellsRise s.hdr.width.toNat 0 row = true

/-- The state after the effect. -/
def OpEffect.apply {s : State} (e : OpEffect s) (s' : State) : State :=
  { s' with cur := { s'.cur with pos := e.pos }, drawX := e.drawX, row := e.row, lat := e.lat s'.lat }

/-- The instruction either ends the cell as malformed, or has one effect, the same in every state
that agrees with `s` on the line. -/
def OpRuns (i : Instr) (s : State) : Prop :=
  (∀ s', SameLine s s' → exec i s' = .next (failCell s')) ∨
    ∃ e : OpEffect s, ∀ s', SameLine s s' → exec i s' = .next (e.apply s')

/-- The effect of an emission of `vs` that moves the cursor to `p`. -/
def emitEffect (s : State) (vs : List Byte) (p : Nat) (lat : Latches → Latches)
    (h : s.cur.pos < p) (hle : p ≤ s.cur.buf.len) (hline : s.cur.pos < s.lineEnd → p ≤ s.lineEnd + 2)
    (hn : vs.length ≤ 32 * (p - s.cur.pos)) : OpEffect s where
  pos := p
  drawX := s.drawX + vs.length
  row := emitRow s.hdr.width.toNat vs s.drawX s.row
  lat := lat
  pos_gt := h
  pos_le := hle
  pos_line := hline
  draw_ge := by omega
  draw_le := by omega
  rise := emitRow_rise vs _

theorem literalRun_runs {op : Byte} {i : Instr} (hx : ∀ s, exec i s = orFailCell s (literalRun op s))
    (s : State) : OpRuns i s := by
  by_cases h : s.cur.pos + 1 + min (litCount op) (s.lineEnd - (s.cur.pos + 1)) ≤ s.cur.buf.len
  · refine .inr ⟨emitEffect s
      (s.cur.buf.readList (s.cur.pos + 1) (min (litCount op) (s.lineEnd - (s.cur.pos + 1))))
      (s.cur.pos + 1 + min (litCount op) (s.lineEnd - (s.cur.pos + 1)))
      (fun l => { l with op := op }) (by omega) h (by omega) (by simp; omega), fun s' hs => ?_⟩
    rw [hx, literalRun_ok (by rw [hs.cur, hs.lineEnd]; exact h)]
    simp only [orFailCell, OpEffect.apply, emitEffect, emitAll, hs.cur, hs.lineEnd, hs.drawX, hs.row,
      hs.width]
  · refine .inl fun s' hs => ?_
    obtain ⟨e, he⟩ := literalRun_short (op := op) (s := s') (by rw [hs.cur, hs.lineEnd]; omega)
    rw [hx, he]; rfl

theorem patternFill_runs {op seed : Byte} {i : Instr}
    (hx : ∀ s, exec i s = orFailCell s (patternFill op seed s)) (s : State) : OpRuns i s := by
  by_cases h : s.cur.pos + 2 ≤ s.cur.buf.len
  · refine .inr ⟨emitEffect s
      (patternPixels s.cfg.patternSteps (opSel op) (pattCount (opPattLen op)) 0 seed)
      (s.cur.pos + 2)
      (fun l => { l with
        op := op
        val := patternVal s.cfg.patternSteps (opSel op) (pattCount (opPattLen op)) 0 seed
        i := pattCount (opPattLen op) - 1 }) (by omega) h (by omega)
      (by have := (opPattLen op).isLt; simp [pattCount]; omega), fun s' hs => ?_⟩
    rw [hx, patternFill_ok (by rw [hs.cur]; exact h)]
    simp only [orFailCell, OpEffect.apply, emitEffect, emitAll, hs.cur, hs.drawX, hs.row, hs.width,
      hs.steps]
  · refine .inl fun s' hs => ?_
    rw [hx, patternFill_short (by rw [hs.cur]; omega)]; rfl

/-- Every operation of a line record runs so. -/
theorem exec_operation {i : Instr} (hi : i.space = .operation) (s : State) : OpRuns i s := by
  cases i with
  | lit0 n => exact literalRun_runs (fun _ => rfl) s
  | lit1 n => exact literalRun_runs (fun _ => rfl) s
  | rep l v =>
    by_cases h : s.cur.pos + 2 ≤ s.cur.buf.len
    · refine .inr ⟨emitEffect s (List.replicate (repCount l) v) (s.cur.pos + 2)
        (fun lt => { lt with op := opcodeByte (.rep l v), v := v }) (by omega) h (by omega)
        (by have := l.isLt; simp [repCount]; omega), fun s' hs => ?_⟩
      simp only [exec]
      rw [execRep_ok (by rw [hs.cur]; exact h)]
      simp only [OpEffect.apply, emitEffect, emitAll, hs.cur, hs.drawX, hs.row, hs.width]
    · exact .inl fun s' hs => execRep_short (by rw [hs.cur]; omega)
  | copy l back =>
    by_cases h : s.cur.pos + 3 ≤ s.cur.buf.len ∧ back.toNat ≤ s.cur.pos + 3 ∧
        s.cur.pos + 3 - back.toNat + copyCount l ≤ s.cur.buf.len
    · refine .inr ⟨emitEffect s (s.cur.buf.readList (s.cur.pos + 3 - back.toNat) (copyCount l))
        (s.cur.pos + 3)
        (fun lt => { lt with op := opcodeByte (.copy l back), back := back, retPos := s.cur.pos + 3 })
        (by omega) h.1 (by omega)
        (by have := l.isLt; simp [copyCount]; omega), fun s' hs => ?_⟩
      simp only [exec]
      rw [execCopy_ok (by rw [hs.cur]; exact h.1) (by rw [hs.cur]; exact h.2.1)
        (by rw [hs.cur]; exact h.2.2)]
      simp only [OpEffect.apply, emitEffect, emitAll, hs.cur, hs.drawX, hs.row, hs.width]
    · exact .inl fun s' hs => execCopy_short (by rw [hs.cur]; omega)
  | pair l a b =>
    by_cases h : s.cur.pos + 3 ≤ s.cur.buf.len
    · refine .inr ⟨emitEffect s (pairPixels a b (pairCount l)) (s.cur.pos + 3)
        (fun lt => { lt with op := opcodeByte (.pair l a b), a := a, b := b }) (by omega) h (by omega)
        (by have := l.isLt; simp [pairCount]; omega), fun s' hs => ?_⟩
      simp only [exec]
      rw [execPair_ok (by rw [hs.cur]; exact h)]
      simp only [OpEffect.apply, emitEffect, emitAll, hs.cur, hs.drawX, hs.row, hs.width]
    · exact .inl fun s' hs => execPair_short (by rw [hs.cur]; omega)
  | gap l =>
    by_cases h : s.cur.pos + 1 ≤ s.cur.buf.len
    · refine .inr ⟨{
          pos := s.cur.pos + 1
          drawX := s.drawX + gapCount l
          row := s.row
          lat := fun lt => { lt with op := opcodeByte (.gap l) }
          pos_gt := by omega
          pos_le := h
          pos_line := by omega
          draw_ge := by omega
          draw_le := by have := l.isLt; simp only [gapCount]; omega
          rise := id }, fun s' hs => ?_⟩
      simp only [exec]
      rw [execGap_ok (by rw [hs.cur]; exact h)]
      simp only [OpEffect.apply, hs.cur, hs.drawX, hs.row]
    · exact .inl fun s' hs => execGap_short (by rw [hs.cur]; omega)
  | patu ss p v => exact patternFill_runs (fun _ => rfl) s
  | patd ss p v => exact patternFill_runs (fun _ => rfl) s
  | vgap k => cases hi
  | line l x => cases hi
  | rleRun r v => cases hi
  | rleLit m => cases hi

end Sys2Proof.Machine
end

