-- ==== Sys2Proof/Laws/Step.lean ====
section
/-! SUPPORT. The step in each phase: which equation it reduces to. -/

namespace Sys2Proof.Machine

theorem orFailCell_error {s : State} {e : BoundsInfo} :
    orFailCell s (.error e) = .next (failCell s) := rfl

theorem step_due {s : State} {sp : Space} {i : Instr} {left : List Byte} (h : dueSpace s = some sp)
    (hd : decode sp (fetchWindow s) = .ok (i, left)) : step s = exec i s := by
  simp only [step, h, hd]

theorem step_cutOff {s : State} {sp : Space} {r : Reject} (h : dueSpace s = some sp)
    (hd : decode sp (fetchWindow s) = .error r) : step s = .next (fetchFails sp s) := by
  simp only [step, h, hd]

theorem step_none {s : State} (h : dueSpace s = none) : step s = sequencer s := by
  simp only [step, h]

theorem step_idle_nil {s : State} (h : s.phase = .idle) (hr : s.requests = []) : step s = .next s := by
  rw [step_none (by simp only [dueSpace, h])]
  unfold sequencer
  simp only [h, hr]

theorem step_requested {s : State} {op : HostOp} {rest : List HostOp} (h : Requested s op rest) :
    step s = startOp op { s with requests := rest } := by
  rw [step_none (by simp only [dueSpace, h.1])]
  unfold sequencer
  simp only [h.1, h.2]

theorem step_cellStart {s : State} (h : s.phase = .cellStart) : step s = startCell s := by
  rw [step_none (by simp only [dueSpace, h])]
  simp only [sequencer, h]

theorem step_record_end {s : State} (h : s.phase = .record) (hl : s.hdr.height.toNat ≤ s.linesDone) :
    step s = endCell s := by
  rw [step_none (by simp only [dueSpace, h]; rw [if_neg (by omega)])]
  simp only [sequencer, h]

theorem step_ops_end {s : State} (h : s.phase = .ops) (hl : s.lineEnd ≤ s.cur.pos) :
    step s = endLine s := by
  rw [step_none (by simp only [dueSpace, h]; rw [if_neg (by omega)])]
  simp only [sequencer, h]

theorem step_rleDecode_end {s : State} (h : s.phase = .rleDecode) (hl : s.cur.buf.len ≤ s.cur.pos) :
    step s = .next (complete s) := by
  rw [step_none (by simp only [dueSpace, h]; rw [if_neg (by omega)])]
  simp only [sequencer, h]

theorem step_rleCompress {s : State} (h : s.phase = .rleCompress) : step s = rleCompressStep s := by
  rw [step_none (by simp only [dueSpace, h])]
  simp only [sequencer, h]

theorem startCell_nil {s : State} (h : s.pending = []) :
    startCell s = .next (complete (deliverFrame s)) := by
  simp only [startCell, h]

/-- A cell that starts with its header in the buffer (R93). -/
theorem startCell_ok {s : State} {off : Nat} {rest : List Nat} (h : s.pending = off :: rest)
    (hf : s.canvas.isSome = true) (hl : off + 8 ≤ s.cur.buf.len) :
    startCell s = .next { s with
      cellOffset := off
      pending := rest
      cur := { s.cur with pos := off + 8 }
      hdr := headerAt s.cur.buf off
      destY := (headerAt s.cur.buf off).yOffset.toNat
      linesDone := 0
      phase := .record } := by
  obtain ⟨f, hf⟩ := Option.isSome_iff_exists.1 hf
  unfold startCell
  rw [h]
  simp only []
  split
  · rename_i hn; rw [hn] at hf; cases hf
  · rw [readHeader_ok (s := { s with cellOffset := off, pending := rest }) hl]; rfl

theorem startCell_short {s : State} {off : Nat} {rest : List Nat} (h : s.pending = off :: rest)
    (hf : s.canvas.isSome = true) (hl : s.cur.buf.len < off + 8) :
    startCell s = .next (failCell { s with cellOffset := off, pending := rest }) := by
  obtain ⟨f, hf⟩ := Option.isSome_iff_exists.1 hf
  unfold startCell
  rw [h]
  simp only []
  split
  · rename_i hn; rw [hn] at hf; cases hf
  · obtain ⟨e, he⟩ := readHeader_short (off := off)
      (s := { s with cellOffset := off, pending := rest }) hl
    rw [he]; rfl

theorem endLine_some {s : State} {f : Frame} (h : s.canvas = some f) :
    endLine s = .next { s with
      canvas := some (blit s.row s.hdr s.destY f)
      destY := s.destY + 1
      linesDone := s.linesDone + 1
      phase := .record } := by
  simp only [endLine, h]

/-! ### Runs -/

theorem Reaches.zero (s : State) : Reaches 0 s s := rfl

theorem core_run_succ (M : Host.Core) (n : Nat) (s t : M.State) :
    M.run (n + 1) s = .next t ↔ ∃ u, M.step s = .next u ∧ M.run n u = .next t := by
  rw [Host.Core.run]
  cases hs : M.step s with
  | next u => simp
  | fault r => simp
  | refused r => simp

/-- A run of `n + 1` steps is a step and a run of `n`. -/
theorem reaches_succ {n : Nat} {s t : State} :
    Reaches (n + 1) s t ↔ ∃ u, step s = .next u ∧ Reaches n u t :=
  core_run_succ Sys2Proof.core n s t

theorem Reaches.cons {n : Nat} {s u t : State} (h : step s = .next u) (hr : Reaches n u t) :
    Reaches (n + 1) s t := reaches_succ.2 ⟨u, h, hr⟩

theorem Reaches.trans {m n : Nat} {s u t : State} (h : Reaches m s u) (hr : Reaches n u t) :
    Reaches (m + n) s t := by
  induction m generalizing s with
  | zero =>
    cases h
    rwa [Nat.zero_add]
  | succ m ih =>
    obtain ⟨v, hv, hu⟩ := reaches_succ.1 h
    rw [Nat.succ_add]
    exact .cons hv (ih hu)

end Sys2Proof.Machine
end

