-- ==== Sys2Proof/Laws/Rle.lean ====
section
/-! SUPPORT. What a round of the canonical encoder takes and emits (45_rle_and_output.md R126,
R129). -/

namespace Sys2Proof.Machine

theorem headRun_spec (v : Byte) (cap : Nat) (l : List Byte) :
    headRun v cap l ≤ cap ∧ headRun v cap l ≤ l.length ∧
      l.take (headRun v cap l) = List.replicate (headRun v cap l) v := by
  induction cap generalizing l with
  | zero => simp [headRun]
  | succ cap ih =>
    cases l with
    | nil => simp [headRun]
    | cons b l =>
      obtain ⟨h1, h2, h3⟩ := ih l
      by_cases h : b = v
      · subst h
        simp only [headRun, if_true, List.length_cons, List.take_succ_cons, List.replicate_succ, h3]
        exact ⟨by omega, by omega, trivial⟩
      · simp [headRun, h]

theorem drop_cons_getD {x : List Byte} {i : Nat} (h : i < x.length) :
    x.drop i = x.getD i 0 :: x.drop (i + 1) := by
  rw [List.drop_eq_getElem_cons h, List.getD_eq_getElem _ _ h]

/-- `runlen` inside the sequence: 1 to 127, inside the rest, and all those bytes are equal (R126). -/
theorem runLen_spec {x : List Byte} {i : Nat} (h : i < x.length) :
    1 ≤ runLen x i ∧ runLen x i ≤ 127 ∧ i + runLen x i ≤ x.length ∧
      (x.drop i).take (runLen x i) = List.replicate (runLen x i) (x.getD i 0) := by
  have e : runLen x i = headRun (x.getD i 0) rleMaxRun (x.getD i 0 :: x.drop (i + 1)) := by
    unfold runLen
    rw [drop_cons_getD h]
  obtain ⟨h1, h2, h3⟩ := headRun_spec (x.getD i 0) rleMaxRun (x.getD i 0 :: x.drop (i + 1))
  rw [← e] at h1 h2 h3
  rw [drop_cons_getD h]
  refine ⟨?_, h1, ?_, h3⟩
  · rw [e]; simp [headRun]
  · simp at h2; omega

/-- Where a literal block ends: after at least one byte, at most `fuel`; before `fuel` only at the
end of the input or at a run of 3 (R129). -/
theorem literalEnd_spec (x : List Byte) (fuel i : Nat) (hi : i ≤ x.length) :
    i ≤ literalEnd x fuel i ∧ literalEnd x fuel i ≤ i + fuel ∧ literalEnd x fuel i ≤ x.length ∧
      (literalEnd x fuel i < i + fuel → literalEnd x fuel i < x.length →
        3 ≤ runLen x (literalEnd x fuel i)) ∧
      (0 < fuel → i < x.length → runLen x i < 3 → i < literalEnd x fuel i) := by
  induction fuel generalizing i with
  | zero => simp [literalEnd, hi]
  | succ fuel ih =>
    by_cases h : i < x.length ∧ runLen x i < rleMinRun
    · have e : literalEnd x (fuel + 1) i = literalEnd x fuel (i + 1) := by
        simp only [literalEnd, if_pos h]
      obtain ⟨h1, h2, h3, h4, -⟩ := ih (i + 1) (by omega)
      rw [e]
      exact ⟨by omega, by omega, h3, fun h5 => h4 (by omega), fun _ _ _ => by omega⟩
    · have e : literalEnd x (fuel + 1) i = i := by simp only [literalEnd, if_neg h]
      rw [e]
      simp only [rleMinRun] at h
      exact ⟨by omega, by omega, hi, fun _ _ => by omega, fun _ _ _ => by omega⟩

/-- One round (R129): a run record for a run of 3 or more, else a literal block that stops short of
127 bytes only at the end of the input or at a run of 3. -/
theorem rleRound_spec {x : List Byte} {g : RleRegs} (h : g.i < x.length) :
    g.i < (rleRound x g).1.i ∧ (rleRound x g).1.i ≤ x.length ∧
    ((3 ≤ runLen x g.i ∧ ∃ r : BitVec 7, r.toNat = runLen x g.i ∧
        (rleRound x g).1.i = g.i + r.toNat ∧
        (rleRound x g).2 = encode (.rleRun r (x.getD g.i 0)) ∧
        (x.drop g.i).take r.toNat = List.replicate r.toNat (x.getD g.i 0)) ∨
      (runLen x g.i < 3 ∧ ∃ m : BitVec 7, 1 ≤ m.toNat ∧
        (rleRound x g).1.i = g.i + m.toNat ∧
        (rleRound x g).2 = encode (.rleLit m) ++ (x.drop g.i).take m.toNat ∧
        (m.toNat < 127 → (rleRound x g).1.i < x.length → 3 ≤ runLen x (rleRound x g).1.i))) := by
  obtain ⟨h1, h2, h3, h4⟩ := runLen_spec h
  by_cases hr : 3 ≤ runLen x g.i
  · have e : rleRound x g = ({ g with i := g.i + runLen x g.i, r := runLen x g.i },
        encode (.rleRun (BitVec.ofNat 7 (runLen x g.i)) (x.getD g.i 0))) := by
      exact if_pos hr
    have en : (BitVec.ofNat 7 (runLen x g.i)).toNat = runLen x g.i := by
      rw [BitVec.toNat_ofNat, Nat.mod_eq_of_lt (by omega)]
    rw [e]
    exact ⟨by simp only []; omega, h3,
      .inl ⟨hr, BitVec.ofNat 7 (runLen x g.i), en, by rw [en], rfl, by rw [en]; exact h4⟩⟩
  · obtain ⟨e1, e2, e3, e4, e5⟩ := literalEnd_spec x rleMaxLit g.i (by omega)
    have e6 := e5 (by simp [rleMaxLit]) h (by omega)
    simp only [rleMaxLit] at e1 e2 e3 e4 e6
    have en : (BitVec.ofNat 7 (literalEnd x 127 g.i - g.i)).toNat = literalEnd x 127 g.i - g.i := by
      rw [BitVec.toNat_ofNat, Nat.mod_eq_of_lt (by omega)]
    have e : rleRound x g = ({ i := literalEnd x 127 g.i, r := runLen x g.i, s := g.i },
        encode (.rleLit (BitVec.ofNat 7 (literalEnd x 127 g.i - g.i))) ++
          (x.drop g.i).take (literalEnd x 127 g.i - g.i)) := by
      exact if_neg hr
    rw [e]
    refine ⟨e6, e3, .inr ⟨by omega, BitVec.ofNat 7 (literalEnd x 127 g.i - g.i), by omega,
      by rw [en]; simp only []; omega, by rw [en], ?_⟩⟩
    rw [en]
    exact fun h7 h8 => e4 (by omega) h8

/-- The rounds depend on the working registers only through `i`. -/
theorem rleRounds_congr (x : List Byte) (fuel : Nat) {g g' : RleRegs} (h : g.i = g'.i) :
    rleRounds x fuel g = rleRounds x fuel g' := by
  induction fuel generalizing g g' with
  | zero => rfl
  | succ fuel ih =>
    have e : (rleRound x g).2 = (rleRound x g').2 ∧ (rleRound x g).1.i = (rleRound x g').1.i := by
      by_cases hr : rleMinRun ≤ runLen x g'.i <;> simp [rleRound, h, hr]
    simp only [rleRounds, h, e.1, ih e.2]

end Sys2Proof.Machine
end

