-- ==== Sys2Proof/Laws/Cases.lean ====
section
/-! SUPPORT. The inversion of a step: everything a step that answers a next state can have done. -/

namespace Sys2Proof.Machine

/-- What a step from `s` to the indexed state has done. -/
inductive StepCase (s : State) : State → Prop
  /-- nothing was asked for. -/
  | waits (h : s.phase = .idle) (hr : s.requests = []) : StepCase s s
  /-- a host operation started. -/
  | starts {op : HostOp} {rest : List HostOp} {t : State} (h : Requested s op rest)
      (ht : startOp op { s with requests := rest } = .next t) : StepCase s t
  /-- an RLE operation completed. -/
  | completes (h : s.phase = .rleDecode ∨ s.phase = .rleCompress) : StepCase s (complete s)
  /-- the last cell of an operation is done and its frame is delivered. -/
  | delivers (h : s.phase = .cellStart) (hp : s.pending = []) :
      StepCase s (complete (deliverFrame s))
  /-- a cell started: its header was read. -/
  | cellStarts {off : Nat} {rest : List Nat} (h : s.phase = .cellStart) (hp : s.pending = off :: rest)
      (hf : s.canvas.isSome = true) (hl : off + 8 ≤ s.cur.buf.len) : StepCase s { s with
        cellOffset := off
        pending := rest
        cur := { s.cur with pos := off + 8 }
        hdr := headerAt s.cur.buf off
        destY := (headerAt s.cur.buf off).yOffset.toNat
        linesDone := 0
        phase := .record }
  /-- a cell's header lies outside the buffer. -/
  | cellShort {off : Nat} {rest : List Nat} (h : s.phase = .cellStart) (hp : s.pending = off :: rest)
      (hf : s.canvas.isSome = true) :
      StepCase s (failCell { s with cellOffset := off, pending := rest })
  /-- a record or an operation failed. -/
  | cellFails (h : s.phase = .record ∨ s.phase = .ops) : StepCase s (failCell s)
  /-- all scanlines are done. -/
  | cellEnds (h : s.phase = .record) (hl : s.hdr.height.toNat ≤ s.linesDone) :
      StepCase s { s with phase := .cellStart }
  /-- a gap record. -/
  | gap {k : Byte} (h : s.phase = .record) (hl : s.linesDone < s.hdr.height.toNat)
      (hb : s.cur.pos + 2 ≤ s.cur.buf.len) : StepCase s { s with
        cur := { s.cur with pos := s.cur.pos + 2 }
        lineLength := 0
        destY := s.destY + k.toNat + 1
        linesDone := s.linesDone + gapLinesOf s.cfg.gapLines k }
  /-- a line record opened. -/
  | lineOpens {l x : Byte} (h : s.phase = .record) (hl : s.linesDone < s.hdr.height.toNat)
      (hn : l ≠ 0) (hb : s.cur.pos + 2 ≤ s.cur.buf.len) : StepCase s { s with
        cur := { s.cur with pos := s.cur.pos + 2 }
        lineLength := l
        lineStart := s.cur.pos + 1
        lineEnd := s.cur.pos + 1 + l.toNat
        row := []
        drawX := x.toNat
        phase := .ops }
  /-- an operation of the open line record ran. -/
  | operates (e : OpEffect s) (h : s.phase = .ops) (hl : s.cur.pos < s.lineEnd) :
      StepCase s (e.apply s)
  /-- the open line record ended. -/
  | lineEnds {f : Frame} (h : s.phase = .ops) (hl : s.lineEnd ≤ s.cur.pos) (hf : s.canvas = some f) :
      StepCase s { s with
        canvas := some (blit s.row s.hdr s.destY f)
        destY := s.destY + 1
        linesDone := s.linesDone + 1
        phase := .record }
  /-- an RLE record was decoded. -/
  | rleRecord {p : Nat} {bs : List Byte} (h : s.phase = .rleDecode) (hp : s.cur.pos < p)
      (hb : p ≤ s.cur.buf.len) :
      StepCase s { s with cur := { s.cur with pos := p }, out := s.out ++ bs }
  /-- an RLE record was cut off. -/
  | rleFails {info : BoundsInfo} (h : s.phase = .rleDecode) : StepCase s (failRle info s)
  /-- `rle_compress` took a round. -/
  | compresses (h : s.phase = .rleCompress) (hl : s.rle.i < s.cur.buf.toBytes.length) :
      StepCase s { s with
        rle := (rleRound s.cur.buf.toBytes s.rle).1
        out := s.out ++ (rleRound s.cur.buf.toBytes s.rle).2 }

/-- What is decoded in a space belongs to it and is well-formed. -/
theorem decode_space {sp : Space} {bs left : List Byte} {i : Instr} (h : decode sp bs = .ok (i, left)) :
    i.space = sp ∧ i.wellFormed = true := by
  cases sp with
  | operation =>
    cases bs with
    | nil => cases h
    | cons op bs =>
      simp only [decode, decodeOperation] at h
      split at h <;> first
        | (cases h; exact ⟨rfl, rfl⟩)
        | (split at h <;> cases h; exact ⟨rfl, rfl⟩)
  | record =>
    cases bs with
    | nil => cases h
    | cons op bs =>
      simp only [decode, decodeRecord] at h
      split at h
      · split at h <;> cases h; exact ⟨rfl, rfl⟩
      · rename_i hn
        split at h <;> cases h
        exact ⟨rfl, by simpa [Instr.wellFormed] using hn⟩
  | rle =>
    cases bs with
    | nil => cases h
    | cons op bs =>
      simp only [decode, decodeRle] at h
      split at h
      · split at h <;> cases h; exact ⟨rfl, rfl⟩
      · cases h; exact ⟨rfl, rfl⟩

/-- An instruction that is due: the phase and what its loop test says. -/
theorem dueSpace_cases {s : State} {sp : Space} (h : dueSpace s = some sp) :
    (sp = .record ∧ s.phase = .record ∧ s.linesDone < s.hdr.height.toNat) ∨
      (sp = .operation ∧ s.phase = .ops ∧ s.cur.pos < s.lineEnd) ∨
      (sp = .rle ∧ s.phase = .rleDecode ∧ s.cur.pos < s.cur.buf.len) := by
  unfold dueSpace at h
  cases hp : s.phase <;> simp only [hp] at h
  case idle => cases h
  case cellStart => cases h
  case rleCompress => cases h
  case record => split at h <;> cases h; rename_i hl; exact .inl ⟨rfl, rfl, hl⟩
  case ops => split at h <;> cases h; rename_i hl; exact .inr (.inl ⟨rfl, rfl, hl⟩)
  case rleDecode => split at h <;> cases h; rename_i hl; exact .inr (.inr ⟨rfl, rfl, hl⟩)

theorem exec_cases {s t : State} {sp : Space} {i : Instr} {left : List Byte}
    (hd : dueSpace s = some sp) (hi : decode sp (fetchWindow s) = .ok (i, left))
    (h : exec i s = .next t) : StepCase s t := by
  obtain ⟨hs, hw⟩ := decode_space hi
  rcases dueSpace_cases hd with ⟨rfl, hp, hl⟩ | ⟨rfl, hp, hl⟩ | ⟨rfl, hp, hl⟩
  · by_cases hb : s.cur.pos + 2 ≤ s.cur.buf.len
    · cases i with
      | vgap k =>
        rw [exec, execVgap_ok hb] at h
        cases h
        exact .gap hp hl hb
      | line l x =>
        rw [exec, execLine_ok hb] at h
        cases h
        exact .lineOpens hp hl (by simpa [Instr.wellFormed] using hw) hb
      | _ => cases hs
    · cases i with
      | vgap k =>
        rw [exec, execVgap_short (by omega)] at h
        cases h
        exact .cellFails (.inl hp)
      | line l x =>
        rw [exec, execLine_short (by omega)] at h
        cases h
        exact .cellFails (.inl hp)
      | _ => cases hs
  · rcases exec_operation hs s with he | ⟨e, he⟩
    · rw [he s (SameLine.refl s)] at h
      cases h
      exact .cellFails (.inr hp)
    · rw [he s (SameLine.refl s)] at h
      cases h
      exact .operates e hp hl
  · cases i with
    | rleRun r v =>
      by_cases hb : s.cur.pos + 2 ≤ s.cur.buf.len
      · rw [exec, execRleRun_ok hb] at h
        cases h
        exact .rleRecord hp (by omega) hb
      · rw [exec, execRleRun_short (by omega)] at h
        cases h
        exact .rleFails hp
    | rleLit m =>
      by_cases hb : s.cur.pos + 1 + m.toNat ≤ s.cur.buf.len
      · rw [exec, execRleLit_ok hb] at h
        cases h
        exact .rleRecord hp (by omega) hb
      · obtain ⟨info, he⟩ := execRleLit_short (m := m) (s := s) (by omega)
        rw [exec, he] at h
        cases h
        exact .rleFails hp
    | _ => cases hs

theorem startCell_cases {s t : State} (hp : s.phase = .cellStart) (h : startCell s = .next t) :
    StepCase s t := by
  cases hpe : s.pending with
  | nil =>
    rw [startCell_nil hpe] at h
    cases h
    exact .delivers hp hpe
  | cons off rest =>
    cases hf : s.canvas with
    | none =>
      unfold startCell at h
      simp only [hpe, hf] at h
      cases h
    | some f =>
      have hs : s.canvas.isSome = true := by rw [hf]; rfl
      by_cases hl : off + 8 ≤ s.cur.buf.len
      · rw [startCell_ok hpe hs hl] at h
        cases h
        exact .cellStarts hp hpe hs hl
      · rw [startCell_short hpe hs (by omega)] at h
        cases h
        exact .cellShort hp hpe hs

/-- Every step that answers a next state is one of the cases. -/
theorem step_cases {s t : State} (h : step s = .next t) : StepCase s t := by
  cases hd : dueSpace s with
  | some sp =>
    cases hi : decode sp (fetchWindow s) with
    | ok p =>
      obtain ⟨i, left⟩ := p
      rw [step_due hd hi] at h
      exact exec_cases hd hi h
    | error r =>
      rw [step_cutOff hd hi] at h
      cases h
      rcases dueSpace_cases hd with ⟨rfl, hp, -⟩ | ⟨rfl, hp, -⟩ | ⟨rfl, hp, -⟩
      · exact .cellFails (.inl hp)
      · exact .cellFails (.inr hp)
      · exact .rleFails hp
  | none =>
    cases hp : s.phase with
    | idle =>
      cases hr : s.requests with
      | nil =>
        rw [step_idle_nil hp hr] at h
        cases h
        exact .waits hp hr
      | cons op rest =>
        rw [step_requested ⟨hp, hr⟩] at h
        exact .starts ⟨hp, hr⟩ h
    | cellStart =>
      rw [step_cellStart hp] at h
      exact startCell_cases hp h
    | record =>
      have hl : s.hdr.height.toNat ≤ s.linesDone := by
        by_contra hc
        simp only [dueSpace, hp, if_pos (show s.linesDone < s.hdr.height.toNat by omega)] at hd
        cases hd
      rw [step_record_end hp hl] at h
      cases h
      exact .cellEnds hp hl
    | ops =>
      have hl : s.lineEnd ≤ s.cur.pos := by
        by_contra hc
        simp only [dueSpace, hp, if_pos (show s.cur.pos < s.lineEnd by omega)] at hd
        cases hd
      rw [step_ops_end hp hl] at h
      cases hf : s.canvas with
      | none =>
        simp only [endLine, hf] at h
        cases h
      | some f =>
        rw [endLine_some hf] at h
        cases h
        exact .lineEnds hp hl hf
    | rleDecode =>
      rw [step_none hd] at h
      unfold sequencer at h
      simp only [hp] at h
      cases h
      exact .completes (.inl hp)
    | rleCompress =>
      rw [step_rleCompress hp] at h
      unfold rleCompressStep at h
      by_cases hl : s.rle.i < s.cur.buf.toBytes.length
      · simp only [if_pos hl] at h
        cases h
        exact .compresses hp hl
      · simp only [if_neg hl] at h
        cases h
        exact .completes (.inr hp)

end Sys2Proof.Machine
end

