-- ==== Sys2Proof/Laws/HostOps.lean ====
section
/-! SUPPORT. The inversion of each host operation's start: what a start that answers a next state has
done. -/

namespace Sys2Proof.Machine

theorem orRefuse_next {r : Except Refusal State} {t : State} : orRefuse r = .next t ↔ r = .ok t := by
  cases r <;> simp [orRefuse]

/-! ### Operands: what the host's argument stands for is what the operation gets -/

theorem withinLimit_of {limit : Option Nat} {n : Nat} (h : ∀ m, limit = some m → n ≤ m) :
    withinLimit limit n = true := by
  cases limit with
  | none => rfl
  | some m => exact decide_eq_true (h m rfl)

theorem callerFrameArg_of_operand {s : State} {fr : FrameArg} {w h : Nat} {sm : Nat → Sample}
    (ho : CallerFrameOperand s fr w h sm) :
    ∃ f, callerFrameArg s fr = .ok f ∧ f.w = w ∧ f.h = h ∧ ∀ a, sampleAt f.cells a = sm a := by
  rcases ho with ⟨rfl, f, hf, hw, hh, hs⟩ | ⟨xs, rfl, hl, hw, hh, hs⟩
  · exact ⟨f, by simp only [callerFrameArg, hf], hw, hh, fun a => (hs a).symm⟩
  · refine ⟨{ w := w, h := h, cells := cellsOfSamples 0 xs }, ?_, rfl, rfl, fun a => ?_⟩
    · simp only [callerFrameArg, fitsFrameStore, withinLimit_of hw, withinLimit_of hh, Bool.and_self,
        if_true, frameOfSamples, if_pos hl]
    · rw [hs a, sampleAt_ofSamples]

/-- A frame handed over and handed in again is that frame. -/
theorem frameOfSamples_samples {f : Frame} (hf : f.wf = true) :
    frameOfSamples f.w f.h f.samples = .ok f := by
  rw [frameOfSamples, if_pos f.samples_length, Frame.ofSamples_samples hf]

/-- The frame `to_chunky` gets is one that was returned (R156). -/
theorem returnedFrameArg_cases {s : State} {fr : FrameArg} {f : Frame}
    (h : returnedFrameArg s fr = .ok f) : s.frame = some f ∨ f ∈ s.returnedFrames := by
  cases fr with
  | held =>
    simp only [returnedFrameArg] at h
    split at h <;> cases h
    exact .inl ‹_›
  | given w k xs =>
    simp only [returnedFrameArg, bind, Except.bind, pure, Except.pure] at h
    split at h
    · cases h
    · split at h <;> cases h
      exact .inr ‹_›

theorem returnedFrameArg_of_operand {s : State} {fr : FrameArg} {w h : Nat} {sm : Nat → Sample}
    (ho : ReturnedFrameOperand s fr w h sm) :
    ∃ f, returnedFrameArg s fr = .ok f ∧ f.w = w ∧ f.h = h ∧ ∀ a, sampleAt f.cells a = sm a := by
  rcases ho with ⟨rfl, f, hf, hw, hh, hs⟩ | ⟨f, hm, hf, rfl, rfl, rfl, hs⟩
  · exact ⟨f, by simp only [returnedFrameArg, hf], hw, hh, fun a => (hs a).symm⟩
  · refine ⟨f, ?_, rfl, rfl, fun a => (hs a).symm⟩
    simp only [returnedFrameArg, frameOfSamples_samples hf, bind, Except.bind, pure, Except.pure,
      if_pos hm]

theorem allResolved_px (bs : List Byte) : allResolved (bs.map Sample.Px) = true := by
  induction bs with
  | nil => rfl
  | cons b bs ih => exact ih

theorem pixelArg_of_operand {s : State} {arg : PixelArg} {w h : Nat} {px : Nat → Byte}
    (ho : PixelOperand s arg w h px) :
    ∃ c, pixelArg s arg = .ok c ∧ c.w = w ∧ c.h = h ∧ ∀ a, c.px.read a = px a := by
  rcases ho with ⟨rfl, c, hc, hw, hh, hp⟩ | ⟨bs, rfl, hl, hp⟩ | ⟨bs, rfl, hl, hp⟩
  · exact ⟨c, by simp only [pixelArg, hc], hw, hh, fun a => (hp a).symm⟩
  · exact ⟨{ w := w, h := h, px := Memory.ofBytes bs },
      by simp only [pixelArg, chunkyOfPixels, if_pos hl], rfl, rfl,
      fun a => by rw [hp a, Memory.read_ofBytes]⟩
  · have hr := allResolved_px bs
    have hm : (bs.map Sample.Px).map resolve = bs := by
      rw [List.map_map]
      exact (List.map_congr_left fun _ _ => rfl).trans (List.map_id bs)
    exact ⟨{ w := w, h := h, px := Memory.ofBytes bs },
      by simp only [pixelArg, hr, if_true, hm, chunkyOfPixels, if_pos hl], rfl, rfl,
      fun a => by rw [hp a, Memory.read_ofBytes]⟩

/-- Planes handed over and handed in again are those planes. -/
theorem planesOfBytes_toBytes {pl : Planes} (h : pl.Wf) :
    planesOfBytes pl.w pl.h (pl.planes.map Memory.toBytes) = .ok pl := by
  have ha : ((pl.planes.map Memory.toBytes).all fun bs =>
      decide (bs.length = rowBytes pl.w * pl.h)) = true := by
    rw [List.all_eq_true]
    intro bs hb
    obtain ⟨m, hm, rfl⟩ := List.mem_map.1 hb
    exact decide_eq_true ((Memory.readList_length m 0 m.len).trans (h m hm).2)
  have hp : (pl.planes.map Memory.toBytes).map Memory.ofBytes = pl.planes := by
    rw [List.map_map]
    exact (List.map_congr_left fun m hm => Memory.ofBytes_toBytes (h m hm).1).trans (List.map_id _)
  simp only [planesOfBytes, ha, if_true, hp]

/-- The planes `interleave` and the file writer get are ones that were made (R156). -/
theorem planesArg_cases {s : State} {arg : PlanesArg} {pl : Planes} (h : planesArg s arg = .ok pl) :
    s.planes = some pl ∨ PlanesMade s pl.planes := by
  cases arg with
  | held =>
    simp only [planesArg] at h
    split at h <;> cases h
    exact .inl ‹_›
  | given w k ps =>
    simp only [planesArg, bind, Except.bind, pure, Except.pure] at h
    split at h
    · cases h
    · split at h <;> cases h
      exact .inr ‹_›

theorem planesArg_of_operand {s : State} {arg : PlanesArg} {pl : Planes}
    (ho : PlanesOperand s arg pl) : planesArg s arg = .ok pl := by
  rcases ho with ⟨rfl, hp⟩ | ⟨hne, hm, hw, rfl⟩
  · simp only [planesArg, hp]
  · have hmade : PlanesMade s pl.planes := ⟨hne, hm⟩
    simp only [planesArg, planesOfBytes_toBytes hw, bind, Except.bind, pure, Except.pure,
      if_pos hmade]

theorem byteArg_of_operand {s : State} {arg : ByteArg} {x : List Byte}
    (ho : BytesOperand s arg x) : byteArg s arg = .ok x := by
  rcases ho with rfl | ⟨rfl, rfl⟩ | ⟨p, pl, m, rfl, hp, hm, rfl⟩
  · rfl
  · rfl
  · simp only [byteArg, hp, hm]

theorem bufferArg_of_operand {s : State} {arg : BufferArg} {m : Memory}
    (ho : BufferOperand s arg m) : bufferArg s arg = .ok m := by
  rcases ho with ⟨rfl, ix, hi, rfl⟩ | ⟨bs, rfl, rfl⟩
  · simp only [bufferArg, hi]
  · rfl

/-! ### The starts -/

theorem getFrameBounds_next {e : Entry} {s t : State} :
    startOp (.getFrameBounds e) s = .next t → ∃ ix, s.index = some ix ∧
      ((∃ info, frameBounds ix.wbuf e = .error info ∧
          t = raise (.boundsError info) { s with bounds := none }) ∨
        ∃ wh c, frameBounds ix.wbuf e = .ok (wh, c) ∧
          t = complete { s with bounds := some wh, cur := c }) := by
  intro h
  simp only [startOp, getFrameBounds] at h
  split at h
  · cases h
  · rename_i ix hi
    refine ⟨ix, hi, ?_⟩
    split at h
    · rename_i info hb
      cases h
      exact .inl ⟨info, hb, rfl⟩
    · rename_i wh c hb
      cases h
      exact .inr ⟨wh, c, hb, rfl⟩

theorem decodeFrame_next {i : Int} {s t : State} :
    startOp (.decodeFrame i) s = .next t → ∃ ix, s.index = some ix ∧
      ((lookup ix i = none ∧ t = raise (.unsupportedFrame i) { s with frame := none }) ∨
        ∃ e, lookup ix i = some e ∧
          ((∃ info, frameBounds ix.wbuf e = .error info ∧
              t = raise (.boundsError info) { s with frame := none }) ∨
            ∃ w h c, frameBounds ix.wbuf e = .ok ((w, h), c) ∧
              fitsFrameStore s.cfg w h = true ∧
              t = { s with
                canvas := some (Frame.fresh w h)
                pending := cellsOfEntry e
                bare := false
                cur := Cursor.over ix.wbuf
                phase := .cellStart })) := by
  intro h
  simp only [startOp, startDecodeFrame] at h
  split at h
  · cases h
  · rename_i ix hi
    refine ⟨ix, hi, ?_⟩
    split at h
    · rename_i hl
      cases h
      exact .inl ⟨hl, rfl⟩
    · rename_i e he
      refine .inr ⟨e, he, ?_⟩
      split at h
      · rename_i info hb
        cases h
        exact .inl ⟨info, hb, rfl⟩
      · rename_i w k c hb
        split at h
        · rename_i hf
          cases h
          exact .inr ⟨w, k, c, hb, hf, rfl⟩
        · cases h

theorem decodeCell_next {b : BufferArg} {off : Nat} {fr : FrameArg} {s t : State} :
    startOp (.decodeCell b off fr) s = .next t ↔ ∃ m f, bufferArg s b = .ok m ∧
      callerFrameArg s fr = .ok f ∧
      t = { s with
        canvas := some f
        pending := [off]
        bare := true
        cur := Cursor.over m
        phase := .cellStart } := by
  simp only [startOp, orRefuse_next, startDecodeCell, bind, Except.bind, pure, Except.pure]
  cases bufferArg s b with
  | error r => simp
  | ok m =>
    cases callerFrameArg s fr with
    | error r => simp
    | ok f => simp [eq_comm]

theorem toChunky_next {fr : FrameArg} {s t : State} :
    startOp (.toChunky fr) s = .next t ↔ ∃ f, returnedFrameArg s fr = .ok f ∧
      t = complete { s with chunky := some (chunkyOf f) } := by
  simp only [startOp, orRefuse_next, toChunky, bind, Except.bind, pure, Except.pure]
  cases returnedFrameArg s fr with
  | error r => simp
  | ok f => simp [eq_comm]

theorem toPlanes_next {px : PixelArg} {n : Nat} {s t : State} :
    startOp (.toPlanes px n) s = .next t ↔ ∃ c, pixelArg s px = .ok c ∧
      t = complete { s with
        planes := some (planesOf s.cfg.planeBitMsbFirst c n)
        returnedPlanes := planesOf s.cfg.planeBitMsbFirst c n :: s.returnedPlanes } := by
  simp only [startOp, orRefuse_next, toPlanes, bind, Except.bind, pure, Except.pure]
  cases pixelArg s px with
  | error r => simp
  | ok f => simp [eq_comm]

theorem interleave_next {a : PlanesArg} {s t : State} :
    startOp (.interleave a) s = .next t ↔ ∃ pl, planesArg s a = .ok pl ∧
      t = complete { s with out := interleaveOf pl } := by
  simp only [startOp, orRefuse_next, interleave, bind, Except.bind, pure, Except.pure]
  cases planesArg s a with
  | error r => simp
  | ok f => simp [eq_comm]

theorem rleCompress_next {a : ByteArg} {s t : State} :
    startOp (.rleCompress a) s = .next t ↔ ∃ x, byteArg s a = .ok x ∧
      t = { s with
        cur := Cursor.over (Memory.ofBytes x)
        out := []
        rle := { s.rle with i := 0 }
        phase := .rleCompress } := by
  simp only [startOp, orRefuse_next, startRleCompress, bind, Except.bind, pure, Except.pure]
  cases byteArg s a with
  | error r => simp
  | ok f => simp [eq_comm]

theorem rleDecode_next {a : ByteArg} {s t : State} :
    startOp (.rleDecode a) s = .next t ↔ ∃ z, byteArg s a = .ok z ∧
      t = { s with cur := Cursor.over (Memory.ofBytes z), out := [], phase := .rleDecode } := by
  simp only [startOp, orRefuse_next, startRleDecode, bind, Except.bind, pure, Except.pure]
  cases byteArg s a with
  | error r => simp
  | ok f => simp [eq_comm]

theorem writeBitplaneFile_next {a : PlanesArg} {mode : FileMode} {s t : State} :
    startOp (.writeBitplaneFile a mode) s = .next t ↔ ∃ pl file, planesArg s a = .ok pl ∧
      bitplaneFile pl mode = some file ∧ t = complete { s with out := file } := by
  simp only [startOp, orRefuse_next, writeBitplaneFile, bind, Except.bind, pure, Except.pure]
  cases planesArg s a with
  | error r => simp
  | ok pl =>
    cases hf : bitplaneFile pl mode with
    | none => simp [hf]
    | some file => simp [hf, eq_comm]

/-- `parse` always completes or raises: both ways it is one of two forms (R88). -/
theorem parse_next {bytes : List Byte} {s t : State} :
    startOp (.parse bytes) s = .next t →
      (∃ ix c low, (attempt (Memory.ofBytes bytes) = .ok ix c ∨
          attempt (Memory.ofBytes bytes).xored = .ok ix c) ∧
        t = parseDone ix c low { s with buf := Memory.ofBytes bytes }) ∨
      ∃ e, t = parseFail e { s with buf := Memory.ofBytes bytes } := by
  intro h
  simp only [startOp, parse] at h
  split at h
  · rename_i ix c ha
    cases h
    exact .inl ⟨ix, c, _, .inl ha, rfl⟩
  · cases h
    exact .inr ⟨_, rfl⟩
  · split at h
    · rename_i ix c ha
      cases h
      exact .inl ⟨ix, c, _, .inr ha, rfl⟩
    · cases h
      exact .inr ⟨_, rfl⟩
    · cases h
      exact .inr ⟨_, rfl⟩

/-- The entry loop reads what it is asked for and keeps the buffer (R87). -/
theorem readEntries_cases {n : Nat} {c c' : Cursor} {es : List Entry}
    (h : readEntries n c = .ok (es, c')) :
    es.length = n ∧ c'.buf = c.buf ∧ c'.pos = c.pos + 4 * n ∧ (0 < n → c'.pos ≤ c.buf.len) := by
  induction n generalizing c es c' with
  | zero =>
    cases h
    exact ⟨rfl, rfl, rfl, by omega⟩
  | succ n ih =>
    simp only [readEntries, bind, Except.bind] at h
    cases h1 : c.u16 with
    | error e => rw [h1] at h; cases h
    | ok p1 =>
      obtain ⟨v1, c1⟩ := p1
      obtain ⟨b1, -, rfl⟩ := Cursor.u16_cases h1
      rw [h1] at h
      simp only [] at h
      split at h
      · cases h
      · rename_i p2 h2
        obtain ⟨v2, c2⟩ := p2
        obtain ⟨b2, -, rfl⟩ := Cursor.u16_cases h2
        split at h
        · cases h
        · rename_i p3 h3
          obtain ⟨es', c3⟩ := p3
          obtain ⟨l1, l2, l3, l4⟩ := ih h3
          simp only [] at l2 l3 l4 b2
          cases h
          simp only []
          refine ⟨by simp [l1], l2, by omega, fun _ => ?_⟩
          by_cases hn : 0 < n
          · exact l4 hn
          · omega

/-- What an attempt that succeeds answers (R87). -/
theorem attempt_cases {b : Memory} {ix : SpriteIndex} {c : Cursor} (h : attempt b = .ok ix c) :
    ix.wbuf = b ∧ implausible ix.count = false ∧ ix.entries.length = ix.count.toNat ∧
      c.buf = b ∧ c.pos ≤ b.len := by
  simp only [attempt] at h
  split at h
  · cases h
  · rename_i hlen
    split at h
    · cases h
    · rename_i count c1 h1
      obtain ⟨b1, -, rfl⟩ := Cursor.u16_cases h1
      split at h
      · cases h
      · rename_i hi
        split at h
        · cases h
        · split at h
          · cases h
          · rename_i es c2 h2
            obtain ⟨l1, l2, l3, l4⟩ := readEntries_cases h2
            cases h
            refine ⟨rfl, by simpa using hi, l1, l2, l4 ?_⟩
            have : implausible count = false := by simpa using hi
            simp only [implausible, Bool.or_eq_false_iff, decide_eq_false_iff_not] at this
            omega

/-- The bounds keep the cursor in its buffer. -/
theorem boundsOfCell_cases {off : Half} {wh wh' : Nat × Nat} {c c' : Cursor}
    (h : boundsOfCell off wh c = .ok (wh', c')) (hc : c.pos ≤ c.buf.len) :
    c'.buf = c.buf ∧ c'.pos ≤ c.buf.len := by
  simp only [boundsOfCell] at h
  split at h
  · cases h
    exact ⟨rfl, hc⟩
  · simp only [bind, Except.bind, pure, Except.pure] at h
    split at h
    · cases h
    · rename_i p hp
      obtain ⟨hdr, c1⟩ := p
      obtain ⟨h1, -, rfl⟩ := Cursor.header_cases hp
      cases h
      exact ⟨rfl, h1⟩

theorem frameBounds_cases {m : Memory} {e : Entry} {wh : Nat × Nat} {c : Cursor}
    (h : frameBounds m e = .ok (wh, c)) : c.buf = m ∧ c.pos ≤ m.len := by
  simp only [frameBounds, bind, Except.bind, pure, Except.pure] at h
  split at h
  · cases h
  · rename_i p hp
    obtain ⟨wh1, c1⟩ := p
    obtain ⟨h1, h2⟩ := boundsOfCell_cases hp (Nat.zero_le _)
    split at h
    · cases h
    · rename_i q hq
      obtain ⟨wh2, c2⟩ := q
      obtain ⟨h3, h4⟩ := boundsOfCell_cases hq (by rw [h1]; exact h2)
      cases h
      exact ⟨h3.trans h1, by rw [h1] at h4; exact h4⟩

end Sys2Proof.Machine
end

