-- ==== Sys2Proof/Laws/PerInstr.lean ====
section
/-! SUPPORT. The family `Sized`: the encoding of an instruction has its size, 1 to 3 bytes, so the
three bytes a step hands to the decoder always hold a whole fixed layout (30_encoding.md R72). -/

namespace Sys2Proof.Laws.Sized

/-- The encoding has as many bytes as the layout, at least one and at most three. -/
def Statement (i : Instr) : Prop := (encode i).length = i.size ∧ 1 ≤ i.size ∧ i.size ≤ 3

theorem lit0 (n : BitVec 5) : Statement (.lit0 n) := by simp [Statement, encode, Instr.size]

theorem lit1 (n : BitVec 5) : Statement (.lit1 n) := by simp [Statement, encode, Instr.size]

theorem rep (len5 : BitVec 5) (v : Byte) : Statement (.rep len5 v) := by
  simp [Statement, encode, Instr.size]

theorem copy (len5 : BitVec 5) (back : Half) : Statement (.copy len5 back) := by
  simp [Statement, encode, Instr.size, le16]

theorem pair (len5 : BitVec 5) (a b : Byte) : Statement (.pair len5 a b) := by
  simp [Statement, encode, Instr.size]

theorem gap (len5 : BitVec 5) : Statement (.gap len5) := by simp [Statement, encode, Instr.size]

theorem patu (ss : BitVec 2) (pattLen : BitVec 3) (seed : Byte) :
    Statement (.patu ss pattLen seed) := by simp [Statement, encode, Instr.size]

theorem patd (ss : BitVec 2) (pattLen : BitVec 3) (seed : Byte) :
    Statement (.patd ss pattLen seed) := by simp [Statement, encode, Instr.size]

theorem vgap (skipCount : Byte) : Statement (.vgap skipCount) := by
  simp [Statement, encode, Instr.size]

theorem line (lineLength xStart : Byte) : Statement (.line lineLength xStart) := by
  simp [Statement, encode, Instr.size]

theorem rleRun (r : BitVec 7) (value : Byte) : Statement (.rleRun r value) := by
  simp [Statement, encode, Instr.size]

theorem rleLit (m : BitVec 7) : Statement (.rleLit m) := by simp [Statement, encode, Instr.size]

end Sys2Proof.Laws.Sized
end

