-- ==== Sys2Proof/Tests/Slice0.lean ====
section
/-! SUPPORT. Tests of the model and witnesses for the statements. Expected values are those of
spec/95_test_vectors.md (named in each test's comment) or read off the encoding tables of
30_encoding.md. -/

namespace Sys2Proof.Tests

open Sys2Proof.Machine

/-! ### Small states -/

/-- What a test looks at in the state a step answers. -/
def seen {α : Type} (o : Host.Outcome State Fault Refusal) (f : State → α) : Option α :=
  match o with
  | .next t => some (f t)
  | .fault _ => none
  | .refused _ => none

/-- An open line record: `bytes` starts with `line_length, x_start` at address 0, the first operation
is due, the cell is `width` wide and one line high, and it is drawn into a frame of its size. -/
def lineOn (bytes : List Byte) (width : Nat) : State :=
  { State.reset with
    phase := .ops
    cur := { buf := Memory.ofBytes bytes, pos := 2 }
    hdr := { xOffset := 0, width := BitVec.ofNat 16 width, yOffset := 0, height := 1 }
    lineLength := bytes.headD 0
    lineStart := 1
    lineEnd := 1 + (bytes.headD 0).toNat
    drawX := (bytes.getD 1 0).toNat
    canvas := some (Frame.fresh width 1) }

/-- At the scanline loop of a cell of height `height`, a record due at address 0. -/
def recordOn (bytes : List Byte) (height : Nat) : State :=
  { State.reset with
    phase := .record
    cur := Cursor.over (Memory.ofBytes bytes)
    hdr := { xOffset := 0, width := 4, yOffset := 0, height := BitVec.ofNat 16 height }
    canvas := some (Frame.fresh 4 height) }

/-- A cell is due at `off`. -/
def cellOn (bytes : List Byte) (off : Nat) : State :=
  { State.reset with
    phase := .cellStart
    pending := [off]
    cur := Cursor.over (Memory.ofBytes bytes)
    canvas := some (Frame.fresh 4 1) }

/-- A running `rle_decode` over `bytes`. -/
def rleOn (bytes : List Byte) : State :=
  { State.reset with phase := .rleDecode, cur := Cursor.over (Memory.ofBytes bytes) }

/-- After reset, one operation asked for. -/
def asked (op : HostOp) : State := { State.reset with requests := [op] }

/-- An index over `bytes` with one entry. -/
def indexOf (bytes : List Byte) (e : Entry) : SpriteIndex :=
  { wbuf := Memory.ofBytes bytes, count := 1, entries := [e] }

/-- After reset, an index, and one operation asked for. -/
def askedWith (ix : SpriteIndex) (op : HostOp) : State := { asked op with index := some ix }

/-- The row of a state, column by column. -/
def rowOf (s : State) (n : Nat) : List Sample := (List.range n).map (sampleAt s.row)

/-- The bytes `01 00 06 00 00 00 00 00 04 00 00 00 01 00 03 00 42 07` of program P1. -/
def p1 : List Byte :=
  [1, 0, 6, 0, 0, 0, 0, 0, 4, 0, 0, 0, 1, 0, 3, 0, 0x42, 7]

/-- The line record of V5, first row, and the five bytes after it. -/
def v5 : List Byte := [9, 0, 3, 0x11, 0x22, 0x33, 0x44, 0x64, 3, 0, 0xA0, 0xA1, 0xA2, 0xA3, 0xA4]

/-- The state with another position and draw position. -/
def movedTo (s : State) (pos drawX : Nat) : State :=
  { s with cur := { s.cur with pos := pos }, drawX := drawX }

/-! ### Syntax, decoding and fetching -/

/-- R70: a line record whose first byte is 0 has no encoding. -/
theorem test_line_of_length_zero_is_ill_formed : (Instr.line 0#8 0x05#8).wellFormed = false := by
  decide

theorem test_line_of_length_one_is_well_formed : (Instr.line 1#8 0x05#8).wellFormed = true := by
  decide

/-- `000nnnnn`. -/
theorem test_word_lit0 : decode .operation [0b00010011#8] = .ok (.lit0 19#5, []) := rfl

/-- `001nnnnn`. -/
theorem test_word_lit1 : decode .operation [0b00100001#8] = .ok (.lit1 1#5, []) := rfl

/-- `010lllll v` (V3: `43 10`). -/
theorem test_word_rep : decode .operation [0b01000011#8, 0x10#8] = .ok (.rep 3#5 0x10#8, []) := rfl

/-- `011lllll lo hi`: the first byte of the field is the less significant one (R74). -/
theorem test_word_copy :
    decode .operation [0b01111111#8, 0x34#8, 0x12#8] = .ok (.copy 31#5 0x1234#16, []) := rfl

/-- `100lllll a b`. -/
theorem test_word_pair :
    decode .operation [0b10000010#8, 1#8, 2#8, 3#8] = .ok (.pair 2#5 1#8 2#8, [3#8]) := rfl

/-- `101lllll` (V4: `A2`). -/
theorem test_word_gap : decode .operation [0b10100010#8] = .ok (.gap 2#5, []) := rfl

/-- `110ssppp seed`. -/
theorem test_word_patu : decode .operation [0b11011010#8, 9#8] = .ok (.patu 3#2 2#3 9#8, []) := rfl

/-- `111ssppp seed`. -/
theorem test_word_patd : decode .operation [0b11101110#8, 9#8] = .ok (.patd 1#2 6#3 9#8, []) := rfl

/-- `00 skip_count`. -/
theorem test_word_vgap : decode .record [0x00#8, 0xFF#8] = .ok (.vgap 0xFF#8, []) := rfl

/-- `line_length x_start`. -/
theorem test_word_line : decode .record [0x80#8, 0x04#8] = .ok (.line 0x80#8 0x04#8, []) := rfl

/-- `1rrrrrrr value` (T-RLE: `FF 09` is a run of 127). -/
theorem test_word_rleRun : decode .rle [0b11111111#8, 0x09#8] = .ok (.rleRun 127#7 0x09#8, []) := rfl

/-- `0mmmmmmm`. -/
theorem test_word_rleLit : decode .rle [0b01111110#8] = .ok (.rleLit 126#7, []) := rfl

/-- A layout that the sequence ends inside of is rejected by name. -/
theorem test_cut_off_layout_rejected :
    decode .operation [0x60#8, 0x01#8] = .error (.operandMissing "COPY") := rfl

/-- A table word, first byte in the low bits (V3). -/
theorem test_table_word_rep : decodeTableWord 16 0x1043 = some (.rep 3#5 0x10#8) := by decide +kernel

theorem test_table_word_vgap : decodeTableWord 8 0 = some (.vgap 0#8) := by decide +kernel

/-- The step after reset runs the word that was placed (V3: six pixels, two bytes consumed). -/
theorem test_fetch_word_runs :
    seen (step (State.reset.withFetchWord 16 0x1043)) (fun t => (t.drawX, t.cur.pos, t.lat.v)) =
      some (6, 2, 0x10#8) := by decide +kernel

theorem test_fetch_word_vgap :
    seen (step (State.reset.withFetchWord 8 0)) (fun t => (t.destY, t.linesDone)) = some (1, 1) := by
  decide +kernel

/-! ### One step of each instruction -/

/-- LIT-b. -/
theorem test_lit0 :
    seen (step (lineOn [5, 0, 2, 0x0A, 0x0B, 0x0C] 12)) (fun t => (rowOf t 4, t.cur.pos)) =
      some ([.Px 0x0A, .Px 0x0B, .Px 0x0C, .T], 6) := by decide +kernel

/-- REC10: six bytes asked for, one byte of the budget left. -/
theorem test_lit0_stops_movedToline_end :
    seen (step (lineOn [3, 0, 5, 0xAA, 3, 1, 0, 0xBB] 4)) (fun t => (rowOf t 2, t.cur.pos)) =
      some ([.Px 0xAA, .T], 4) := by decide +kernel

/-- LIT-c: opcode `20` takes 33 bytes. -/
theorem test_lit1_counts_bit_5 :
    seen (step (lineOn ([0x23, 0, 0x20] ++ (List.range 33).map (BitVec.ofNat 8 ∘ (· + 1))) 40))
        (fun t => (t.drawX, t.cur.pos, sampleAt t.row 32, sampleAt t.row 33)) =
      some (33, 36, .Px 0x21, .T) := by decide +kernel

/-- V3. -/
theorem test_rep :
    seen (step (lineOn [3, 0, 0x43, 0x10] 12)) (fun t => (rowOf t 7, t.drawX)) =
      some (List.replicate 6 (.Px 0x10) ++ [.T], 6) := by decide +kernel

/-- REP-d, V8: five asked for, the fifth dropped, the draw position counts it. -/
theorem test_rep_drops_beyond_width :
    seen (step (lineOn [3, 0, 0x42, 7] 4)) (fun t => (rowOf t 5, t.drawX)) =
      some (List.replicate 4 (.Px 7) ++ [.T], 5) := by decide +kernel

/-- V5, first row: the source is the input buffer, not the pixels. -/
theorem test_copy :
    seen (step (movedTo (lineOn v5 12) 7 4))
        (fun t => ((rowOf t 12).drop 4, t.cur.pos)) =
      some ([.Px 0x64, .Px 3, .Px 0, .Px 0xA0, .Px 0xA1, .Px 0xA2, .Px 0xA3, .Px 0xA4], 10) := by
  decide +kernel

/-- COPY-f in a shorter buffer: a source before address 0. -/
theorem test_copy_before_buffer :
    seen (step (lineOn [4, 0, 0x64, 6, 0] 8)) (fun t => (t.status, t.frame)) =
      some (.malformedCell 0, none) := by decide +kernel

/-- PAIR-b. -/
theorem test_pair :
    seen (step (lineOn [4, 0, 0x81, 5, 9] 12)) (fun t => rowOf t 7) =
      some [.Px 5, .Px 9, .Px 5, .Px 9, .Px 5, .Px 9, .T] := by decide +kernel

/-- PAIR-c. -/
theorem test_pair_drops_last :
    seen (step (lineOn [4, 0, 0x80, 5, 9] 3)) (fun t => (rowOf t 4, t.drawX)) =
      some ([.Px 5, .Px 9, .Px 5, .T], 4) := by decide +kernel

/-- V4. -/
theorem test_gap :
    seen (step (lineOn [4, 0, 0xA2, 0x40, 8] 12)) (fun t => (t.row, t.drawX, t.cur.pos)) =
      some ([], 3, 3) := by decide +kernel

/-- P3 row 0, default table. -/
theorem test_patu :
    seen (step (lineOn [5, 0, 0xC9, 0x10, 0xC2, 0xFF] 10)) (fun t => rowOf t 5) =
      some [.Px 0x10, .Px 0x11, .Px 0x12, .Px 0x13, .T] := by decide +kernel

/-- P3 row 2: the accumulator wraps, the last two pixels are dropped. -/
theorem test_patu_wraps :
    seen (step (lineOn [3, 2, 0xDF, 0xF0] 10)) (fun t => rowOf t 10) =
      some [.T, .T, .Px 0xF0, .Px 0xF3, .Px 0xF6, .Px 0xF9, .Px 0xFC, .Px 0xFF, .Px 2, .Px 5] := by
  decide +kernel

/-- P3 row 1. -/
theorem test_patd :
    seen (step (lineOn [5, 0, 0xE2, 2, 0xF8, 1] 10)) (fun t => rowOf t 6) =
      some [.Px 2, .Px 2, .Px 1, .Px 1, .Px 0, .T] := by decide +kernel

/-- P3 row 1, second operation: below 0 the accumulator wraps. -/
theorem test_patd_wraps :
    seen (step (lineOn [3, 0, 0xF8, 1] 10)) (fun t => rowOf t 4) =
      some [.Px 1, .Px 0xFE, .Px 0xFB, .T] := by decide +kernel

/-- REC3: `skip_count = FF` is 256 rows. -/
theorem test_vgap :
    seen (step { recordOn [0, 0xFF] 3 with linesDone := 1, destY := 1 })
        (fun t => (t.linesDone, t.destY, t.cur.pos)) = some (257, 257, 2) := by decide +kernel

/-- REC5. -/
theorem test_vgap_cut_off :
    seen (step (recordOn [0] 1)) (fun t => t.status) = some (.malformedCell 0) := by decide +kernel

/-- P1, record @14: `line_end = 18`. -/
theorem test_line :
    seen (step { movedTo (recordOn p1 1) 14 9 with row := [(0, 1)] })
        (fun t => (t.lineEnd, t.cur.pos, t.row, t.drawX)) = some (18, 16, [], 0) := by decide +kernel

/-- XS-a: `x_start = 4`. -/
theorem test_line_x_start :
    seen (step (recordOn [3, 4, 0x40, 4] 1)) (fun t => (t.drawX, t.phase)) = some (4, .ops) := by
  decide +kernel

/-- `03 01 02 03 85 00` from the second record on (T-RLEDEC). -/
theorem test_rleRun :
    seen (step (rleOn [0x85, 0])) (fun t => t.out) = some (List.replicate 5 0#8) := by decide +kernel

/-- T-RLEDEC: `80 07` consumes its value byte. -/
theorem test_rleRun_of_zero :
    seen (step (rleOn [0x80, 7])) (fun t => (t.out, t.cur.pos)) = some ([], 2) := by decide +kernel

/-- T-RLEDEC. -/
theorem test_rleLit :
    seen (step (rleOn [3, 1, 2, 3, 0x85, 0])) (fun t => (t.out, t.cur.pos)) =
      some ([1#8, 2#8, 3#8], 4) := by decide +kernel

/-- T-RLEDEC: a literal cut off. -/
theorem test_rleLit_cut_off :
    seen (step (rleOn [2, 1])) (fun t => (t.status, t.out)) =
      some (.boundsError (.read 1 2), []) := by decide +kernel

/-! ### Sequencing and host operations -/

/-- P1: the row is blitted at the end of the record. -/
theorem test_line_end :
    seen (step { movedTo (lineOn [3, 0, 0x42, 7] 4) 4 5 with row := [(0, 7), (2, 7)] })
        (fun t => (t.canvas, t.destY, t.linesDone, t.phase)) =
      some (some { w := 4, h := 1, cells := [(0, 7#8), (2, 7#8)] }, 1, 1, .record) := by decide +kernel

/-- P1: the header at 6 is `(0, 4, 0, 1)`. -/
theorem test_cell_start :
    seen (step (cellOn p1 6)) (fun t => (t.hdr, t.cur.pos)) =
      some ({ xOffset := 0, width := 4, yOffset := 0, height := 1 }, 14) := by decide +kernel

/-- R92, R119: the end of a bare `decode_cell` updates the caller's frame and leaves the returned one. -/
theorem test_bare_cell_keeps_returned_frame :
    seen (step { cellOn [] 0 with pending := [], bare := true, frame := some (Frame.fresh 2 2) })
        (fun t => (t.frame, t.callerFrame, t.canvas)) =
      some (some (Frame.fresh 2 2), some (Frame.fresh 4 1), none) := by decide +kernel

/-- R156: `to_chunky` needs a returned frame; one that a bare `decode_cell` drew is none. -/
theorem test_chunky_of_caller_frame_refused :
    step { asked (.toChunky .held) with callerFrame := some (Frame.fresh 4 1) } =
      .refused .noFrame := rfl

/-- R78: the data of the literal ends one byte behind the buffer (log 26), and inside it. -/
theorem test_cut_off_literal_is_ill_formed :
    opsExact (Memory.ofBytes [3, 0, 0]) 4 3 2 = false ∧
      opsExact (Memory.ofBytes [3, 0, 0, 9]) 4 3 2 = true := by decide +kernel

/-- T-IX, last row: the retry over the deciphered buffer. -/
theorem test_parse_retry :
    seen (step (asked (.parse [0x34, 0x35, 0x33, 0x35, 0x35, 0x35])))
        (fun t => (t.index, t.lowConfidence)) =
      some (some (indexOf [1, 0, 6, 0, 0, 0] { offset1 := 6, offset2 := 0 }), true) := by
  decide +kernel

/-- T-IX: the count limit is exclusive. -/
theorem test_parse_rejected :
    seen (step (asked (.parse [0x00, 0x08]))) (fun t => (t.index, t.status)) =
      some (none, .indexRejected) := by decide +kernel

/-- T-CHUNKY, T-PLANES: V8's pixels in three planes. -/
theorem test_planes :
    seen (step (asked (.toPlanes (.given 4 1 [7, 7, 7, 7]) 3)))
        (fun t => t.planes.map fun pl => pl.planes.map Memory.toBytes) =
      some (some [[0x0F#8], [0x0F#8], [0x0F#8]]) := by decide +kernel

/-- T-FILE, rle: `payload_size` counts the blocks, not their size prefixes. -/
theorem test_file_rle :
    let made : Planes := { w := 4, h := 1, planes := [Memory.ofBytes [0x0F], Memory.ofBytes [0x0F]] }
    seen (step { asked (.writeBitplaneFile (.given 4 1 [[0x0F], [0x0F]]) .rle) with
        returnedPlanes := [made] }) (fun t => t.out) =
      some [4, 0, 0, 0, 1, 0, 0, 0, 2, 0, 0, 0, 4, 0, 0, 0, 2, 0, 0, 0, 1, 0x0F, 2, 0, 0, 0, 1,
        0x0F] := by decide +kernel

/-- R156: a frame nobody returned is refused; one that was is taken, handed in as its samples. -/
theorem test_chunky_of_unreturned_frame :
    let op : HostOp := .toChunky (.given 2 1 [.Px 0, .T])
    step (asked op) = .refused .noFrame ∧
      seen (step { asked op with returnedFrames := [{ w := 2, h := 1, cells := [(0, 0)] }] })
        (fun t => t.chunky.map fun c => c.px.toBytes) = some (some [0, 0]) :=
  ⟨rfl, by decide +kernel⟩

/-- T-IL: three made planes under other dimensions, in the order the host names them. -/
theorem test_interleave_as_8_by_4 :
    let a := [0xA0#8, 0xA1, 0xA2, 0xA3]
    let b := [0xB0#8, 0xB1, 0xB2, 0xB3]
    let c := [0xC0#8, 0xC1, 0xC2, 0xC3]
    seen (step { asked (.interleave (.given 8 4 [a, b, c])) with
        returnedPlanes := [{ w := 16, h := 2, planes := [a, b, c].map Memory.ofBytes }] })
        (fun t => t.out) =
      some [0xA0, 0xB0, 0xC0, 0xA1, 0xB1, 0xC1, 0xA2, 0xB2, 0xC2, 0xA3, 0xB3, 0xC3] := by
  decide +kernel

/-- R156: planes nobody made are refused. -/
theorem test_interleave_of_unmade_planes :
    step (asked (.interleave (.given 8 1 [[1]]))) = .refused .noPlanes := rfl

/-- T-RLE. -/
theorem test_compress :
    rleCompress [1, 2, 2, 3, 3, 3, 4] = [3, 1, 2, 2, 0x83, 3, 1, 4] := by decide +kernel

/-! ### Witnesses: for each statement with hypotheses, states and operands that meet them, at the
boundaries of every clause -/

theorem witness_DecodeReadsBackEncoding :
    (Instr.line 1#8 0#8).wellFormed = true ∧ (Instr.line 0xFF#8 0xFF#8).wellFormed = true ∧
      (Instr.copy 31#5 0xFFFF#16).wellFormed = true := by decide

theorem witness_DecodedBytesAreTheEncoding :
    decode .operation [0x60#8, 0x08#8, 0x01#8, 0xEE#8] = .ok (.copy 0#5 0x0108#16, [0xEE#8]) := rfl

theorem witness_AssembledOperationsDecode :
    (AsmOp.lit [1]).legal = true ∧ (AsmOp.lit (List.replicate 32 1)).legal = true ∧
      (AsmOp.lit (List.replicate 33 1)).legal = true ∧
      (AsmOp.lit (List.replicate 64 1)).legal = true ∧ (AsmOp.rep 3 0).legal = true ∧
      (AsmOp.rep 34 0).legal = true ∧ (AsmOp.copy 4 0).legal = true ∧
      (AsmOp.copy 35 0xFFFF).legal = true ∧ (AsmOp.pair 2 0 0).legal = true ∧
      (AsmOp.pair 33 0 0).legal = true ∧ (AsmOp.gap 1).legal = true ∧ (AsmOp.gap 32).legal = true ∧
      (AsmOp.patu 0 3 0).legal = true ∧ (AsmOp.patu 3 10 0).legal = true ∧
      (AsmOp.patd 0 3 0).legal = true ∧ (AsmOp.patd 3 10 0).legal = true ∧
      (AsmOp.byte []).legal = true := by decide

theorem witness_StepRunsDecodedInstruction :
    dueSpace (lineOn [3, 0, 0x43, 0x10] 12) = some .operation ∧
      decode .operation (fetchWindow (lineOn [3, 0, 0x43, 0x10] 12)) = .ok (.rep 3#5 0x10#8, []) := by
  decide +kernel

theorem witness_StepRunsEncodingAtCursor :
    (Instr.rep 3#5 0x10#8).wellFormed = true ∧
      dueSpace (lineOn [3, 0, 0x43, 0x10] 12) = some (Instr.rep 3#5 0x10#8).space ∧
      AtCursor (lineOn [3, 0, 0x43, 0x10] 12) (encode (.rep 3#5 0x10#8)) := by
  refine ⟨rfl, by decide +kernel, ?_⟩
  unfold AtCursor
  decide +kernel

/-- One state for each space: an operation, a record and an RLE record that the buffer cuts off. -/
theorem witness_CutOffFetchEndsTheOperation :
    dueSpace (lineOn [3, 0, 0x43] 12) = some .operation ∧
      decode .operation (fetchWindow (lineOn [3, 0, 0x43] 12)) = .error (.operandMissing "REP") ∧
      dueSpace (recordOn [] 1) = some .record ∧
      decode .record (fetchWindow (recordOn [] 1)) = .error .noFirstByte ∧
      dueSpace (rleOn [0x83]) = some .rle ∧
      decode .rle (fetchWindow (rleOn [0x83])) = .error (.operandMissing "RLE.RUN") := by
  decide +kernel

/-- Both opcodes at both ends of their range, a run that just fits and one that does not. -/
theorem witness_LiteralRunsEmitStreamBytes :
    (0x00#8).toNat = (0#5).toNat ∧ (0x1F#8).toNat = (31#5).toNat ∧
      (0x20#8).toNat = 32 + (0#5).toNat ∧ (0x3F#8).toNat = 32 + (31#5).toNat ∧
      (let s := lineOn [5, 0, 2, 0x0A, 0x0B, 0x0C] 12
       s.cur.pos + 1 + min (2 + 1) (s.lineEnd - (s.cur.pos + 1)) = s.cur.buf.len) ∧
      (let s := lineOn [5, 0, 2, 0x0A, 0x0B] 12
       s.cur.buf.len < s.cur.pos + 1 + min (2 + 1) (s.lineEnd - (s.cur.pos + 1))) := by decide

theorem witness_RepEmitsItsValue :
    (lineOn [3, 0, 0x43, 0x10] 12).cur.pos + 2 = (lineOn [3, 0, 0x43, 0x10] 12).cur.buf.len ∧
      (lineOn [3, 0, 0x43] 12).cur.buf.len < (lineOn [3, 0, 0x43] 12).cur.pos + 2 := by decide

/-- `P = 5`: `back = 5` is the largest that stays in the buffer; `back = 6`, a source that ends
behind the buffer, and a field that is cut off are the three ways to fail. -/
theorem witness_CopyEmitsBufferBytes :
    (let s := lineOn [4, 0, 0x60, 5, 0] 8
     s.cur.pos + 3 ≤ s.cur.buf.len ∧ (5#16).toNat = s.cur.pos + 3 ∧
       s.cur.pos + 3 - (5#16).toNat + ((0#5).toNat + 4) ≤ s.cur.buf.len ∧
       s.cur.pos + 3 - (1#16).toNat + ((0#5).toNat + 4) > s.cur.buf.len ∧
       s.cur.pos + 3 < (6#16).toNat) ∧
      (lineOn [4, 0, 0x60, 5] 8).cur.buf.len < (lineOn [4, 0, 0x60, 5] 8).cur.pos + 3 := by decide

theorem witness_PairEmitsAlternating :
    (lineOn [4, 0, 0x80, 5, 9] 12).cur.pos + 3 = (lineOn [4, 0, 0x80, 5, 9] 12).cur.buf.len ∧
      (lineOn [4, 0, 0x80, 5] 12).cur.buf.len < (lineOn [4, 0, 0x80, 5] 12).cur.pos + 3 := by decide

theorem witness_GapSkipsColumns :
    (lineOn [2, 0, 0xA2] 12).cur.pos + 1 = (lineOn [2, 0, 0xA2] 12).cur.buf.len ∧
      (lineOn [2, 0] 12).cur.buf.len < (lineOn [2, 0] 12).cur.pos + 1 := by decide

theorem witness_PatternFillsFollowStepTable :
    (lineOn [3, 0, 0xC9, 0x10] 12).cur.pos + 2 = (lineOn [3, 0, 0xC9, 0x10] 12).cur.buf.len ∧
      (lineOn [3, 0, 0xC9] 12).cur.buf.len < (lineOn [3, 0, 0xC9] 12).cur.pos + 2 ∧
      (0xC9#8 = 0b110#3 ++ 1#2 ++ 1#3 ∧ (1#2).toNat = 1) ∧
      (0xFF#8 = 0b111#3 ++ 3#2 ++ 7#3 ∧ 4 + (3#2).toNat = 7) := by decide

/-- An operation that completes, and one that the buffer cuts off. -/
theorem witness_OperationsTouchOnlyDecoderRegisters :
    (Instr.copy 31#5 0#16).space = .operation ∧ (lineOn [3, 0, 0x43, 0x10] 12).phase = .ops ∧
      (lineOn [3, 0, 0x43] 12).phase = .ops ∧
      seen (exec (.rep 3#5 0x10#8) (lineOn [3, 0, 0x43, 0x10] 12)) (fun t => t.status) = some .ok ∧
      seen (exec (.rep 3#5 0x10#8) (lineOn [3, 0, 0x43] 12)) (fun t => t.status) =
        some (.malformedCell 0) := by decide +kernel

theorem witness_GapRecordSkipsRows :
    (recordOn [0, 0xFF] 3).cur.pos + 2 = (recordOn [0, 0xFF] 3).cur.buf.len ∧
      (recordOn [0] 3).cur.buf.len < (recordOn [0] 3).cur.pos + 2 := by decide

theorem witness_LineRecordOpens :
    (recordOn [1, 0] 3).cur.pos + 2 = (recordOn [1, 0] 3).cur.buf.len ∧
      (recordOn [1] 3).cur.buf.len < (recordOn [1] 3).cur.pos + 2 := by decide

theorem witness_LineRecordEndsWithBlit :
    let s := movedTo (lineOn [3, 0, 0x42, 7] 4) 4 5
    s.phase = .ops ∧ s.lineEnd = s.cur.pos ∧ s.canvas = some (Frame.fresh 4 1) := by decide

/-- A header that just fits, and one a byte too short. -/
theorem witness_CellStartsWithHeaderRead :
    (let s := cellOn [0, 0, 4, 0, 0, 0, 1, 0] 0
     s.phase = .cellStart ∧ s.pending = [0] ∧ s.canvas = some (Frame.fresh 4 1) ∧
       0 + 8 = s.cur.buf.len) ∧
      (let s := cellOn [0, 0, 4, 0, 0, 0, 1] 0
       s.phase = .cellStart ∧ s.pending = [0] ∧ s.canvas = some (Frame.fresh 4 1) ∧
         s.cur.buf.len < 0 + 8) := by decide

theorem witness_FinishedCellReadsNoMore :
    (recordOn [] 0).phase = .record ∧
      (recordOn [] 0).hdr.height.toNat = (recordOn [] 0).linesDone ∧
      ({ cellOn [] 0 with pending := [] } : State).phase = .cellStart ∧
      ({ cellOn [] 0 with pending := [] } : State).pending = [] := by decide

theorem witness_RleRunAppendsCopies :
    (rleOn [0x85, 0]).cur.pos + 2 = (rleOn [0x85, 0]).cur.buf.len ∧
      (rleOn [0x85]).cur.buf.len < (rleOn [0x85]).cur.pos + 2 := by decide

theorem witness_RleLiteralAppendsBytes :
    (rleOn [2, 1, 2]).cur.pos + 1 + (2#7).toNat = (rleOn [2, 1, 2]).cur.buf.len ∧
      (rleOn [2, 1]).cur.buf.len < (rleOn [2, 1]).cur.pos + 1 + (2#7).toNat := by decide

/-- T-CUR, buffer `AA BB CC`: both ends of the legal range and one step beyond each, by origin. -/
theorem witness_SeekMovesOrRaises :
    let c : Cursor := { buf := Memory.ofBytes [0xAA, 0xBB, 0xCC], pos := 1 }
    ((0 : Int) ≤ 0 + 3 ∧ (0 : Int) + 3 ≤ c.buf.len ∧ (c.buf.len : Int) < 0 + 4) ∧
      ((0 : Int) ≤ c.pos + -1 ∧ (c.pos : Int) + 2 ≤ c.buf.len ∧ (c.pos : Int) + -2 < 0) ∧
      ((0 : Int) ≤ c.buf.len + -3 ∧ (c.buf.len : Int) + 0 ≤ c.buf.len ∧
        (c.buf.len : Int) < c.buf.len + 1) := by decide

theorem witness_ReadIsAllOrNothing :
    let c : Cursor := { buf := Memory.ofBytes [0xAA, 0xBB, 0xCC], pos := 1 }
    c.pos + 2 = c.buf.len ∧ c.buf.len < c.pos + 3 := by decide

theorem witness_NarrowReadsAreLittleEndian :
    let c : Cursor := { buf := Memory.ofBytes [0xAA, 0xBB, 0xCC], pos := 2 }
    let d : Cursor := { c with pos := 3 }
    let e : Cursor := { c with pos := 1 }
    c.pos + 1 = c.buf.len ∧ d.buf.len < d.pos + 1 ∧ e.pos + 2 = e.buf.len ∧
      c.buf.len < c.pos + 2 := by decide

theorem witness_PrimitivesKeepCursorInBuffer :
    let c : Cursor := { buf := Memory.ofBytes [0xAA, 0xBB, 0xCC], pos := 1 }
    c.pos ≤ c.buf.len ∧ c.seek .start 3 = .ok { c with pos := 3 } ∧
      c.read 2 = .ok ([0xBB, 0xCC], { c with pos := 3 }) ∧
      c.u8 = .ok (0xBB, { c with pos := 2 }) ∧ c.u16 = .ok (0xCCBB, { c with pos := 3 }) := by
  decide +kernel

/-- T-IX: lengths 1 and 2, counts 0, 1, 0x07FF and 0x0800, and an index that just fits. -/
theorem witness_AttemptClassifiesBuffer :
    ([0x01#8] : List Byte).length < 2 ∧ (u16le 0x00 0x00).toNat = 0 ∧
      0x0800 ≤ (u16le 0x00 0x08).toNat ∧
      (1 ≤ (u16le 0xFF 0x07).toNat ∧ (u16le 0xFF 0x07).toNat < 0x0800) ∧
      (1 ≤ (u16le 0x01 0x00).toNat ∧ ([1, 0, 6, 0, 0] : List Byte).length < 1 * 4 + 2 ∧
        1 * 4 + 2 = ([1, 0, 6, 0, 0, 0] : List Byte).length) := by decide

/-- T-IX, one buffer for each clause. -/
theorem witness_ParseRetriesOnceOnImplausible :
    Requested (asked (.parse [1, 0, 6, 0, 0, 0])) (.parse [1, 0, 6, 0, 0, 0]) [] ∧
      (∃ ix c, attempt (Memory.ofBytes [1, 0, 6, 0, 0, 0]) = .ok ix c) ∧
      attempt (Memory.ofBytes [1, 0]) = .truncated ∧
      (attempt (Memory.ofBytes [0x34, 0x35, 0x33, 0x35, 0x35, 0x35]) = .implausible ∧
        ∃ ix c, attempt (Memory.ofBytes
          ([0x34, 0x35, 0x33, 0x35, 0x35, 0x35].map (· ^^^ 0x35#8))) = .ok ix c) ∧
      (attempt (Memory.ofBytes [0x34, 0x35, 0x33]) = .implausible ∧
        attempt (Memory.ofBytes ([0x34, 0x35, 0x33].map (· ^^^ 0x35#8))) = .truncated) ∧
      (attempt (Memory.ofBytes [0, 0]) = .implausible ∧
        attempt (Memory.ofBytes ([0, 0].map (· ^^^ 0x35#8))) = .implausible) := by
  refine ⟨⟨rfl, rfl⟩, ⟨_, _, rfl⟩, by decide +kernel, ⟨by decide +kernel, ⟨_, _, rfl⟩⟩,
    by decide +kernel, by decide +kernel⟩

theorem witness_EncipheredIndexIsImplausible :
    2 ≤ [0x34#8, 0x35#8, 0x33#8, 0x35#8, 0x35#8, 0x35#8].length ∧
      (u16le (0x34#8 ^^^ 0x35#8) (0x35#8 ^^^ 0x35#8)).toNat < 0x0800 ∧
      (u16le (0xCA#8 ^^^ 0x35#8) (0x32#8 ^^^ 0x35#8)).toNat = 0x07FF ∧
      ∃ ix c, attempt (Memory.ofBytes
        ([0x34, 0x35, 0x33, 0x35, 0x35, 0x35].map (· ^^^ 0x35#8))) = .ok ix c :=
  ⟨by decide, by decide, by decide, _, _, rfl⟩

/-- Lookup with `count = 1`: `i = 0` is in range, `i = 1` and `i = -1` are not. -/
theorem witness_LookupIsByFrameNumber :
    IndexWf (indexOf p1 { offset1 := 6, offset2 := 0 }) ∧
      (0 : Int) < (indexOf p1 { offset1 := 6, offset2 := 0 }).count.toNat ∧
      ((indexOf p1 { offset1 := 6, offset2 := 0 }).count.toNat : Int) ≤ 1 ∧ (-1 : Int) < 0 :=
  ⟨⟨by decide, by decide, by decide⟩, by decide, by decide, by decide⟩

/-- P1 with its cell in the buffer, and an offset whose header ends one byte behind it. -/
theorem witness_FrameBoundsCoverTheCells :
    let e : Entry := { offset1 := 6, offset2 := 10 }
    let e' : Entry := { offset1 := 11, offset2 := 0 }
    Requested (askedWith (indexOf p1 e) (.getFrameBounds e)) (.getFrameBounds e) [] ∧
      (askedWith (indexOf p1 e) (.getFrameBounds e)).index = some (indexOf p1 e) ∧
      EntryReadable (indexOf p1 e).wbuf e ∧ ¬ EntryReadable (indexOf p1 e).wbuf e' := by
  refine ⟨⟨rfl, rfl⟩, rfl, ?_, ?_⟩ <;> unfold EntryReadable <;> decide

/-- `decode_frame`: every outcome of its start. -/
theorem witness_DecodesSetUpTheirFrames :
    let e : Entry := { offset1 := 6, offset2 := 0 }
    let e' : Entry := { offset1 := 11, offset2 := 0 }
    let s := askedWith (indexOf p1 e) (.decodeFrame 0)
    Requested s (.decodeFrame 0) [] ∧ s.index = some (indexOf p1 e) ∧
      lookup (indexOf p1 e) 1 = none ∧ lookup (indexOf p1 e) 0 = some e ∧
      lookup (indexOf p1 e') 0 = some e' ∧ ¬ EntryReadable (indexOf p1 e').wbuf e' ∧
      EntryReadable (indexOf p1 e).wbuf e ∧ entryExtent (indexOf p1 e).wbuf e = (4, 1) ∧
      s.cfg.frameMaxW = none ∧ s.cfg.frameMaxH = none ∧
      ({ s.cfg with frameMaxW := some 3 } : Config).frameMaxW = some 3 ∧ 3 < 4 ∧
      ({ s.cfg with frameMaxH := some 0 } : Config).frameMaxH = some 0 ∧ 0 < 1 := by
  refine ⟨⟨rfl, rfl⟩, rfl, rfl, rfl, rfl, ?_, ?_, by decide, rfl, rfl, rfl, by decide, rfl, by decide⟩
    <;> unfold EntryReadable <;> decide

/-- A bare `decode_cell` of a held and of a given buffer and frame. -/
theorem witness_DecodesSetUpTheirFrames_bare :
    let ix := indexOf p1 { offset1 := 6, offset2 := 0 }
    let s := { askedWith ix (.decodeCell .held 6 .held) with callerFrame := some (Frame.fresh 4 1) }
    let g : FrameArg := .given 1 1 [.Px 3]
    Requested s (.decodeCell .held 6 .held) [] ∧ BufferOperand s .held ix.wbuf ∧
      CallerFrameOperand s .held 4 1 (fun _ => .T) ∧
      Requested (asked (.decodeCell (.given p1) 6 g)) (.decodeCell (.given p1) 6 g) [] ∧
      BufferOperand s (.given p1) (Memory.ofBytes p1) ∧
      CallerFrameOperand s g 1 1 (fun a => [Sample.Px 3].getD a .T) :=
  ⟨⟨rfl, rfl⟩, .inl ⟨rfl, _, rfl, rfl⟩, .inl ⟨rfl, _, rfl, rfl, rfl, fun _ => rfl⟩, ⟨rfl, rfl⟩,
    .inr ⟨_, rfl, rfl⟩,
    .inr ⟨_, rfl, rfl, (fun _ h => by cases h), (fun _ h => by cases h), fun _ => rfl⟩⟩

/-- V7: an entry without cells; two steps from the request the operation has completed. -/
theorem witness_DecodedFrameHasItsBounds :
    let ix := indexOf [1, 0, 0, 0, 0, 0] { offset1 := 0, offset2 := 0 }
    let s := askedWith ix (.decodeFrame 0)
    Requested s (.decodeFrame 0) [] ∧ s.index = some ix ∧ 0 < 2 ∧
      ∃ t, Reaches 2 s t ∧ t.phase = .idle ∧ t.status = .ok ∧
        ∀ k u, 0 < k → k < 2 → Reaches k s u → u.phase ≠ .idle := by
  refine ⟨⟨rfl, rfl⟩, rfl, by decide, _, .cons rfl (.cons rfl (.zero _)), rfl, rfl, ?_⟩
  intro k u h0 h2 hr
  obtain rfl : k = 1 := by omega
  obtain ⟨v, hv, hu⟩ := reaches_succ.1 hr
  cases hu
  cases hv
  decide

/-- The state of P1 at its line record. -/
theorem lineOn_cellsFit : (lineOn [3, 0, 0x42, 7] 4).CellsFit := by
  intro _ _ _
  refine ⟨Frame.fresh 4 1, rfl, ?_, fun _ => ⟨?_, rfl⟩, fun _ => by decide⟩
  · intro off h
    cases h
  · unfold HeaderFits
    decide

theorem witness_DecodeFrameCellsStayInside :
    (lineOn [3, 0, 0x42, 7] 4).CellsFit ∧ (lineOn [3, 0, 0x42, 7] 4).bare = false ∧
      ∃ t, step (lineOn [3, 0, 0x42, 7] 4) = .next t :=
  ⟨lineOn_cellsFit, rfl, _, rfl⟩

theorem witness_DecodeFrameBlitClipsNothing :
    let s := lineOn [3, 0, 0x42, 7] 4
    s.CellsFit ∧ s.bare = false ∧ s.cfg.gapLines = .rows ∧ s.phase = .ops ∧
      3 < s.hdr.width.toNat :=
  ⟨lineOn_cellsFit, rfl, rfl, rfl, by decide⟩

/-- The frame returned last, and an earlier one, with an opaque sample, handed in. -/
theorem witness_ChunkyResolvesTransparency :
    let f : Frame := { w := 2, h := 1, cells := [(0, 0)] }
    let g : FrameArg := .given 2 1 [.Px 0, .T]
    let s := { asked (.toChunky .held) with
      frame := some (Frame.fresh 4 1), returnedFrames := [Frame.fresh 4 1, f] }
    Requested s (.toChunky .held) [] ∧ ReturnedFrameOperand s .held 4 1 (fun _ => .T) ∧
      Requested { s with requests := [.toChunky g] } (.toChunky g) [] ∧
      ReturnedFrameOperand { s with requests := [.toChunky g] } g 2 1 (sampleAt f.cells) :=
  ⟨⟨rfl, rfl⟩, .inl ⟨rfl, _, rfl, rfl, rfl, fun _ => rfl⟩, ⟨rfl, rfl⟩,
    .inr ⟨_, List.mem_cons_of_mem _ (List.mem_singleton.2 rfl), by decide, rfl, rfl, by decide,
      fun _ => rfl⟩⟩

/-- The held buffer, bytes handed in, and samples without `T`. -/
theorem witness_PlaneBitsArePixelBits :
    let c := chunkyOf (Frame.fresh 9 1)
    let s := { asked (.toPlanes .held 9) with chunky := some c }
    Requested s (.toPlanes .held 9) [] ∧ PixelOperand s .held 9 1 c.px.read ∧
      PixelOperand s (.given 1 1 [7]) 1 1 (fun a => [7#8].getD a 0) ∧
      PixelOperand s (.unresolved 1 1 [.Px 7]) 1 1 (fun a => [7#8].getD a 0) :=
  ⟨⟨rfl, rfl⟩, .inl ⟨rfl, _, rfl, rfl, rfl, fun _ => rfl⟩,
    .inr (.inl ⟨_, rfl, rfl, fun _ => rfl⟩), .inr (.inr ⟨[7], rfl, rfl, fun _ => rfl⟩)⟩

/-- The held planes, one of them alone under other dimensions, and none of them. -/
theorem witness_InterleaveIsRowMajor :
    let pl : Planes := { w := 8, h := 2, planes := [Memory.ofBytes [1, 2], Memory.ofBytes [3, 4]] }
    let pl' : Planes := { w := 16, h := 1, planes := [Memory.ofBytes [3, 4]] }
    let none' : Planes := { w := 16, h := 1, planes := [] }
    let g : PlanesArg := .given 16 1 [[3, 4]]
    let s := { asked (.interleave .held) with planes := some pl, returnedPlanes := [pl] }
    Requested s (.interleave .held) [] ∧ PlanesOperand s .held pl ∧
      Requested { s with requests := [.interleave g] } (.interleave g) [] ∧
      PlanesOperand { s with requests := [.interleave g] } g pl' ∧
      PlanesOperand s (.given 16 1 []) none' :=
  ⟨⟨rfl, rfl⟩, .inl ⟨rfl, rfl⟩, ⟨rfl, rfl⟩,
    .inr ⟨by decide, by decide, by unfold Planes.Wf; decide, by decide⟩,
    .inr ⟨by decide, (fun _ h => by cases h), (fun _ h => by cases h), rfl⟩⟩

/-- Two buffers that differ in bit 1 only agree in bit 0. -/
theorem witness_PlanesAreIndependent :
    let c : Chunky := { w := 1, h := 1, px := Memory.ofBytes [1] }
    let d : Chunky := { w := 1, h := 1, px := Memory.ofBytes [3] }
    c ≠ d ∧ c.w = d.w ∧ c.h = d.h ∧ (∀ a, (c.px.read a).getLsbD 0 = (d.px.read a).getLsbD 0) ∧
      3 ≤ 4 := by
  refine ⟨by decide, rfl, rfl, fun a => ?_, by decide⟩
  cases a <;> simp [Memory.read_ofBytes]

/-- A sequence handed in, `OUT`, and a held plane. -/
theorem witness_CompressRunsToCanonicalEncoding :
    let pl : Planes := { w := 8, h := 3, planes := [Memory.ofBytes [5, 5, 5]] }
    let s := { asked (.rleCompress (.plane 0)) with planes := some pl, out := [5] }
    Requested s (.rleCompress (.plane 0)) [] ∧ BytesOperand s (.plane 0) [5, 5, 5] ∧
      BytesOperand s .out [5] ∧ BytesOperand s (.bytes [1]) [1] :=
  ⟨⟨rfl, rfl⟩, .inr (.inr ⟨0, _, _, rfl, rfl, rfl, by decide +kernel⟩), .inr (.inl ⟨rfl, rfl⟩),
    .inl rfl⟩

theorem witness_RleRoundTripReproducesInput :
    let s := { State.reset with requests := [.rleCompress (.bytes [5, 5, 5]), .rleDecode .out] }
    s.phase = .idle ∧ s.requests = .rleCompress (.bytes [5, 5, 5]) :: .rleDecode .out :: [] :=
  ⟨rfl, rfl⟩

/-- A plane list that fits and one whose width needs a 33rd bit. -/
theorem witness_BitplaneFileHasItsLayout :
    let pl : Planes := { w := 2 ^ 32 - 1, h := 0, planes := [] }
    let pl' : Planes := { w := 2 ^ 32, h := 0, planes := [] }
    let g : PlanesArg := .given (2 ^ 32) 0 []
    let s := { asked (.writeBitplaneFile .held .raw) with
      planes := some pl, returnedPlanes := [pl, pl'] }
    (2 ^ 32 - 1 < 2 ^ 32) ∧ Requested s (.writeBitplaneFile .held .raw) [] ∧
      PlanesOperand s .held pl ∧ pl.w < 2 ^ 32 ∧
      Requested { s with requests := [.writeBitplaneFile g .raw] } (.writeBitplaneFile g .raw) [] ∧
      PlanesOperand { s with requests := [.writeBitplaneFile g .raw] } g pl' ∧ ¬ pl'.w < 2 ^ 32 :=
  ⟨by decide, ⟨rfl, rfl⟩, .inl ⟨rfl, rfl⟩, by decide, ⟨rfl, rfl⟩,
    .inr ⟨List.cons_ne_nil _ _, (fun _ h => by cases h), (fun _ h => by cases h), rfl⟩, by decide⟩

/-- Reset has no index, frame, chunky buffer or planes; one request for each clause. -/
theorem witness_RefusedWithoutPrerequisite :
    let e : Entry := { offset1 := 6, offset2 := 0 }
    let requested := fun op => Requested (asked op) op []
    (∀ op, requested op) ∧ State.reset.index = none ∧ State.reset.callerFrame = none ∧
      State.reset.frame = none ∧ State.reset.chunky = none ∧ State.reset.planes = none ∧
      step (asked (.getFrameBounds e)) = .refused .noIndex ∧
      step (asked (.decodeFrame 0)) = .refused .noIndex ∧
      step (asked (.decodeCell .held 6 .held)) = .refused .noWorkingBuffer ∧
      step (asked (.decodeCell (.given p1) 6 .held)) = .refused .noFrame ∧
      (askedWith (indexOf p1 e) (.decodeCell .held 6 .held)).index ≠ none ∧
      step (askedWith (indexOf p1 e) (.decodeCell .held 6 .held)) = .refused .noFrame ∧
      step (asked (.toChunky .held)) = .refused .noFrame ∧
      step (asked (.toPlanes .held 1)) = .refused .noChunky ∧
      step (asked (.interleave .held)) = .refused .noPlanes ∧
      step (asked (.rleCompress (.plane 0))) = .refused .noPlanes ∧
      step (asked (.writeBitplaneFile .held .raw)) = .refused .noPlanes ∧
      step (asked (.toPlanes (.unresolved 2 1 [.Px 1, .T]) 1)) = .refused .unresolvedTransparency ∧
      (let s := { asked (.toChunky (.given 1 1 [.T])) with returnedFrames := [Frame.fresh 2 1] }
       Requested s (.toChunky (.given 1 1 [.T])) [] ∧ [Sample.T].length = 1 * 1 ∧
        ∀ f ∈ s.returnedFrames, (f.w, f.h, f.samples) ≠ (1, 1, [.T])) ∧
      (let pl : Planes := { w := 8, h := 1, planes := [Memory.ofBytes [1]] }
       let s := { asked (.interleave (.given 8 1 [[2]])) with returnedPlanes := [pl] }
       Requested s (.interleave (.given 8 1 [[2]])) [] ∧
        (∀ bs ∈ [[2#8]], bs.length = (8 + 7) / 8 * 1) ∧
        ∃ bs ∈ [[2#8]], ∀ made ∈ s.returnedPlanes, ∀ m ∈ made.planes, m.toBytes ≠ bs) ∧
      (asked (.interleave (.given 8 1 []))).returnedPlanes = [] ∧
      step (asked (.interleave (.given 8 1 []))) = .refused .noPlanes :=
  ⟨fun _ => ⟨rfl, rfl⟩, rfl, rfl, rfl, rfl, rfl, rfl, rfl, rfl, rfl, by decide, rfl, rfl, rfl, rfl, rfl,
    rfl, rfl, ⟨⟨rfl, rfl⟩, rfl, by decide⟩, ⟨⟨rfl, rfl⟩, by decide, by decide⟩, rfl, rfl⟩

/-- An open line record of P1 meets the invariant. -/
theorem lineOn_inv : (lineOn [3, 0, 0x42, 7] 4).Inv where
  buf := by decide
  cur := by decide
  index := by intro ix h; cases h
  row := fun _ => by decide
  canvas := by intro f h; cases h; decide
  frame := by intro f h; cases h
  callerFrame := by intro f h; cases h
  chunky := by intro c h; cases h
  planes := by intro c h; cases h
  returnedFrames := by intro f h; cases h
  returnedPlanes := by intro f h; cases h
  frameReturned := by intro f h; cases h
  planesReturned := by intro f h; cases h
  drawing := ⟨fun _ => rfl, fun _ => .inr (.inr rfl)⟩
  line := fun _ => by decide

theorem witness_StepKeepsInvariant :
    (lineOn [3, 0, 0x42, 7] 4).Inv ∧ ∃ t, step (lineOn [3, 0, 0x42, 7] 4) = .next t :=
  ⟨lineOn_inv, _, rfl⟩

/-- The line record has ended, so the step reads the frame: the state a fault would come from. -/
theorem witness_InvariantRulesOutFaults :
    let s := movedTo (lineOn [3, 0, 0x42, 7] 4) 4 5
    s.Inv ∧ s.phase = .ops ∧ s.lineEnd ≤ s.cur.pos :=
  ⟨{ lineOn_inv with cur := by decide, line := fun _ => by decide }, rfl, by decide⟩

theorem witness_OnlyHostOperationsAreRefused :
    step (asked (.decodeFrame 0)) = .refused .noIndex := rfl

theorem witness_EveryOperationEnds :
    (lineOn [3, 0, 0x42, 7] 4).Inv ∧ (lineOn [3, 0, 0x42, 7] 4).phase ≠ .idle :=
  ⟨lineOn_inv, by decide⟩

/-- Two machines that differ in their draw position and `OUT` run `decode_frame(0)` of V7. -/
theorem witness_DecodeFrameIsPure :
    let ix := indexOf [1, 0, 0, 0, 0, 0] { offset1 := 0, offset2 := 0 }
    let s₁ := askedWith ix (.decodeFrame 0)
    let s₂ := { s₁ with drawX := 7, out := [1] }
    Requested s₁ (.decodeFrame 0) [] ∧ Requested s₂ (.decodeFrame 0) [] ∧ s₁.index = some ix ∧
      s₂.index = some ix ∧ s₁.cfg = s₂.cfg ∧ s₁ ≠ s₂ ∧
      ∃ t₁, Reaches 2 s₁ t₁ ∧ 0 < 2 ∧ t₁.phase = .idle := by
  refine ⟨⟨rfl, rfl⟩, ⟨rfl, rfl⟩, rfl, rfl, rfl, ?_, _, .cons rfl (.cons rfl (.zero _)), by decide, rfl⟩
  intro h
  have := congrArg State.drawX h
  revert this
  decide

/-- A running decode; and the ends of the operations that replace the returned and the caller's
frame. -/
theorem witness_ResultsAreWrittenByTheirOperations :
    (∃ t, step (lineOn [3, 0, 0x42, 7] 4) = .next t) ∧
      (∀ bytes rest, ¬ Requested (lineOn [3, 0, 0x42, 7] 4) (.parse bytes) rest) ∧
      (lineOn [3, 0, 0x42, 7] 4).phase ≠ .idle ∧
      (let s := { cellOn [] 0 with pending := [] }
       ∃ t, step s = .next t ∧ t.frame ≠ s.frame) ∧
      (let s := { askedWith (indexOf p1 { offset1 := 6, offset2 := 0 }) (.decodeFrame 1) with
         frame := some (Frame.fresh 1 1) }
       ∃ t, step s = .next t ∧ t.frame ≠ s.frame) ∧
      (let s := { cellOn [] 0 with pending := [], bare := true }
       ∃ t, step s = .next t ∧ t.callerFrame ≠ s.callerFrame) ∧
      (let s := { cellOn [] 0 with pending := [] }
       ∃ t, step s = .next t ∧ t.returnedFrames ≠ s.returnedFrames) ∧
      (let s := asked (.toPlanes (.given 1 1 [7]) 1)
       ∃ t, step s = .next t ∧ t.returnedPlanes ≠ s.returnedPlanes) :=
  ⟨⟨_, rfl⟩, (by intro _ _ h; cases h.1), by decide, ⟨_, rfl, by decide⟩, ⟨_, rfl, by decide⟩,
    ⟨_, rfl, by decide⟩, ⟨_, rfl, by decide⟩, ⟨_, rfl, by decide⟩⟩

theorem witness_OutcomeIsWrittenAtTheEnd :
    ∃ t, step (lineOn [3, 0, 0x42, 7] 4) = .next t ∧ t.phase ≠ .idle := ⟨_, rfl, by decide⟩

theorem witness_StepKeepsDrawBound :
    (lineOn [3, 0, 0x42, 7] 4).DrawBound ∧ ∃ t, step (lineOn [3, 0, 0x42, 7] 4) = .next t :=
  ⟨fun _ => by decide, _, rfl⟩

/-- At the start of a line, and at the largest overrun. -/
theorem witness_DrawPositionIsBounded :
    (lineOn [3, 0, 0x42, 7] 4).DrawBound ∧ (lineOn [3, 0, 0x42, 7] 4).phase = .ops ∧
      (lineOn [3, 0, 0x42, 7] 4).cur.pos ≤ (lineOn [3, 0, 0x42, 7] 4).lineEnd ∧
      (movedTo (lineOn [0xFF, 0] 4) 258 8447).DrawBound :=
  ⟨fun _ => by decide, rfl, by decide, fun _ => by decide⟩

/-- A step, and the two steps of P1's line record after its opening. -/
theorem witness_FetchAddressesIncrease :
    let s := lineOn [3, 0, 0x42, 7] 4
    dueSpace s = some .operation ∧ (∃ t, step s = .next t ∧ t.phase ≠ .idle) ∧
      ∃ t, Reaches 2 s t ∧ ∀ k u, k ≤ 2 → Reaches k s u → u.phase = .record ∨ u.phase = .ops := by
  refine ⟨rfl, ⟨_, rfl, by decide⟩, _, .cons rfl (.cons rfl (.zero _)), ?_⟩
  intro k u hk hr
  obtain rfl | rfl | rfl : k = 0 ∨ k = 1 ∨ k = 2 := by omega
  · cases hr
    exact .inr rfl
  · obtain ⟨v, hv, hu⟩ := reaches_succ.1 hr
    cases hu
    cases hv
    exact .inr rfl
  · obtain ⟨v, hv, hu⟩ := reaches_succ.1 hr
    cases hv
    obtain ⟨w, hw, hu⟩ := reaches_succ.1 hu
    cases hu
    cases hw
    exact .inl rfl

/-- T-RLEDEC: whole records, the never emitted tags among them, and both ways to be cut off. -/
theorem witness_RleDecodeExpandsItsRecords :
    let records : List RleRecord := [.lit 3 [1, 2, 3], .run 5 0, .run 0 7, .lit 0 []]
    let z : List Byte := [3, 1, 2, 3, 0x85, 0, 0x80, 7, 0]
    Requested (asked (.rleDecode (.bytes z))) (.rleDecode (.bytes z)) [] ∧
      BytesOperand (asked (.rleDecode (.bytes z))) (.bytes z) z ∧
      (∀ r ∈ records, r.complete) ∧ z = records.flatMap RleRecord.bytes ∧
      RleCutOff [0x83] ∧ RleCutOff [2, 1] := by
  refine ⟨⟨rfl, rfl⟩, .inl rfl, ?_, by decide, .inl ⟨3, by decide⟩,
    .inr ⟨2, [1], by decide, by decide⟩⟩
  simp [RleRecord.complete]

end Sys2Proof.Tests
end

section
/-! SUPPORT. What the host operations store is in canonical form and of its size: planes, the chunky
buffer, the operands of a bare `decode_cell` (10_state.md R38 to R40). -/

namespace Sys2Proof.Machine

/-! ### Cursors -/

theorem Cursor.wf_iff {c : Cursor} : c.wf = true ↔ c.buf.wf = true ∧ c.pos ≤ c.buf.len := by
  simp [Cursor.wf]

theorem Cursor.over_wf {m : Memory} (h : m.wf = true) : (Cursor.over m).wf = true :=
  Cursor.wf_iff.2 ⟨h, Nat.zero_le _⟩

theorem Cursor.moved_wf {c : Cursor} {p : Nat} (h : c.wf = true) (hp : p ≤ c.buf.len) :
    Cursor.wf { c with pos := p } = true :=
  Cursor.wf_iff.2 ⟨(Cursor.wf_iff.1 h).1, hp⟩

/-! ### Planes and the chunky buffer -/

theorem planePixel_wf {msbFirst : Bool} {c : Chunky} {p y x n : Nat} {m : Memory}
    (h : m.wf = true ∧ m.len = n) :
    (planePixel msbFirst c p y m x).wf = true ∧ (planePixel msbFirst c p y m x).len = n := by
  unfold planePixel
  dsimp only
  split
  · exact ⟨Memory.write_wf _ _ h.1, by rw [Memory.write_len, h.2]⟩
  · exact h

theorem planeRow_wf {msbFirst : Bool} {c : Chunky} {p y n : Nat} {m : Memory}
    (h : m.wf = true ∧ m.len = n) :
    (planeRow msbFirst c p m y).wf = true ∧ (planeRow msbFirst c p m y).len = n :=
  List.foldlRecOn (motive := fun m : Memory => m.wf = true ∧ m.len = n) _ _ h
    fun _ hm _ _ => planePixel_wf hm

theorem planeOf_wf (msbFirst : Bool) (c : Chunky) (p : Nat) :
    (planeOf msbFirst c p).wf = true ∧ (planeOf msbFirst c p).len = rowBytes c.w * c.h :=
  List.foldlRecOn (motive := fun m : Memory => m.wf = true ∧ m.len = rowBytes c.w * c.h) _ _
    ⟨Memory.zeros_wf _, rfl⟩ fun _ hm _ _ => planeRow_wf hm

theorem planesOf_wf (msbFirst : Bool) (c : Chunky) (n : Nat) : (planesOf msbFirst c n).Wf := by
  intro m hm
  obtain ⟨p, -, rfl⟩ := List.mem_map.1 hm
  exact planeOf_wf msbFirst c p

theorem chunkyOf_wf (f : Frame) :
    (chunkyOf f).px.wf = true ∧ (chunkyOf f).px.len = (chunkyOf f).w * (chunkyOf f).h :=
  ⟨Memory.ofBytes_wf _, by simp [chunkyOf]⟩

/-! ### Operands -/

theorem frameOfSamples_wf {w h : Nat} {xs : List Sample} {f : Frame}
    (hf : frameOfSamples w h xs = .ok f) : f.wf = true := by
  unfold frameOfSamples at hf
  split at hf
  · rename_i hl
    cases hf
    have hr := cellsRise_ofSamples xs 0
    rwa [Nat.zero_add, hl] at hr
  · cases hf

theorem callerFrameArg_wf {s : State} {fr : FrameArg} {f : Frame} (hi : s.Inv)
    (h : callerFrameArg s fr = .ok f) : f.wf = true := by
  cases fr with
  | held =>
    simp only [callerFrameArg] at h
    split at h <;> cases h
    exact hi.callerFrame _ ‹_›
  | given w k xs =>
    simp only [callerFrameArg] at h
    split at h
    · exact frameOfSamples_wf h
    · cases h

theorem bufferArg_wf {s : State} {b : BufferArg} {m : Memory} (hi : s.Inv)
    (h : bufferArg s b = .ok m) : m.wf = true := by
  cases b with
  | held =>
    simp only [bufferArg] at h
    split at h <;> cases h
    exact (hi.index _ ‹_›).wbuf
  | given bs =>
    cases h
    exact Memory.ofBytes_wf bs

/-- An attempt over a canonical buffer makes a well-formed index and leaves its cursor in the buffer
(R30, R87). -/
theorem attempt_wf {b : Memory} {ix : SpriteIndex} {c : Cursor} (hb : b.wf = true)
    (h : attempt b = .ok ix c) : IndexWf ix ∧ c.wf = true := by
  obtain ⟨hw, hp, he, hc, hle⟩ := attempt_cases h
  exact ⟨⟨by rw [hw]; exact hb, hp, he⟩, Cursor.wf_iff.2 (by rw [hc]; exact ⟨hb, hle⟩)⟩

theorem frameBounds_wf {m : Memory} {e : Entry} {wh : Nat × Nat} {c : Cursor} (hm : m.wf = true)
    (h : frameBounds m e = .ok (wh, c)) : c.wf = true := by
  obtain ⟨hc, hle⟩ := frameBounds_cases h
  exact Cursor.wf_iff.2 (by rw [hc]; exact ⟨hm, hle⟩)

end Sys2Proof.Machine
end

section
/-! SUPPORT. How the invariant passes through the ends of an operation and the starts of the host's.
Every end leaves the machine idle without a frame under construction. -/

namespace Sys2Proof.Machine

theorem not_decoding_of_idle {s : State} (h : s.phase = .idle) : ¬ s.decoding := by
  simp [State.decoding, h]

theorem State.Inv.canvas_eq_none {s : State} (hi : s.Inv) (h : ¬ s.decoding) : s.canvas = none := by
  rwa [hi.drawing, Bool.not_eq_true, Option.isSome_eq_false_iff, Option.isNone_iff_eq_none] at h

theorem drawing_of_idle {s : State} (hp : s.phase = .idle) (hc : s.canvas = none) :
    s.decoding ↔ s.canvas.isSome = true := by
  simp [not_decoding_of_idle hp, hc]

/-! ### Ends -/

theorem complete_inv {s : State} (hi : s.Inv) (hc : s.canvas = none) : (complete s).Inv :=
  { hi with row := nofun, drawing := drawing_of_idle rfl hc, line := nofun }

theorem raise_inv {s : State} (e : Status) (hi : s.Inv) (hc : s.canvas = none) : (raise e s).Inv :=
  { hi with row := nofun, drawing := drawing_of_idle rfl hc, line := nofun }

theorem failCell_inv {s : State} (hi : s.Inv) : (failCell s).Inv :=
  { hi with
    row := nofun
    canvas := nofun
    frame := fun f hf => by
      rw [failCell_frame] at hf
      split at hf
      · exact hi.frame f hf
      · cases hf
    callerFrame := fun f hf => by
      rw [failCell_callerFrame] at hf
      split at hf
      · obtain ⟨g, -, rfl⟩ := Option.map_eq_some_iff.1 hf
        exact Frame.freed_wf _ g
      · exact hi.callerFrame f hf
    frameReturned := fun f hf => by
      rw [failCell_frame] at hf
      split at hf
      · exact hi.frameReturned f hf
      · cases hf
    drawing := drawing_of_idle rfl rfl
    line := nofun }

theorem failRle_inv {s : State} (info : BoundsInfo) (hi : s.Inv) (hc : s.canvas = none) :
    (failRle info s).Inv :=
  raise_inv (s := { s with out := [] }) _ { hi with } hc

theorem deliverFrame_inv {s : State} (hi : s.Inv) : (complete (deliverFrame s)).Inv :=
  { hi with
    row := nofun
    canvas := nofun
    frame := fun f hf => by
      rw [complete_frame, deliverFrame_frame] at hf
      split at hf
      · exact hi.frame f hf
      · exact hi.canvas f hf
    callerFrame := fun f hf => by
      rw [complete_callerFrame, deliverFrame_callerFrame] at hf
      split at hf
      · exact hi.canvas f hf
      · exact hi.callerFrame f hf
    returnedFrames := fun f hf => by
      rw [complete_returnedFrames, deliverFrame_returnedFrames] at hf
      split at hf
      · exact hi.returnedFrames f hf
      · rcases List.mem_append.1 hf with hf | hf
        · exact hi.canvas f (Option.mem_toList.1 hf)
        · exact hi.returnedFrames f hf
    frameReturned := fun f hf => by
      rw [complete_frame, deliverFrame_frame] at hf
      rw [complete_returnedFrames, deliverFrame_returnedFrames]
      split at hf
      · rw [if_pos ‹_›]
        exact hi.frameReturned f hf
      · rw [if_neg ‹_›]
        exact List.mem_append_left _ (Option.mem_toList.2 hf)
    drawing := drawing_of_idle rfl rfl
    line := nofun }

/-! ### Starts -/

section Starts

variable {s t : State}

theorem parse_inv {bytes : List Byte} (hi : s.Inv) (hp : s.phase = .idle)
    (h : startOp (.parse bytes) s = .next t) : t.Inv := by
  have hc := hi.canvas_eq_none (not_decoding_of_idle hp)
  have hb := Memory.ofBytes_wf bytes
  rcases parse_next h with ⟨ix, c, low, ha, rfl⟩ | ⟨e, rfl⟩
  · obtain ⟨hix, hcur⟩ : IndexWf ix ∧ c.wf = true :=
      ha.elim (attempt_wf hb) (attempt_wf (Memory.xored_wf _))
    exact complete_inv { hi with
      buf := hb
      cur := hcur
      index := by rintro _ ⟨⟩; exact hix
      line := fun h => nomatch hp.symm.trans h } hc
  · exact raise_inv _ { hi with buf := hb, index := nofun } hc

theorem getFrameBounds_inv {e : Entry} (hi : s.Inv) (hp : s.phase = .idle)
    (h : startOp (.getFrameBounds e) s = .next t) : t.Inv := by
  have hc := hi.canvas_eq_none (not_decoding_of_idle hp)
  obtain ⟨ix, hix, ⟨info, -, rfl⟩ | ⟨wh, c, hb, rfl⟩⟩ := getFrameBounds_next h
  · exact raise_inv _ { hi with } hc
  · exact complete_inv { hi with
      cur := frameBounds_wf (hi.index ix hix).wbuf hb
      line := fun h => nomatch hp.symm.trans h } hc

/-- A cell decode that starts over a canonical buffer and frame. -/
theorem cellStart_inv {f : Frame} {m : Memory} (pending : List Nat) (bare : Bool)
    (hi : s.Inv) (hf : f.wf = true) (hm : m.wf = true) :
    State.Inv { s with
      canvas := some f
      pending := pending
      bare := bare
      cur := Cursor.over m
      phase := .cellStart } :=
  { hi with
    cur := Cursor.over_wf hm
    row := nofun
    canvas := by rintro _ ⟨⟩; exact hf
    drawing := iff_of_true (.inl rfl) rfl
    line := nofun }

theorem decodeFrame_inv {i : Int} (hi : s.Inv) (hp : s.phase = .idle)
    (h : startOp (.decodeFrame i) s = .next t) : t.Inv := by
  have hc := hi.canvas_eq_none (not_decoding_of_idle hp)
  have hn : State.Inv { s with frame := none } :=
    { hi with frame := nofun, frameReturned := nofun }
  obtain ⟨ix, hix, ⟨-, rfl⟩ | ⟨e, -, ⟨info, -, rfl⟩ | ⟨w, k, c, -, -, rfl⟩⟩⟩ := decodeFrame_next h
  · exact raise_inv _ hn hc
  · exact raise_inv _ hn hc
  · exact cellStart_inv _ _ hi (Frame.fresh_wf w k) (hi.index ix hix).wbuf

theorem toPlanes_inv {px : PixelArg} {n : Nat} (hi : s.Inv) (hp : s.phase = .idle)
    (h : startOp (.toPlanes px n) s = .next t) : t.Inv := by
  obtain ⟨c, -, rfl⟩ := toPlanes_next.1 h
  have hw := planesOf_wf s.cfg.planeBitMsbFirst c n
  exact complete_inv { hi with
    planes := by rintro _ ⟨⟩; exact hw
    returnedPlanes := List.forall_mem_cons.2 ⟨hw, hi.returnedPlanes⟩
    planesReturned := by rintro _ ⟨⟩; exact List.mem_cons_self }
    (hi.canvas_eq_none (not_decoding_of_idle hp))

/-- An RLE operation that starts over the host's bytes. -/
theorem rleStart_inv {p : Phase} (x : List Byte) (rle : RleRegs) (hi : s.Inv)
    (hc : s.canvas = none) (hp : p = .rleCompress ∨ p = .rleDecode) :
    State.Inv { s with
      cur := Cursor.over (Memory.ofBytes x), out := [], rle := rle, phase := p } :=
  { hi with
    cur := Cursor.over_wf (Memory.ofBytes_wf x)
    row := by rcases hp with rfl | rfl <;> nofun
    drawing := by rcases hp with rfl | rfl <;> simp [State.decoding, hc]
    line := by rcases hp with rfl | rfl <;> nofun }

/-- Every start of a host operation keeps the invariant. -/
theorem startOp_inv {op : HostOp} (hi : s.Inv) (hp : s.phase = .idle)
    (h : startOp op s = .next t) : t.Inv := by
  have hc := hi.canvas_eq_none (not_decoding_of_idle hp)
  cases op with
  | parse bytes => exact parse_inv hi hp h
  | getFrameBounds e => exact getFrameBounds_inv hi hp h
  | decodeFrame i => exact decodeFrame_inv hi hp h
  | decodeCell b off fr =>
    obtain ⟨m, f, hm, hf, rfl⟩ := decodeCell_next.1 h
    exact cellStart_inv _ _ hi (callerFrameArg_wf hi hf) (bufferArg_wf hi hm)
  | toChunky fr =>
    obtain ⟨f, -, rfl⟩ := toChunky_next.1 h
    exact complete_inv { hi with chunky := by rintro _ ⟨⟩; exact chunkyOf_wf f } hc
  | toPlanes px n => exact toPlanes_inv hi hp h
  | interleave a =>
    obtain ⟨pl, -, rfl⟩ := interleave_next.1 h
    exact complete_inv { hi with } hc
  | rleCompress a =>
    obtain ⟨x, -, rfl⟩ := rleCompress_next.1 h
    exact rleStart_inv x _ hi hc (.inl rfl)
  | rleDecode a =>
    obtain ⟨z, -, rfl⟩ := rleDecode_next.1 h
    exact rleStart_inv z s.rle hi hc (.inr rfl)
  | writeBitplaneFile a mode =>
    obtain ⟨pl, file, -, -, rfl⟩ := writeBitplaneFile_next.1 h
    exact complete_inv { hi with } hc

end Starts

/-! ### The step -/

theorem operates_inv {s : State} (e : OpEffect s) (hi : s.Inv) (h : s.phase = .ops) :
    (e.apply s).Inv := by
  obtain ⟨hn, hend, hstart⟩ := hi.line h
  exact { hi with
    cur := Cursor.moved_wf hi.cur e.pos_le
    row := fun _ => e.rise (hi.row h)
    line := fun _ => ⟨hn, hend, hstart.trans e.pos_gt⟩ }

theorem StepCase.inv {s t : State} (h : StepCase s t) (hi : s.Inv) : t.Inv := by
  cases h with
  | waits => exact hi
  | @starts _ rest _ hreq ht =>
    exact startOp_inv (s := { s with requests := rest }) { hi with } hreq.1 ht
  | completes h =>
    exact complete_inv hi (hi.canvas_eq_none (by rcases h with h | h <;> simp [State.decoding, h]))
  | delivers => exact deliverFrame_inv hi
  | cellStarts h hp hf hl =>
    exact { hi with
      cur := Cursor.moved_wf hi.cur hl
      row := nofun
      drawing := iff_of_true (.inr (.inl rfl)) hf
      line := nofun }
  | cellShort => exact failCell_inv { hi with }
  | cellFails => exact failCell_inv hi
  | cellEnds h =>
    exact { hi with
      row := nofun
      drawing := iff_of_true (.inl rfl) (hi.drawing.1 (.inr (.inl h)))
      line := nofun }
  | gap h _ hb =>
    exact { hi with
      cur := Cursor.moved_wf hi.cur hb
      line := fun ho => nomatch h.symm.trans ho }
  | lineOpens h _ hn hb =>
    exact { hi with
      cur := Cursor.moved_wf hi.cur hb
      row := fun _ => rfl
      drawing := iff_of_true (.inr (.inr rfl)) (hi.drawing.1 (.inr (.inl h)))
      line := fun _ => ⟨hn, rfl, Nat.lt_succ_self _⟩ }
  | operates e h => exact operates_inv e hi h
  | lineEnds h _ hf =>
    exact { hi with
      row := nofun
      canvas := by rintro _ ⟨⟩; exact blit_wf (hi.canvas _ hf)
      drawing := iff_of_true (.inr (.inl rfl)) rfl
      line := nofun }
  | rleRecord h _ hb =>
    exact { hi with
      cur := Cursor.moved_wf hi.cur hb
      line := fun ho => nomatch h.symm.trans ho }
  | rleFails h =>
    exact failRle_inv _ hi (hi.canvas_eq_none (by simp [State.decoding, h]))
  | compresses => exact { hi with }

/-- Settles O49: each case of a step keeps the invariant. -/
theorem stepKeepsInvariant : Obligations.StepKeepsInvariant :=
  fun _ _ hi h => (step_cases h).inv hi

/-! ### Reset -/

theorem reset_inv : State.reset.Inv where
  buf := rfl
  cur := rfl
  index := nofun
  row := nofun
  canvas := nofun
  frame := nofun
  callerFrame := nofun
  chunky := nofun
  planes := nofun
  returnedFrames := nofun
  returnedPlanes := nofun
  frameReturned := nofun
  planesReturned := nofun
  drawing := drawing_of_idle rfl rfl
  line := nofun

/-- Settles O48: the reset machine is idle and holds nothing, so the two bounds on an open line record
and on a running decode say nothing of it. -/
theorem resetMeetsTheInvariants : Obligations.ResetMeetsTheInvariants :=
  ⟨reset_inv, nofun, fun _ _ hd => absurd hd (not_decoding_of_idle rfl)⟩

end Sys2Proof.Machine
end

section
/-! SUPPORT. Who writes the results, the parameters and `outcome`: first for the start of a host
operation, then for a step (10_state.md R27, R31, R42; 43_frame_compositor.md R119). -/

namespace Sys2Proof.Machine

/-! ### Starts -/

/-- `t` has the parameters, the parsed input and the returned results of `s`. -/
structure KeepsResults (s t : State) : Prop where
  cfg : t.cfg = s.cfg
  buf : t.buf = s.buf
  index : t.index = s.index
  lowConfidence : t.lowConfidence = s.lowConfidence
  frame : t.frame = s.frame
  callerFrame : t.callerFrame = s.callerFrame
  returnedFrames : t.returnedFrames = s.returnedFrames
  returnedPlanes : t.returnedPlanes = s.returnedPlanes

/-- What the start of `op` from `s` to `t` may have written of the results, the parameters and
`outcome`. -/
structure StartWrites (op : HostOp) (s t : State) : Prop where
  cfg : t.cfg = s.cfg
  input : (∀ bytes, op ≠ .parse bytes) →
    t.buf = s.buf ∧ t.index = s.index ∧ t.lowConfidence = s.lowConfidence
  frame : t.frame ≠ s.frame → t.phase = .idle ∧ t.status ≠ .ok ∧ ∃ i, op = .decodeFrame i
  callerFrame : t.callerFrame = s.callerFrame
  returnedFrames : t.returnedFrames = s.returnedFrames
  returnedPlanes : t.returnedPlanes ≠ s.returnedPlanes → ∃ px n pl, op = .toPlanes px n ∧
    t.status = .ok ∧ t.planes = some pl ∧ t.returnedPlanes = pl :: s.returnedPlanes
  status : t.phase ≠ .idle → t.status = s.status

theorem KeepsResults.startWrites {op : HostOp} {s t : State} (h : KeepsResults s t)
    (hs : t.phase ≠ .idle → t.status = s.status) : StartWrites op s t where
  cfg := h.cfg
  input _ := ⟨h.buf, h.index, h.lowConfidence⟩
  frame hn := absurd h.frame hn
  callerFrame := h.callerFrame
  returnedFrames := h.returnedFrames
  returnedPlanes hn := absurd h.returnedPlanes hn
  status := hs

theorem parse_writes {bytes : List Byte} {s t : State} (h : startOp (.parse bytes) s = .next t) :
    StartWrites (.parse bytes) s t := by
  rcases parse_next h with ⟨ix, c, low, -, rfl⟩ | ⟨e, rfl⟩ <;>
    exact ⟨rfl, fun hn => absurd rfl (hn bytes), absurd rfl, rfl, rfl, absurd rfl, absurd rfl⟩

theorem decodeFrame_writes {i : Int} {s t : State} (h : startOp (.decodeFrame i) s = .next t) :
    StartWrites (.decodeFrame i) s t := by
  have failed : ∀ {e : Status}, e ≠ .ok →
      StartWrites (.decodeFrame i) s (raise e { s with frame := none }) := fun he =>
    ⟨rfl, fun _ => ⟨rfl, rfl, rfl⟩, fun _ => ⟨rfl, he, i, rfl⟩, rfl, rfl, absurd rfl, absurd rfl⟩
  obtain ⟨ix, -, ⟨-, rfl⟩ | ⟨e, -, ⟨info, -, rfl⟩ | ⟨w, k, c, -, -, rfl⟩⟩⟩ := decodeFrame_next h
  · exact failed nofun
  · exact failed nofun
  · exact KeepsResults.startWrites (by constructor <;> rfl) fun _ => rfl

theorem toPlanes_writes {px : PixelArg} {n : Nat} {s t : State}
    (h : startOp (.toPlanes px n) s = .next t) : StartWrites (.toPlanes px n) s t := by
  obtain ⟨c, -, rfl⟩ := toPlanes_next.1 h
  exact ⟨rfl, fun _ => ⟨rfl, rfl, rfl⟩, absurd rfl, rfl, rfl,
    fun _ => ⟨px, n, _, rfl, rfl, rfl, rfl⟩, absurd rfl⟩

theorem startOp_writes {op : HostOp} {s t : State} (h : startOp op s = .next t) :
    StartWrites op s t := by
  cases op with
  | parse bytes => exact parse_writes h
  | getFrameBounds e =>
    obtain ⟨ix, -, ⟨info, -, rfl⟩ | ⟨wh, c, -, rfl⟩⟩ := getFrameBounds_next h <;>
      exact KeepsResults.startWrites (by constructor <;> rfl) (absurd rfl)
  | decodeFrame i => exact decodeFrame_writes h
  | decodeCell b off fr =>
    obtain ⟨m, f, -, -, rfl⟩ := decodeCell_next.1 h
    exact KeepsResults.startWrites (by constructor <;> rfl) fun _ => rfl
  | toChunky fr =>
    obtain ⟨f, -, rfl⟩ := toChunky_next.1 h
    exact KeepsResults.startWrites (by constructor <;> rfl) (absurd rfl)
  | toPlanes px n => exact toPlanes_writes h
  | interleave a =>
    obtain ⟨pl, -, rfl⟩ := interleave_next.1 h
    exact KeepsResults.startWrites (by constructor <;> rfl) (absurd rfl)
  | rleCompress a =>
    obtain ⟨x, -, rfl⟩ := rleCompress_next.1 h
    exact KeepsResults.startWrites (by constructor <;> rfl) fun _ => rfl
  | rleDecode a =>
    obtain ⟨z, -, rfl⟩ := rleDecode_next.1 h
    exact KeepsResults.startWrites (by constructor <;> rfl) fun _ => rfl
  | writeBitplaneFile a mode =>
    obtain ⟨pl, file, -, -, rfl⟩ := writeBitplaneFile_next.1 h
    exact KeepsResults.startWrites (by constructor <;> rfl) (absurd rfl)

/-! ### Steps -/

section Steps

variable {s t : State}

theorem StepCase.cfg_eq (h : StepCase s t) : t.cfg = s.cfg := by
  cases h with
  | starts _ ht => exact (startOp_writes ht).cfg
  | _ => rfl

theorem StepCase.input_eq (h : StepCase s t)
    (hn : ∀ bytes rest, ¬ Requested s (.parse bytes) rest) :
    t.buf = s.buf ∧ t.index = s.index ∧ t.lowConfidence = s.lowConfidence := by
  cases h with
  | starts hr ht => exact (startOp_writes ht).input fun bytes e => hn bytes _ (e ▸ hr)
  | _ => exact ⟨rfl, rfl, rfl⟩

theorem StepCase.cursorBuf_eq (h : StepCase s t) (hn : s.phase ≠ .idle) :
    t.cur.buf = s.cur.buf := by
  cases h with
  | starts hr => exact absurd hr.1 hn
  | _ => rfl

/-- A cell decode that fails replaces the returned frame only when it is not bare. -/
theorem bare_of_failCell_frame (hn : (failCell s).frame ≠ s.frame) : s.bare = false := by
  by_contra hb
  exact hn (by rw [failCell_frame, if_pos (by simpa using hb)])

/-- A cell decode that fails replaces the caller's frame only when it is bare. -/
theorem bare_of_failCell_callerFrame (hn : (failCell s).callerFrame ≠ s.callerFrame) :
    s.bare = true := by
  by_contra hb
  exact hn (by rw [failCell_callerFrame, if_neg hb])

/-- The returned frame is replaced only where a `decode_frame` ends (R119). -/
theorem StepCase.of_frame_ne (h : StepCase s t) (hn : t.frame ≠ s.frame) :
    t.phase = .idle ∧
      ((∃ i rest, Requested s (.decodeFrame i) rest ∧ t.status ≠ .ok) ∨
        (s.decoding ∧ s.bare = false)) := by
  cases h with
  | starts hr ht =>
    obtain ⟨hp, hs, i, rfl⟩ := (startOp_writes ht).frame hn
    exact ⟨hp, .inl ⟨i, _, hr, hs⟩⟩
  | delivers h =>
    refine ⟨rfl, .inr ⟨.inl h, ?_⟩⟩
    by_contra hb
    exact hn (by rw [complete_frame, deliverFrame_frame, if_pos (by simpa using hb)])
  | cellShort h =>
    exact ⟨rfl, .inr ⟨.inl h,
      bare_of_failCell_frame (s := { s with cellOffset := _, pending := _ }) hn⟩⟩
  | cellFails h => exact ⟨rfl, .inr ⟨.inr h, bare_of_failCell_frame hn⟩⟩
  | _ => exact absurd rfl hn

/-- The caller's frame is replaced only where a bare `decode_cell` ends (R92, R104). -/
theorem StepCase.of_callerFrame_ne (h : StepCase s t) (hn : t.callerFrame ≠ s.callerFrame) :
    t.phase = .idle ∧ s.decoding ∧ s.bare = true := by
  cases h with
  | starts _ ht => exact absurd (startOp_writes ht).callerFrame hn
  | delivers h =>
    refine ⟨rfl, .inl h, ?_⟩
    by_contra hb
    exact hn (by rw [complete_callerFrame, deliverFrame_callerFrame, if_neg hb])
  | cellShort h =>
    exact ⟨rfl, .inl h,
      bare_of_failCell_callerFrame (s := { s with cellOffset := _, pending := _ }) hn⟩
  | cellFails h => exact ⟨rfl, .inr h, bare_of_failCell_callerFrame hn⟩
  | _ => exact absurd rfl hn

/-- A frame is recorded as returned only where a `decode_frame` completes with it (R156). -/
theorem StepCase.of_returnedFrames_ne (h : StepCase s t)
    (hn : t.returnedFrames ≠ s.returnedFrames) :
    ∃ f, s.canvas = some f ∧ s.decoding ∧ s.bare = false ∧ t.phase = .idle ∧ t.status = .ok ∧
      t.frame = some f ∧ t.returnedFrames = f :: s.returnedFrames := by
  cases h with
  | starts _ ht => exact absurd (startOp_writes ht).returnedFrames hn
  | delivers h =>
    rw [complete_returnedFrames, deliverFrame_returnedFrames] at hn
    cases hb : s.bare with
    | true => exact absurd (by rw [if_pos hb]) hn
    | false =>
      cases hc : s.canvas with
      | none => exact absurd (by rw [hb, hc]; rfl) hn
      | some f => exact ⟨f, rfl, .inl h, rfl, rfl, rfl, by simp [hb, hc], by simp [hb, hc]⟩
  | _ => exact absurd rfl hn

/-- Planes are recorded as made only where a `to_planes` completes with them (R156, R164). -/
theorem StepCase.of_returnedPlanes_ne (h : StepCase s t)
    (hn : t.returnedPlanes ≠ s.returnedPlanes) :
    ∃ px n rest pl, Requested s (.toPlanes px n) rest ∧ t.status = .ok ∧ t.planes = some pl ∧
      t.returnedPlanes = pl :: s.returnedPlanes := by
  cases h with
  | starts hr ht =>
    obtain ⟨px, n, pl, rfl, hs⟩ := (startOp_writes ht).returnedPlanes hn
    exact ⟨px, n, _, pl, hr, hs⟩
  | _ => exact absurd rfl hn

theorem StepCase.status_eq (h : StepCase s t) (hn : t.phase ≠ .idle) : t.status = s.status := by
  cases h with
  | starts _ ht => exact (startOp_writes ht).status hn
  | completes => exact absurd rfl hn
  | delivers => exact absurd rfl hn
  | cellShort => exact absurd rfl hn
  | cellFails => exact absurd rfl hn
  | rleFails => exact absurd rfl hn
  | _ => rfl

end Steps

/-- Settles O54: one lemma for each result, by the cases of a step. -/
theorem resultsAreWrittenByTheirOperations : Obligations.ResultsAreWrittenByTheirOperations :=
  fun _ _ h =>
    have hc := step_cases h
    ⟨hc.cfg_eq, hc.input_eq, hc.cursorBuf_eq, hc.of_frame_ne, hc.of_callerFrame_ne,
      hc.of_returnedFrames_ne, hc.of_returnedPlanes_ne⟩

/-- Settles O55: the cases of a step that write `outcome` leave the machine idle. -/
theorem outcomeIsWrittenAtTheEnd : Obligations.OutcomeIsWrittenAtTheEnd :=
  fun _ _ h => (step_cases h).status_eq

end Sys2Proof.Machine
end

section
/-! SUPPORT. Two machines in the same place of a `decode_frame` take the same step: the relation lists
what a decode reads, and nothing else of the two states need agree (10_state.md R25;
70_reset_and_hazards.md R154). -/

namespace Sys2Proof.Machine

/-! ### The relation -/

/-- Two states agree on the registers of the running cell. -/
structure CellAlike (s₁ s₂ : State) : Prop where
  cellOffset : s₁.cellOffset = s₂.cellOffset
  hdr : s₁.hdr = s₂.hdr
  destY : s₁.destY = s₂.destY
  linesDone : s₁.linesDone = s₂.linesDone

/-- Two states agree on the registers of the open line record that its operations and its end read. -/
structure LineAlike (s₁ s₂ : State) : Prop where
  lineEnd : s₁.lineEnd = s₂.lineEnd
  drawX : s₁.drawX = s₂.drawX
  row : s₁.row = s₂.row

/-- Two machines in the same place of the same `decode_frame`, with nothing asked for after it. The
registers of a cell and of a line count only once the decode has written them (R154). -/
structure DecodesAlike (s₁ s₂ : State) : Prop where
  requests₁ : s₁.requests = []
  requests₂ : s₂.requests = []
  bare₁ : s₁.bare = false
  bare₂ : s₂.bare = false
  cfg : s₁.cfg = s₂.cfg
  phase : s₁.phase = s₂.phase
  decoding : s₁.decoding
  pending : s₁.pending = s₂.pending
  cur : s₁.cur = s₂.cur
  canvas : s₁.canvas = s₂.canvas
  drawing : s₁.canvas.isSome = true
  cell : s₁.phase ≠ .cellStart → CellAlike s₁ s₂
  line : s₁.phase = .ops → LineAlike s₁ s₂

/-- Two machines that have ended a `decode_frame` with the same outcome and frame. -/
structure EndsAlike (s₁ s₂ : State) : Prop where
  requests₁ : s₁.requests = []
  requests₂ : s₂.requests = []
  phase₁ : s₁.phase = .idle
  phase₂ : s₂.phase = .idle
  status : s₁.status = s₂.status
  frame : s₁.frame = s₂.frame

/-- Two machines run a `decode_frame` in step, or have ended it alike. -/
def InStep (s₁ s₂ : State) : Prop := DecodesAlike s₁ s₂ ∨ EndsAlike s₁ s₂

/-- Two outcomes are next states in step. -/
def NextInStep (o₁ o₂ : Host.Outcome State Fault Refusal) : Prop :=
  ∃ t₁ t₂, o₁ = .next t₁ ∧ o₂ = .next t₂ ∧ InStep t₁ t₂

variable {s₁ s₂ : State}

theorem InStep.phase_eq (h : InStep s₁ s₂) : s₁.phase = s₂.phase := by
  rcases h with h | h
  · exact h.phase
  · rw [h.phase₁, h.phase₂]

theorem InStep.result_eq (h : InStep s₁ s₂) (hp : s₁.phase = .idle) :
    s₁.status = s₂.status ∧ s₁.frame = s₂.frame := by
  rcases h with h | h
  · exact absurd h.decoding (not_decoding_of_idle hp)
  · exact ⟨h.status, h.frame⟩

/-! ### What the step reads is the same -/

theorem DecodesAlike.fetchWindow_eq (h : DecodesAlike s₁ s₂) : fetchWindow s₁ = fetchWindow s₂ := by
  rw [fetchWindow, fetchWindow, h.cur]

theorem DecodesAlike.dueSpace_eq (h : DecodesAlike s₁ s₂) : dueSpace s₁ = dueSpace s₂ := by
  unfold dueSpace
  rw [← h.phase, h.cur]
  rcases h.decoding with hp | hp | hp
  · simp only [hp]
  · have hc := h.cell (by rw [hp]; nofun)
    simp only [hp, hc.hdr, hc.linesDone]
  · simp only [hp, (h.line hp).lineEnd]

theorem DecodesAlike.sameLine (h : DecodesAlike s₁ s₂) (hp : s₁.phase = .ops) : SameLine s₁ s₂ where
  cur := h.cur.symm
  lineEnd := (h.line hp).lineEnd.symm
  drawX := (h.line hp).drawX.symm
  row := (h.line hp).row.symm
  width := by rw [(h.cell (by rw [hp]; nofun)).hdr]
  steps := by rw [h.cfg]

/-! ### Ends -/

/-- Decodes of the same cell that fail leave no frame and name the same cell (R138, R145). -/
theorem DecodesAlike.failCell_ends (h : DecodesAlike s₁ s₂) (hc : s₁.cellOffset = s₂.cellOffset) :
    EndsAlike (failCell s₁) (failCell s₂) where
  requests₁ := h.requests₁
  requests₂ := h.requests₂
  phase₁ := rfl
  phase₂ := rfl
  status := by rw [failCell_status, failCell_status, hc]
  frame := by simp [h.bare₁, h.bare₂]

theorem DecodesAlike.deliverFrame_ends (h : DecodesAlike s₁ s₂) :
    EndsAlike (complete (deliverFrame s₁)) (complete (deliverFrame s₂)) where
  requests₁ := h.requests₁
  requests₂ := h.requests₂
  phase₁ := rfl
  phase₂ := rfl
  status := rfl
  frame := by simp [h.bare₁, h.bare₂, h.canvas]

theorem DecodesAlike.failCell_next (h : DecodesAlike s₁ s₂) (hp : s₁.phase ≠ .cellStart) :
    NextInStep (.next (failCell s₁)) (.next (failCell s₂)) :=
  ⟨_, _, rfl, rfl, .inr (h.failCell_ends (h.cell hp).cellOffset)⟩

/-! ### The step in each phase -/

theorem DecodesAlike.startCell_next (h : DecodesAlike s₁ s₂) (hp : s₁.phase = .cellStart) :
    NextInStep (startCell s₁) (startCell s₂) := by
  have hd : s₂.canvas.isSome = true := h.canvas ▸ h.drawing
  cases hpe : s₁.pending with
  | nil =>
    exact ⟨_, _, startCell_nil hpe, startCell_nil (h.pending ▸ hpe), .inr h.deliverFrame_ends⟩
  | cons off rest =>
    have hpe₂ : s₂.pending = off :: rest := h.pending ▸ hpe
    by_cases hl : off + 8 ≤ s₁.cur.buf.len
    · refine ⟨_, _, startCell_ok hpe h.drawing hl, startCell_ok hpe₂ hd (h.cur ▸ hl), .inl { h with
        phase := rfl
        decoding := .inr (.inl rfl)
        pending := rfl
        cur := by simp only [h.cur]
        cell := fun _ => ?_
        line := nofun }⟩
      constructor <;> simp only [h.cur]
    · have hs : DecodesAlike { s₁ with cellOffset := off, pending := rest }
          { s₂ with cellOffset := off, pending := rest } :=
        { h with
          pending := rfl
          cell := fun hn => absurd hp hn
          line := fun ho => nomatch hp.symm.trans ho }
      exact ⟨_, _, startCell_short hpe h.drawing (by omega),
        startCell_short hpe₂ hd (by rw [← h.cur]; omega), .inr (hs.failCell_ends rfl)⟩

theorem DecodesAlike.endCell_next (h : DecodesAlike s₁ s₂) : NextInStep (endCell s₁) (endCell s₂) :=
  ⟨_, _, rfl, rfl, .inl { h with
    phase := rfl
    decoding := .inl rfl
    cell := fun hn => absurd rfl hn
    line := nofun }⟩

theorem DecodesAlike.execVgap_next (h : DecodesAlike s₁ s₂) (hp : s₁.phase = .record) (k : Byte) :
    NextInStep (execVgap k s₁) (execVgap k s₂) := by
  have hn : s₁.phase ≠ .cellStart := by rw [hp]; nofun
  have hc := h.cell hn
  by_cases hb : s₁.cur.pos + 2 ≤ s₁.cur.buf.len
  · exact ⟨_, _, execVgap_ok hb, execVgap_ok (h.cur ▸ hb), .inl { h with
      cur := by simp only [h.cur]
      cell := fun _ => { hc with
        destY := by simp only [hc.destY]
        linesDone := by simp only [hc.linesDone, h.cfg] }
      line := fun ho => nomatch hp.symm.trans ho }⟩
  · rw [execVgap_short (by omega), execVgap_short (by rw [← h.cur]; omega)]
    exact h.failCell_next hn

theorem DecodesAlike.execLine_next (h : DecodesAlike s₁ s₂) (hp : s₁.phase = .record) (l x : Byte) :
    NextInStep (execLine l x s₁) (execLine l x s₂) := by
  have hn : s₁.phase ≠ .cellStart := by rw [hp]; nofun
  have hc := h.cell hn
  by_cases hb : s₁.cur.pos + 2 ≤ s₁.cur.buf.len
  · exact ⟨_, _, execLine_ok hb, execLine_ok (h.cur ▸ hb), .inl { h with
      phase := rfl
      decoding := .inr (.inr rfl)
      cur := by simp only [h.cur]
      cell := fun _ => { hc with }
      line := fun _ => ⟨by simp only [h.cur], rfl, rfl⟩ }⟩
  · rw [execLine_short (by omega), execLine_short (by rw [← h.cur]; omega)]
    exact h.failCell_next hn

theorem DecodesAlike.execOperation_next (h : DecodesAlike s₁ s₂) (hp : s₁.phase = .ops) {i : Instr}
    (hi : i.space = .operation) : NextInStep (exec i s₁) (exec i s₂) := by
  have hn : s₁.phase ≠ .cellStart := by rw [hp]; nofun
  have hc := h.cell hn
  rcases exec_operation hi s₁ with he | ⟨e, he⟩
  · rw [he s₁ (.refl s₁), he s₂ (h.sameLine hp)]
    exact h.failCell_next hn
  · exact ⟨_, _, he s₁ (.refl s₁), he s₂ (h.sameLine hp), .inl { h with
      cur := by simp only [OpEffect.apply, h.cur]
      cell := fun _ => { hc with }
      line := fun _ => ⟨(h.line hp).lineEnd, rfl, rfl⟩ }⟩

theorem DecodesAlike.endLine_next (h : DecodesAlike s₁ s₂) (hp : s₁.phase = .ops) :
    NextInStep (endLine s₁) (endLine s₂) := by
  have hc := h.cell (by rw [hp]; nofun)
  obtain ⟨f, hf⟩ := Option.isSome_iff_exists.1 h.drawing
  exact ⟨_, _, endLine_some hf, endLine_some (h.canvas ▸ hf), .inl { h with
    phase := rfl
    decoding := .inr (.inl rfl)
    canvas := by simp only [(h.line hp).row, hc.hdr, hc.destY]
    drawing := rfl
    cell := fun _ => { hc with
      destY := by simp only [hc.destY]
      linesDone := by simp only [hc.linesDone] }
    line := nofun }⟩

/-- An instruction that is due runs in both machines alike. -/
theorem DecodesAlike.exec_next (h : DecodesAlike s₁ s₂) {sp : Space} {i : Instr} {left : List Byte}
    (hd : dueSpace s₁ = some sp) (hi : decode sp (fetchWindow s₁) = .ok (i, left)) :
    NextInStep (exec i s₁) (exec i s₂) := by
  have hs := (decode_space hi).1
  rcases dueSpace_cases hd with ⟨rfl, hp, -⟩ | ⟨rfl, hp, -⟩ | ⟨rfl, hp, -⟩
  · cases i with
    | vgap k => exact h.execVgap_next hp k
    | line l x => exact h.execLine_next hp l x
    | _ => cases hs
  · exact h.execOperation_next hp hs
  · exact absurd h.decoding (by simp [State.decoding, hp])

/-- A fetch that is cut off ends the cell in both machines alike. -/
theorem DecodesAlike.fetchFails_next (h : DecodesAlike s₁ s₂) {sp : Space}
    (hd : dueSpace s₁ = some sp) :
    NextInStep (.next (fetchFails sp s₁)) (.next (fetchFails sp s₂)) := by
  rcases dueSpace_cases hd with ⟨rfl, hp, -⟩ | ⟨rfl, hp, -⟩ | ⟨rfl, hp, -⟩
  · exact h.failCell_next (by rw [hp]; nofun)
  · exact h.failCell_next (by rw [hp]; nofun)
  · exact absurd h.decoding (by simp [State.decoding, hp])

theorem DecodesAlike.sequencer_next (h : DecodesAlike s₁ s₂) :
    NextInStep (sequencer s₁) (sequencer s₂) := by
  unfold sequencer
  rw [← h.phase]
  rcases h.decoding with hp | hp | hp <;> simp only [hp]
  · exact h.startCell_next hp
  · exact h.endCell_next
  · exact h.endLine_next hp

theorem DecodesAlike.step_next (h : DecodesAlike s₁ s₂) : NextInStep (step s₁) (step s₂) := by
  have hd := h.dueSpace_eq
  have hw := h.fetchWindow_eq
  cases hd₁ : dueSpace s₁ with
  | none =>
    rw [step_none hd₁, step_none (hd ▸ hd₁)]
    exact h.sequencer_next
  | some sp =>
    cases hi : decode sp (fetchWindow s₁) with
    | ok p =>
      obtain ⟨i, left⟩ := p
      rw [step_due hd₁ hi, step_due (hd ▸ hd₁) (hw ▸ hi)]
      exact h.exec_next hd₁ hi
    | error r =>
      rw [step_cutOff hd₁ hi, step_cutOff (hd ▸ hd₁) (hw ▸ hi)]
      exact h.fetchFails_next hd₁

theorem InStep.step_next (h : InStep s₁ s₂) : NextInStep (step s₁) (step s₂) := by
  rcases h with h | h
  · exact h.step_next
  · exact ⟨_, _, step_idle_nil h.phase₁ h.requests₁, step_idle_nil h.phase₂ h.requests₂, .inr h⟩

/-! ### Runs -/

theorem InStep.reaches {n : Nat} {t₁ : State} (h : InStep s₁ s₂) (hr : Reaches n s₁ t₁) :
    ∃ t₂, Reaches n s₂ t₂ ∧ InStep t₁ t₂ := by
  induction n generalizing s₁ s₂ with
  | zero =>
    cases hr
    exact ⟨s₂, .zero s₂, h⟩
  | succ n ih =>
    obtain ⟨u₁, hu₁, hr⟩ := reaches_succ.1 hr
    obtain ⟨_, u₂, hs₁, hs₂, hu⟩ := h.step_next
    cases hu₁.symm.trans hs₁
    obtain ⟨t₂, hr₂, ht⟩ := ih hu hr
    exact ⟨t₂, .cons hs₂ hr₂, ht⟩

/-- The start of a `decode_frame` reads the index and the parameters alone (R118). -/
theorem decodeFrame_inStep {t₁ : State} {i : Int} {ix : SpriteIndex} (hr₁ : s₁.requests = [])
    (hr₂ : s₂.requests = []) (hi₁ : s₁.index = some ix) (hi₂ : s₂.index = some ix)
    (hcfg : s₁.cfg = s₂.cfg) (h : startOp (.decodeFrame i) s₁ = .next t₁) :
    ∃ t₂, startOp (.decodeFrame i) s₂ = .next t₂ ∧ InStep t₁ t₂ := by
  obtain ⟨ix', hix, hcase⟩ := decodeFrame_next h
  cases hi₁.symm.trans hix
  simp only [startOp, startDecodeFrame, hi₂]
  rcases hcase with ⟨hl, rfl⟩ | ⟨e, hl, ⟨info, hb, rfl⟩ | ⟨w, k, c, hb, hf, rfl⟩⟩
  · simp only [hl]
    exact ⟨_, rfl, .inr ⟨hr₁, hr₂, rfl, rfl, rfl, rfl⟩⟩
  · simp only [hl, hb]
    exact ⟨_, rfl, .inr ⟨hr₁, hr₂, rfl, rfl, rfl, rfl⟩⟩
  · have hf₂ : fitsFrameStore s₂.cfg w k = true := hcfg ▸ hf
    simp only [hl, hb, hf₂, if_true]
    exact ⟨_, rfl, .inl {
      requests₁ := hr₁
      requests₂ := hr₂
      bare₁ := rfl
      bare₂ := rfl
      cfg := hcfg
      phase := rfl
      decoding := .inl rfl
      pending := rfl
      cur := rfl
      canvas := rfl
      drawing := rfl
      cell := fun hn => absurd rfl hn
      line := nofun }⟩

/-- Settles O53: the first step puts the two machines in step, and they stay so. -/
theorem decodeFrameIsPure : Obligations.DecodeFrameIsPure := by
  intro n s₁ s₂ t₁ i ix hq₁ hq₂ hi₁ hi₂ hcfg hr
  cases n with
  | zero =>
    cases hr
    exact ⟨s₂, .zero s₂, by rw [hq₁.1, hq₂.1], fun hn => absurd hn (Nat.lt_irrefl 0)⟩
  | succ n =>
    obtain ⟨u₁, hu₁, hr⟩ := reaches_succ.1 hr
    rw [step_requested hq₁] at hu₁
    obtain ⟨u₂, hu₂, hu⟩ := decodeFrame_inStep (s₁ := { s₁ with requests := [] })
      (s₂ := { s₂ with requests := [] }) rfl rfl hi₁ hi₂ hcfg hu₁
    obtain ⟨t₂, hr₂, ht⟩ := hu.reaches hr
    exact ⟨t₂, .cons ((step_requested hq₂).trans hu₂) hr₂, ht.phase_eq, fun _ => ht.result_eq⟩

end Sys2Proof.Machine
end

section
/-! SUPPORT. The cursor primitives against their rules: where a seek lands, what the reads deliver, and
that none of them leaves the buffer (20_memory.md R48 to R53). -/

namespace Sys2Proof.Machine

/-! ### The one-byte read -/

theorem Cursor.u8_ok {c : Cursor} (h : c.pos + 1 ≤ c.buf.len) :
    c.u8 = .ok (c.buf.read c.pos, { c with pos := c.pos + 1 }) := by
  simp [Cursor.u8, Cursor.read_ok h, Memory.readList]

theorem Cursor.u8_short {c : Cursor} (h : c.buf.len < c.pos + 1) :
    c.u8 = .error (.read c.pos 1) := by
  simp [Cursor.u8, Cursor.read_short h]

theorem Cursor.u8_cases {c c' : Cursor} {v : Byte} (h : c.u8 = .ok (v, c')) :
    c.pos + 1 ≤ c.buf.len ∧ v = c.buf.read c.pos ∧ c' = { c with pos := c.pos + 1 } := by
  by_cases hle : c.pos + 1 ≤ c.buf.len
  · rw [Cursor.u8_ok hle] at h
    cases h
    exact ⟨hle, rfl, rfl⟩
  · rw [Cursor.u8_short (by omega)] at h
    cases h

/-! ### The rules -/

/-- Settles O25: a read that fits is the buffer's own list of `n` bytes. -/
theorem readIsAllOrNothing : Obligations.ReadIsAllOrNothing := fun c n =>
  ⟨fun h => ⟨c.buf.readList c.pos n, Cursor.read_ok h, Memory.readList_length c.buf c.pos n,
    Memory.readList_getD c.buf c.pos n⟩, Cursor.read_short⟩

/-- Settles O27: the bound each primitive tests is the one the new position meets. -/
theorem primitivesKeepCursorInBuffer : Obligations.PrimitivesKeepCursorInBuffer := by
  rintro c c' - (⟨o, d, h⟩ | ⟨n, bs, h⟩ | ⟨v, h⟩ | ⟨v, h⟩)
  · obtain ⟨-, hle, rfl⟩ := Cursor.seek_cases h
    exact ⟨Int.toNat_le.2 hle, rfl⟩
  · obtain ⟨hle, -, rfl⟩ := Cursor.read_cases h
    exact ⟨hle, rfl⟩
  · obtain ⟨hle, -, rfl⟩ := Cursor.u8_cases h
    exact ⟨hle, rfl⟩
  · obtain ⟨hle, -, rfl⟩ := Cursor.u16_cases h
    exact ⟨hle, rfl⟩

/-- Settles O24: the base R48 names for each origin is `Cursor.base`, and a target that is not negative
is a position. -/
theorem seekMovesOrRaises : Obligations.SeekMovesOrRaises := by
  intro c origin offset base
  have hb : base = (c.base origin : Int) := by cases origin <;> rfl
  rw [hb]
  exact ⟨fun h0 h1 => ⟨_, Int.toNat_of_nonneg h0, Cursor.seek_ok h0 h1⟩, Cursor.seek_out⟩

/-- Settles O26: two bytes, low byte first, never overflow a 16-bit word, so its value is their sum. -/
theorem narrowReadsAreLittleEndian : Obligations.NarrowReadsAreLittleEndian := fun _ =>
  ⟨Cursor.u8_ok, Cursor.u8_short,
    fun h => ⟨_, Cursor.u16_ok h, u16le_toNat _ _⟩, Cursor.u16_short⟩

end Sys2Proof.Machine
end

section
/-! SUPPORT. The encoding in both directions: what the decoder reads from an instruction's bytes, and
the bytes behind what it answers (30_encoding.md R70 to R81). -/

namespace Sys2Proof.Machine

/-! ### From the instruction to its bytes and back -/

theorem decodeOperation_encode (i : Instr) (rest : List Byte) (h : i.space = .operation) :
    decodeOperation (encode i ++ rest) = .ok (i, rest) := by
  cases i with
  | lit0 n =>
    obtain ⟨h7, h6, h5, hn, -⟩ := opcode_fields 0b000#3 n
    simp only [encode, List.cons_append, List.nil_append, decodeOperation, h7, h6, h5, hn]
    rfl
  | lit1 n =>
    obtain ⟨h7, h6, h5, hn, -⟩ := opcode_fields 0b001#3 n
    simp only [encode, List.cons_append, List.nil_append, decodeOperation, h7, h6, h5, hn]
    rfl
  | rep len5 v =>
    obtain ⟨h7, h6, h5, hn, -⟩ := opcode_fields 0b010#3 len5
    simp only [encode, List.cons_append, List.nil_append, decodeOperation, h7, h6, h5, hn]
    rfl
  | copy len5 back =>
    obtain ⟨h7, h6, h5, hn, -⟩ := opcode_fields 0b011#3 len5
    simp only [encode, List.cons_append, List.nil_append, decodeOperation, le16, u16le_le16, h7, h6,
      h5, hn]
    rfl
  | pair len5 a b =>
    obtain ⟨h7, h6, h5, hn, -⟩ := opcode_fields 0b100#3 len5
    simp only [encode, List.cons_append, List.nil_append, decodeOperation, h7, h6, h5, hn]
    rfl
  | gap len5 =>
    obtain ⟨h7, h6, h5, hn, -⟩ := opcode_fields 0b101#3 len5
    simp only [encode, List.cons_append, List.nil_append, decodeOperation, h7, h6, h5, hn]
    rfl
  | patu ss pattLen seed =>
    obtain ⟨h7, h6, h5, hs, hp⟩ := pattern_fields 0b110#3 ss pattLen
    simp only [encode, List.cons_append, List.nil_append, decodeOperation, h7, h6, h5, hs, hp]
    rfl
  | patd ss pattLen seed =>
    obtain ⟨h7, h6, h5, hs, hp⟩ := pattern_fields 0b111#3 ss pattLen
    simp only [encode, List.cons_append, List.nil_append, decodeOperation, h7, h6, h5, hs, hp]
    rfl
  | _ => cases h

theorem decodeRecord_encode (i : Instr) (rest : List Byte) (h : i.space = .record)
    (hw : i.wellFormed = true) : decodeRecord (encode i ++ rest) = .ok (i, rest) := by
  cases i with
  | vgap skipCount => rfl
  | line lineLength xStart =>
    exact if_neg (by simpa [Instr.wellFormed] using hw)
  | _ => cases h

theorem decodeRle_encode (i : Instr) (rest : List Byte) (h : i.space = .rle) :
    decodeRle (encode i ++ rest) = .ok (i, rest) := by
  cases i with
  | rleRun r value =>
    obtain ⟨h7, hr, -⟩ := tag_fields 0b1#1 r
    simp only [encode, List.cons_append, List.nil_append, decodeRle, h7, hr]
    rfl
  | rleLit m =>
    obtain ⟨h7, hm, -⟩ := tag_fields 0b0#1 m
    simp only [encode, List.cons_append, List.nil_append, decodeRle, h7, hm]
    rfl
  | _ => cases h

/-- Settles O1: each space's decoder reads back the encodings of its own space. -/
theorem decodeReadsBackEncoding : Obligations.DecodeReadsBackEncoding := by
  intro i rest hw
  cases hs : i.space with
  | operation => exact decodeOperation_encode i rest hs
  | record => exact decodeRecord_encode i rest hs hw
  | rle => exact decodeRle_encode i rest hs

/-! ### From the bytes to the instruction -/

/-- A byte with the command bits of `cmd` is `cmd` before its own count field (R71). -/
theorem opcode_of_bits {op : Byte} (cmd : BitVec 3) (h7 : op.getLsbD 7 = cmd.getLsbD 2)
    (h6 : op.getLsbD 6 = cmd.getLsbD 1) (h5 : op.getLsbD 5 = cmd.getLsbD 0) :
    (cmd ++ field 0 5 op : Byte) = op ∧ (cmd ++ field 3 2 op ++ field 0 3 op : Byte) = op := by
  have hcmd : cmd = BitVec.ofBool (op.getLsbD 7) ++ BitVec.ofBool (op.getLsbD 6) ++
      BitVec.ofBool (op.getLsbD 5) := by
    rw [h7, h6, h5]; clear h7 h6 h5; revert cmd; decide
  obtain ⟨hlen, hpatt, -⟩ := byte_of_fields op
  exact ⟨by rw [hcmd]; exact hlen, by rw [hcmd]; exact hpatt⟩

/-- A byte with the form bit of `form` is `form` before its own count field (R81). -/
theorem tag_of_bit {tag : Byte} (form : BitVec 1) (h7 : tag.getLsbD 7 = form.getLsbD 0) :
    (form ++ field 0 7 tag : Byte) = tag := by
  have hform : form = BitVec.ofBool (tag.getLsbD 7) := by rw [h7]; clear h7; revert form; decide
  obtain ⟨-, -, htag⟩ := byte_of_fields tag
  rw [hform]; exact htag

/-- The input of the decoder is the encoding of an instruction of space `sp`, followed by `rest`. -/
def IsEncoding (sp : Space) (bs : List Byte) (i : Instr) (rest : List Byte) : Prop :=
  i.wellFormed = true ∧ i.space = sp ∧ bs = encode i ++ rest

theorem decodeOperation_isEncoding {bs rest : List Byte} {i : Instr}
    (h : decodeOperation bs = .ok (i, rest)) : IsEncoding .operation bs i rest := by
  cases bs with
  | nil => cases h
  | cons op bs =>
    simp only [decodeOperation] at h
    split at h
    case h_1 h7 h6 h5 =>
      obtain ⟨hop, -⟩ := opcode_of_bits 0b000#3 h7 h6 h5
      cases h
      exact ⟨rfl, rfl, by rw [encode, hop]; rfl⟩
    case h_2 h7 h6 h5 =>
      obtain ⟨hop, -⟩ := opcode_of_bits 0b001#3 h7 h6 h5
      cases h
      exact ⟨rfl, rfl, by rw [encode, hop]; rfl⟩
    case h_3 h7 h6 h5 =>
      obtain ⟨hop, -⟩ := opcode_of_bits 0b010#3 h7 h6 h5
      split at h <;> cases h
      exact ⟨rfl, rfl, by rw [encode, hop]; rfl⟩
    case h_4 h7 h6 h5 =>
      obtain ⟨hop, -⟩ := opcode_of_bits 0b011#3 h7 h6 h5
      split at h <;> cases h
      exact ⟨rfl, rfl, by rw [encode, hop, le16_u16le]; rfl⟩
    case h_5 h7 h6 h5 =>
      obtain ⟨hop, -⟩ := opcode_of_bits 0b100#3 h7 h6 h5
      split at h <;> cases h
      exact ⟨rfl, rfl, by rw [encode, hop]; rfl⟩
    case h_6 h7 h6 h5 =>
      obtain ⟨hop, -⟩ := opcode_of_bits 0b101#3 h7 h6 h5
      cases h
      exact ⟨rfl, rfl, by rw [encode, hop]; rfl⟩
    case h_7 h7 h6 h5 =>
      obtain ⟨-, hop⟩ := opcode_of_bits 0b110#3 h7 h6 h5
      split at h <;> cases h
      exact ⟨rfl, rfl, by rw [encode, hop]; rfl⟩
    case h_8 h7 h6 h5 =>
      obtain ⟨-, hop⟩ := opcode_of_bits 0b111#3 h7 h6 h5
      split at h <;> cases h
      exact ⟨rfl, rfl, by rw [encode, hop]; rfl⟩

theorem decodeRecord_isEncoding {bs rest : List Byte} {i : Instr}
    (h : decodeRecord bs = .ok (i, rest)) : IsEncoding .record bs i rest := by
  cases bs with
  | nil => cases h
  | cons lineLength bs =>
    simp only [decodeRecord] at h
    split at h
    case isTrue hz =>
      split at h <;> cases h
      exact ⟨rfl, rfl, by rw [hz]; rfl⟩
    case isFalse hnz =>
      split at h <;> cases h
      exact ⟨by simpa [Instr.wellFormed] using hnz, rfl, rfl⟩

theorem decodeRle_isEncoding {bs rest : List Byte} {i : Instr}
    (h : decodeRle bs = .ok (i, rest)) : IsEncoding .rle bs i rest := by
  cases bs with
  | nil => cases h
  | cons tag bs =>
    simp only [decodeRle] at h
    split at h
    case h_1 h7 =>
      split at h <;> cases h
      exact ⟨rfl, rfl, by rw [encode, tag_of_bit 0b1#1 h7]; rfl⟩
    case h_2 h7 =>
      cases h
      exact ⟨rfl, rfl, by rw [encode, tag_of_bit 0b0#1 h7]; rfl⟩

/-- Settles O2: each space's decoder answers only instructions whose encoding it was given. -/
theorem decodedBytesAreTheEncoding : Obligations.DecodedBytesAreTheEncoding := by
  intro sp bs rest i h
  cases sp with
  | operation => exact decodeOperation_isEncoding h
  | record => exact decodeRecord_isEncoding h
  | rle => exact decodeRle_isEncoding h

/-! ### Totality -/

/-- Settles O4: whatever the bits that choose the row, no row has more than two operand bytes, and both
are there. -/
theorem everyFirstByteDecodes : Obligations.EveryFirstByteDecodes := by
  intro sp b0 b1 b2 rest
  cases sp with
  | operation =>
    simp only [decode, decodeOperation]
    split <;> exact ⟨_, _, rfl⟩
  | record =>
    simp only [decode, decodeRecord]
    split <;> exact ⟨_, _, rfl⟩
  | rle =>
    simp only [decode, decodeRle]
    split <;> exact ⟨_, _, rfl⟩

/-- Settles O3, row by row. -/
theorem specWordsDecode : Obligations.SpecWordsDecode :=
  ⟨rfl, rfl, rfl, rfl, rfl, rfl, rfl, rfl, rfl, rfl, rfl, rfl⟩

/-! ### The assembler's operations -/

theorem litCount_lit0 (n : BitVec 5) : litCount (opcodeByte (.lit0 n)) = n.toNat + 1 := by
  rw [litCount, opcodeByte_lit0]

theorem litCount_lit1 (n : BitVec 5) : litCount (opcodeByte (.lit1 n)) = 33 + n.toNat := by
  rw [litCount, opcodeByte_lit1]; omega

/-- Settles O5: what the assembler emits is the encoding of one instruction, so it decodes to it (O1);
within the constraint of R85 the count field does not wrap. -/
theorem assembledOperationsDecode : Obligations.AssembledOperationsDecode := by
  intro o rest hl
  cases o with
  | lit bs =>
    obtain ⟨h1, h64⟩ : 1 ≤ bs.length ∧ bs.length ≤ 64 := by simpa [AsmOp.legal] using hl
    by_cases h32 : bs.length ≤ 32
    · refine ⟨.lit0 (BitVec.ofNat 5 (bs.length - 1)), ?_, ?_⟩
      · rw [AsmOp.bytes, if_pos h32, List.append_assoc]
        exact decodeReadsBackEncoding (.lit0 _) _ rfl
      · rw [litCount_lit0, BitVec.toNat_ofNat]; omega
    · refine ⟨.lit1 (BitVec.ofNat 5 (bs.length - 1)), ?_, ?_⟩
      · rw [AsmOp.bytes, if_neg h32, List.append_assoc]
        exact decodeReadsBackEncoding (.lit1 _) _ rfl
      · rw [litCount_lit1, BitVec.toNat_ofNat]; omega
  | rep n v =>
    obtain ⟨hlo, hhi⟩ : 3 ≤ n ∧ n ≤ 34 := by simpa [AsmOp.legal] using hl
    refine ⟨_, decodeReadsBackEncoding (.rep _ v) rest rfl, ?_⟩
    rw [repCount, BitVec.toNat_ofNat]; omega
  | copy n back =>
    obtain ⟨hlo, hhi⟩ : 4 ≤ n ∧ n ≤ 35 := by simpa [AsmOp.legal] using hl
    refine ⟨_, decodeReadsBackEncoding (.copy _ back) rest rfl, ?_⟩
    rw [copyCount, BitVec.toNat_ofNat]; omega
  | pair n a b =>
    obtain ⟨hlo, hhi⟩ : 2 ≤ n ∧ n ≤ 33 := by simpa [AsmOp.legal] using hl
    refine ⟨_, decodeReadsBackEncoding (.pair _ a b) rest rfl, ?_⟩
    rw [pairCount, BitVec.toNat_ofNat]; omega
  | gap n =>
    obtain ⟨hlo, hhi⟩ : 1 ≤ n ∧ n ≤ 32 := by simpa [AsmOp.legal] using hl
    refine ⟨_, decodeReadsBackEncoding (.gap _) rest rfl, ?_⟩
    rw [gapCount, BitVec.toNat_ofNat]; omega
  | patu sel n seed =>
    obtain ⟨⟨hsel, hlo⟩, hhi⟩ : (sel ≤ 3 ∧ 3 ≤ n) ∧ n ≤ 10 := by simpa [AsmOp.legal] using hl
    refine ⟨_, _, decodeReadsBackEncoding (.patu _ _ seed) rest rfl, ?_, ?_⟩
    · rw [BitVec.toNat_ofNat]; omega
    · rw [pattCount, BitVec.toNat_ofNat]; omega
  | patd sel n seed =>
    obtain ⟨⟨hsel, hlo⟩, hhi⟩ : (sel ≤ 3 ∧ 3 ≤ n) ∧ n ≤ 10 := by simpa [AsmOp.legal] using hl
    refine ⟨_, _, decodeReadsBackEncoding (.patd _ _ seed) rest rfl, ?_, ?_⟩
    · rw [BitVec.toNat_ofNat]; omega
    · rw [pattCount, BitVec.toNat_ofNat]; omega
  | byte bs => rfl

/-! ### The encoding at the cursor -/

theorem Memory.readList_add (m : Memory) (a n k : Nat) :
    m.readList a (n + k) = m.readList a n ++ m.readList (a + n) k := by
  induction n generalizing a with
  | zero => rw [Nat.zero_add]; rfl
  | succ n ih =>
    rw [Nat.succ_add, Memory.readList, Memory.readList, ih, List.cons_append, Nat.add_right_comm,
      Nat.add_assoc]

/-- What stands at the cursor, up to three bytes, is the head of what the decoder is given. -/
theorem fetchWindow_of_atCursor {s : State} {bs : List Byte} (h : AtCursor s bs)
    (hl : bs.length ≤ 3) : ∃ rest, fetchWindow s = bs ++ rest := by
  obtain ⟨hin, hread⟩ := h
  obtain ⟨k, hk⟩ : ∃ k, min 3 (s.cur.buf.len - s.cur.pos) = bs.length + k :=
    Nat.exists_eq_add_of_le (by omega)
  refine ⟨s.cur.buf.readList (s.cur.pos + bs.length) k, ?_⟩
  rw [fetchWindow, Cursor.window, hk, Memory.readList_add, hread]

theorem encode_sized : ∀ i : Instr, Laws.Sized.Statement i
  | .lit0 n => Laws.Sized.lit0 n
  | .lit1 n => Laws.Sized.lit1 n
  | .rep len5 v => Laws.Sized.rep len5 v
  | .copy len5 back => Laws.Sized.copy len5 back
  | .pair len5 a b => Laws.Sized.pair len5 a b
  | .gap len5 => Laws.Sized.gap len5
  | .patu ss pattLen seed => Laws.Sized.patu ss pattLen seed
  | .patd ss pattLen seed => Laws.Sized.patd ss pattLen seed
  | .vgap skipCount => Laws.Sized.vgap skipCount
  | .line lineLength xStart => Laws.Sized.line lineLength xStart
  | .rleRun r value => Laws.Sized.rleRun r value
  | .rleLit m => Laws.Sized.rleLit m

/-- The window of a fetch holds every fixed layout (R72). -/
theorem encode_length_le (i : Instr) : (encode i).length ≤ 3 := by
  obtain ⟨hlen, -, hle⟩ := encode_sized i
  exact hlen ▸ hle

/-- Settles O7: the window starts with the encoding, which decodes to the instruction (O1). -/
theorem stepRunsEncodingAtCursor : Obligations.StepRunsEncodingAtCursor := by
  intro s i hw hdue hat
  obtain ⟨rest, hwin⟩ := fetchWindow_of_atCursor hat (encode_length_le i)
  exact step_due hdue (by rw [hwin]; exact decodeReadsBackEncoding i rest hw)

/-! ### The records of the canonical encoder -/

/-- A record the canonical encoder may emit, with the bytes after its fixed layout (R81, R82). -/
def LegalRecord (r : Instr × List Byte) : Prop :=
  r.1.emitted = true ∧
    ((∃ n v, r.1 = .rleRun n v ∧ r.2 = []) ∨ (∃ m, r.1 = .rleLit m ∧ r.2.length = m.toNat))

theorem rleRound_emits_legalRecord {x : List Byte} {g : RleRegs} (h : g.i < x.length) :
    ∃ r, (rleRound x g).2 = encode r.1 ++ r.2 ∧ LegalRecord r := by
  obtain ⟨-, hend, ⟨hrun, n, hn, -, hout, -⟩ | ⟨-, m, hm, hi, hout, -⟩⟩ := rleRound_spec h
  · exact ⟨(.rleRun n (x.getD g.i 0), []), by rw [hout, List.append_nil],
      decide_eq_true (by omega), .inl ⟨n, _, rfl, rfl⟩⟩
  · have hlen : ((x.drop g.i).take m.toNat).length = m.toNat := by
      rw [List.length_take, List.length_drop]; omega
    exact ⟨(.rleLit m, (x.drop g.i).take m.toNat), hout, decide_eq_true hm, .inr ⟨m, rfl, hlen⟩⟩

theorem rleRounds_emit_legalRecords (x : List Byte) (fuel : Nat) (g : RleRegs) :
    ∃ records : List (Instr × List Byte),
      rleRounds x fuel g = records.flatMap (fun r => encode r.1 ++ r.2) ∧
        ∀ r ∈ records, LegalRecord r := by
  induction fuel generalizing g with
  | zero => exact ⟨[], rfl, by simp⟩
  | succ fuel ih =>
    by_cases h : g.i < x.length
    · obtain ⟨r, hr, hlegal⟩ := rleRound_emits_legalRecord h
      obtain ⟨records, hrest, hall⟩ := ih (rleRound x g).1
      refine ⟨r :: records, ?_, List.forall_mem_cons.2 ⟨hlegal, hall⟩⟩
      rw [rleRounds, if_pos h, hr, hrest, List.flatMap_cons]
    · exact ⟨[], by rw [rleRounds, if_neg h, List.flatMap_nil], by simp⟩

/-- Settles O44: the output is that of the rounds, each of which emits one legal record. -/
theorem compressorEmitsLegalRecords : Obligations.CompressorEmitsLegalRecords := fun x =>
  rleRounds_emit_legalRecords x x.length { i := 0, r := 0, s := 0 }

end Sys2Proof.Machine
end

section
/-! SUPPORT. The Sprite Index: what a parsing attempt answers for each buffer, how `parse` decides
between its two attempts, why an enciphered count is refused, and entry lookup (40_sprite_index.md
R86 to R90). -/

namespace Sys2Proof.Machine

/-! ### Words and entries of a buffer -/

/-- The little-endian word at address `a` (R54). -/
def wordAt (m : Memory) (a : Nat) : Half := u16le (m.read a) (m.read (a + 1))

/-- The index entry whose two words begin at address `a` (R87). -/
def entryAt (m : Memory) (a : Nat) : Entry := { offset1 := wordAt m a, offset2 := wordAt m (a + 2) }

@[simp] theorem wordAt_ofBytes (bs : List Byte) (a : Nat) :
    wordAt (Memory.ofBytes bs) a = u16le (bs.getD a 0) (bs.getD (a + 1) 0) := by
  simp only [wordAt, Memory.read_ofBytes]

/-- The entry loop reads entry `k` at `4 * k` bytes past its start when all of them are there. -/
theorem readEntries_ok {n : Nat} {c : Cursor} (h : c.pos + 4 * n ≤ c.buf.len) :
    readEntries n c = .ok ((List.range n).map (fun k => entryAt c.buf (c.pos + 4 * k)),
      { c with pos := c.pos + 4 * n }) := by
  induction n generalizing c with
  | zero => rfl
  | succ n ih =>
    have h1 := Cursor.u16_ok (c := c) (by omega)
    have h2 := Cursor.u16_ok (c := { c with pos := c.pos + 2 }) (by simp only; omega)
    have h3 := ih (c := { c with pos := c.pos + 2 + 2 }) (by simp only; omega)
    have e : ∀ k, c.pos + 2 + 2 + 4 * k = c.pos + 4 * (k + 1) := by omega
    simp only [readEntries, h1, h2, h3, bind, Except.bind, pure, Except.pure, List.range_succ_eq_map,
      List.map_cons, List.map_map, e]
    rfl

/-! ### One attempt -/

theorem implausible_iff {count : Half} :
    implausible count = true ↔ count.toNat = 0 ∨ 0x0800 ≤ count.toNat := by
  simp only [implausible, Bool.or_eq_true, decide_eq_true_eq]

theorem attempt_short {b : Memory} (h : b.len < 2) : attempt b = .truncated := if_pos h

/-- With a count to read, an attempt tests the count, then the length against it, and then no read
fails (R87, D19). -/
theorem attempt_eq {b : Memory} (h : 2 ≤ b.len) :
    attempt b =
      if implausible (wordAt b 0) then .implausible
      else if b.len < (wordAt b 0).toNat * 4 + 2 then .truncated
      else .ok
        { wbuf := b
          count := wordAt b 0
          entries := (List.range (wordAt b 0).toNat).map (fun k => entryAt b (2 + 4 * k)) }
        { buf := b, pos := 2 + 4 * (wordAt b 0).toNat } := by
  have hcount : (Cursor.over b).u16 = .ok (wordAt b 0, { buf := b, pos := 2 }) :=
    Cursor.u16_ok (c := Cursor.over b) h
  simp only [attempt, if_neg (Nat.not_lt.2 h), hcount]
  split
  · rfl
  · split
    · rfl
    · rw [readEntries_ok (by simp only; omega)]

theorem attempt_implausible_iff {b : Memory} (h : 2 ≤ b.len) :
    attempt b = .implausible ↔ (wordAt b 0).toNat = 0 ∨ 0x0800 ≤ (wordAt b 0).toNat := by
  rw [attempt_eq h, ← implausible_iff]
  split
  · exact iff_of_true rfl ‹_›
  · exact iff_of_false (by split <;> nofun) ‹_›

/-- An attempt that succeeds read a count, the buffer's first word, and it was plausible. -/
theorem attempt_ok_count {b : Memory} {ix : SpriteIndex} {c : Cursor} (h : attempt b = .ok ix c) :
    2 ≤ b.len ∧ (wordAt b 0).toNat < 0x0800 := by
  by_cases hlen : b.len < 2
  · rw [attempt_short hlen] at h
    cases h
  · have h2 := Nat.not_lt.1 hlen
    refine ⟨h2, Nat.not_le.1 fun hc => ?_⟩
    rw [(attempt_implausible_iff h2).2 (.inr hc)] at h
    cases h

/-- Settles O28: the clauses are the branches of `attempt_eq`. -/
theorem attemptClassifiesBuffer : Obligations.AttemptClassifiesBuffer := by
  intro bs u16At count
  have hword : ∀ a, wordAt (Memory.ofBytes bs) a = u16At a := wordAt_ofBytes bs
  refine ⟨fun h => attempt_short h, fun h2 hc => ?_, fun h2 h0 h8 hlen => ?_,
    fun h2 h0 h8 hlen => ?_⟩
  · exact (attempt_implausible_iff h2).2 (by rwa [hword])
  all_goals
    have hp : ¬ implausible (u16At 0) = true := by rw [implausible_iff]; omega
    rw [attempt_eq h2, hword, if_neg hp]
  · exact if_pos hlen
  · refine ⟨_, _, if_neg (Nat.not_lt.2 hlen), by simp [count],
      fun k (hk : k < (u16At 0).toNat) => ?_⟩
    have e : 2 + 4 * k + 2 = 4 + 4 * k := by omega
    simp only [List.getElem?_map, List.getElem?_range hk, Option.map_some, entryAt, hword, e]

/-! ### The two attempts of `parse` -/

theorem Memory.xored_ofBytes (bs : List Byte) :
    (Memory.ofBytes bs).xored = Memory.ofBytes (bs.map (· ^^^ 0x35#8)) := by
  rw [Memory.xored, Memory.toBytes_ofBytes]

theorem parseDone_of_idle {s : State} (h : s.phase = .idle) (ix : SpriteIndex) (c : Cursor)
    (low : Bool) :
    parseDone ix c low s =
      { s with index := some ix, cur := c, lowConfidence := low, status := .ok } := by
  simp only [parseDone, complete, h]

theorem parseFail_of_idle {s : State} (h : s.phase = .idle) (e : Status) :
    parseFail e s =
      { s with
        index := none
        lowConfidence := Config.freeFlag s.freeCount
        freeCount := s.freeCount + 1
        pending := []
        status := e } := by
  simp only [parseFail, raise, h]

/-- Settles O29: the first attempt decides, or else the one over the XORed buffer, and both ends of
`parse` leave an idle machine idle. -/
theorem parseRetriesOnceOnImplausible : Obligations.ParseRetriesOnceOnImplausible := by
  intro s bytes rest hreq
  have hidle : State.phase { s with requests := rest, buf := Memory.ofBytes bytes } = .idle := hreq.1
  refine ⟨_, step_requested hreq, fun ix c h => ?_, fun h => ?_, fun h =>
    ⟨fun ix c h' => ?_, fun h' => ?_, fun h' => ?_⟩⟩
  · simp only [parse, h, parseDone_of_idle hidle]
  · simp only [parse, h, parseFail_of_idle hidle]
  · simp only [parse, h, Memory.xored_ofBytes, h', parseDone_of_idle hidle]
  · simp only [parse, h, Memory.xored_ofBytes, h', parseFail_of_idle hidle]
  · simp only [parse, h, Memory.xored_ofBytes, h', parseFail_of_idle hidle]

/-! ### Enciphered counts -/

theorem u16le_eq_append (b0 b1 : Byte) : u16le b0 b1 = b1 ++ b0 := by
  apply BitVec.eq_of_toNat_eq
  rw [u16le_toNat, BitVec.toNat_append, ← Nat.shiftLeft_add_eq_or_of_lt b0.isLt, Nat.shiftLeft_eq]
  omega

theorem u16le_xor (b0 b1 k0 k1 : Byte) :
    u16le (b0 ^^^ k0) (b1 ^^^ k1) = u16le b0 b1 ^^^ u16le k0 k1 := by
  simp only [u16le_eq_append]
  exact BitVec.xor_append.symm

theorem getD_map_xor {bs : List Byte} {k : Nat} (h : k < bs.length) (key : Byte) :
    (bs.map (· ^^^ key)).getD k 0 = bs.getD k 0 ^^^ key := by
  rw [List.getD_eq_getElem _ _ (by simpa using h), List.getD_eq_getElem _ _ h, List.getElem_map]

/-- The high byte decides: one below 0x08 in the deciphered count was at least 0x30 (R89). -/
theorem highByte_of_enciphered : ∀ b : Byte, (b ^^^ 0x35#8).toNat < 0x08 → 0x30 ≤ b.toNat := by
  decide

theorem count_of_enciphered {b0 b1 : Byte}
    (h : (u16le (b0 ^^^ 0x35#8) (b1 ^^^ 0x35#8)).toNat < 0x0800) :
    u16le b0 b1 = u16le (b0 ^^^ 0x35#8) (b1 ^^^ 0x35#8) ^^^ 0x3535#16 ∧
      0x3000 ≤ (u16le b0 b1).toNat := by
  constructor
  · rw [u16le_xor, show u16le 0x35#8 0x35#8 = 0x3535#16 from rfl, BitVec.xor_assoc, BitVec.xor_self,
      BitVec.xor_zero]
  · rw [u16le_toNat] at h ⊢
    have := highByte_of_enciphered b1 (by omega)
    omega

/-- Settles O30: the buffer's high count byte is at least 0x30 (`count_of_enciphered`), and an attempt
that succeeds has read both bytes. -/
theorem encipheredIndexIsImplausible : Obligations.EncipheredIndexIsImplausible := by
  intro bytes xored countOf
  have countOf_xored (h : 2 ≤ bytes.length) : countOf xored =
      u16le (bytes.getD 0 0 ^^^ 0x35#8) (bytes.getD 1 0 ^^^ 0x35#8) := by
    simp only [countOf, xored, getD_map_xor (show 0 < bytes.length by omega), getD_map_xor h]
  have hcount : 2 ≤ bytes.length → (countOf xored).toNat < 0x0800 →
      countOf bytes = countOf xored ^^^ 0x3535#16 ∧ 0x3000 ≤ (countOf bytes).toNat ∧
        attempt (Memory.ofBytes bytes) = .implausible := by
    intro h2 hlt
    rw [countOf_xored h2] at hlt ⊢
    obtain ⟨heq, hge⟩ := count_of_enciphered hlt
    refine ⟨heq, hge, (attempt_implausible_iff h2).2 (.inr ?_)⟩
    rw [wordAt_ofBytes]
    exact Nat.le_trans (by decide) hge
  refine ⟨hcount, fun ix c h => ?_⟩
  obtain ⟨h2, hlt⟩ := attempt_ok_count h
  rw [wordAt_ofBytes] at hlt
  exact (hcount (by simpa [xored] using h2) hlt).2.2

/-! ### Lookup -/

/-- Settles O31: the entries are as many as the count says, so an index below it finds one. -/
theorem lookupIsByFrameNumber : Obligations.LookupIsByFrameNumber := by
  intro ix i hwf
  refine ⟨fun h0 hi => ?_, fun h => if_pos h⟩
  have hlt : i.toNat < ix.entries.length := by rw [hwf.entries]; omega
  refine ⟨ix.entries[i.toNat], ?_, List.getElem?_eq_getElem hlt⟩
  rw [lookup, if_neg (by omega), List.getElem?_eq_getElem hlt]

end Sys2Proof.Machine
end

section
/-! SUPPORT. The bound on the draw position of an open line record: what opens one, and what an
operation may add to it (41_cell_decoder.md R99, R100). -/

namespace Sys2Proof.Machine

/-- No start of a host operation opens a line record. -/
theorem startOp_phase_ne_ops {op : HostOp} {s t : State} (h : startOp op s = .next t) :
    t.phase ≠ .ops := by
  cases op with
  | parse bytes => rcases parse_next h with ⟨ix, c, low, -, rfl⟩ | ⟨e, rfl⟩ <;> nofun
  | getFrameBounds e =>
    obtain ⟨ix, -, ⟨info, -, rfl⟩ | ⟨wh, c, -, rfl⟩⟩ := getFrameBounds_next h <;> nofun
  | decodeFrame i =>
    obtain ⟨ix, -, ⟨-, rfl⟩ | ⟨e, -, ⟨info, -, rfl⟩ | ⟨w, k, c, -, -, rfl⟩⟩⟩ :=
      decodeFrame_next h <;> nofun
  | decodeCell b off fr => obtain ⟨m, f, -, -, rfl⟩ := decodeCell_next.1 h; nofun
  | toChunky fr => obtain ⟨f, -, rfl⟩ := toChunky_next.1 h; nofun
  | toPlanes px n => obtain ⟨c, -, rfl⟩ := toPlanes_next.1 h; nofun
  | interleave a => obtain ⟨pl, -, rfl⟩ := interleave_next.1 h; nofun
  | rleCompress a => obtain ⟨x, -, rfl⟩ := rleCompress_next.1 h; nofun
  | rleDecode a => obtain ⟨z, -, rfl⟩ := rleDecode_next.1 h; nofun
  | writeBitplaneFile a mode => obtain ⟨pl, file, -, -, rfl⟩ := writeBitplaneFile_next.1 h; nofun

/-- A state without an open line record meets the bound. -/
theorem drawBound_of_phase_ne_ops {s : State} (h : s.phase ≠ .ops) : s.DrawBound := (absurd · h)

/-- An operation adds at most 32 columns for each byte it consumes, and one that starts inside the
budget ends at most two bytes past it. -/
theorem OpEffect.apply_drawBound {s : State} (e : OpEffect s) (hb : s.DrawBound)
    (hp : s.phase = .ops) (hl : s.cur.pos < s.lineEnd) : (e.apply s).DrawBound := by
  obtain ⟨hend, hstart, -, hdraw⟩ := hb hp
  have hgt := e.pos_gt
  have hle := e.draw_le
  intro _
  refine ⟨hend, hstart.trans hgt.le, e.pos_line hl, ?_⟩
  simp only [OpEffect.apply]
  omega

theorem StepCase.drawBound {s t : State} (h : StepCase s t) (hb : s.DrawBound) : t.DrawBound := by
  cases h with
  | waits => exact hb
  | starts _ ht => exact drawBound_of_phase_ne_ops (startOp_phase_ne_ops ht)
  | gap h => exact drawBound_of_phase_ne_ops fun ho => nomatch h.symm.trans ho
  | lineOpens =>
    intro _
    refine ⟨rfl, Nat.le_refl _, ?_, ?_⟩ <;> simp only <;> omega
  | operates e h hl => exact e.apply_drawBound hb h hl
  | rleRecord h => exact drawBound_of_phase_ne_ops fun ho => nomatch h.symm.trans ho
  | compresses h => exact drawBound_of_phase_ne_ops fun ho => nomatch h.symm.trans ho
  | _ => exact drawBound_of_phase_ne_ops nofun

/-- Settles O56: only the opening of a line record and its operations leave one open. -/
theorem stepKeepsDrawBound : Obligations.StepKeepsDrawBound :=
  fun _ _ hb h => (step_cases h).drawBound hb

/-- Settles O57: the budget is at most 255 bytes and the first of them is `x_start`, so at most 254
bytes are consumed inside it and at most 256 with the overrun. -/
theorem drawPositionIsBounded : Obligations.DrawPositionIsBounded := by
  intro s hb hp
  obtain ⟨hend, -, hover, hdraw⟩ := hb hp
  have hlen := s.lineLength.isLt
  omega

end Sys2Proof.Machine
end

section
/-! SUPPORT. The cell decoder against its rules: the dispatch of a step, a cut-off fetch, the records,
emission and the blit, the start and the end of a cell (41_cell_decoder.md R92 to R102). -/

namespace Sys2Proof.Machine

/-! ### Dispatch and fetch -/

/-- Settles O6: it is the equation of a step with an instruction due. -/
theorem stepRunsDecodedInstruction : Obligations.StepRunsDecodedInstruction :=
  fun _ _ _ _ => step_due

/-- Only a sequence shorter than the longest fixed layout fails to decode. -/
theorem length_lt_of_decode_error {sp : Space} {bs : List Byte} {r : Reject}
    (h : decode sp bs = .error r) : bs.length < 3 := by
  match bs with
  | [] | [_] | [_, _] => simp
  | b0 :: b1 :: b2 :: rest =>
    obtain ⟨i, left, hok⟩ := everyFirstByteDecodes sp b0 b1 b2 rest
    cases hok.symm.trans h

theorem fetchWindow_length (s : State) :
    (fetchWindow s).length = min 3 (s.cur.buf.len - s.cur.pos) :=
  Memory.readList_length _ _ _

/-- Settles O8: a window that does not decode is not full, so the buffer ends inside it. -/
theorem cutOffFetchEndsTheOperation : Obligations.CutOffFetchEndsTheOperation := by
  intro s sp r hdue hdec
  have hshort := length_lt_of_decode_error hdec
  rw [fetchWindow_length] at hshort
  refine ⟨by omega, _, step_cutOff hdue hdec, ?_⟩
  cases sp with
  | operation => exact ⟨fun _ => failCell_fails s, nofun⟩
  | record => exact ⟨fun _ => failCell_fails s, nofun⟩
  | rle => exact ⟨absurd rfl, fun _ => failRle_fails _ s⟩

/-! ### Records -/

/-- Settles O17: the one two-byte read of VGAP fits, or fails and ends the cell. -/
theorem gapRecordSkipsRows : Obligations.GapRecordSkipsRows := fun _ s =>
  ⟨rfl, execVgap_ok, fun h => ⟨_, execVgap_short h, failCell_fails s⟩⟩

/-- Settles O18: the two reads of LINE fit, or one fails and ends the cell; the row that opens lists no
sample, so every column is `T`. -/
theorem lineRecordOpens : Obligations.LineRecordOpens := fun _ _ s =>
  ⟨rfl, fun h => ⟨_, execLine_ok h, rfl, sampleAt_nil⟩,
    fun h => ⟨_, execLine_short h, failCell_fails s⟩⟩

/-! ### Emission and blit -/

theorem sampleAt_emitAll_single (v : Byte) (s : State) (c : Nat) :
    sampleAt (emitAll [v] s).row c =
      if c = s.drawX ∧ s.drawX < s.hdr.width.toNat then .Px v else sampleAt s.row c := by
  rw [emitAll_row, emitRow, emitRow]
  by_cases hw : s.drawX < s.hdr.width.toNat
  · simp only [hw, if_true, and_true, sampleAt_put]
  · simp only [hw, if_false, and_false]

theorem emitAll_cons (v : Byte) (vs : List Byte) (s : State) :
    emitAll (v :: vs) s = emitAll vs (emitAll [v] s) := by
  have hx : s.drawX + (v :: vs).length = s.drawX + 1 + vs.length := by
    rw [List.length_cons]; omega
  simp only [emitAll, emitRow, hx, List.length_singleton]

/-- Settles O16: `emitRow` puts one pixel at a time, each a column further. -/
theorem emitKeepsOrDrops : Obligations.EmitKeepsOrDrops := fun v s =>
  ⟨⟨rfl, sampleAt_emitAll_single v s⟩, fun vs => emitAll_cons v vs s⟩

/-- The blit sample by sample (R101). -/
theorem blit_sample (row : List Host.Cell) (hdr : CellHeader) (destY : Nat) {f : Frame} {x y : Nat}
    (hx : x < f.w) (hy : y < f.h) :
    (blit row hdr destY f).sample x y =
      if y = destY ∧ hdr.xOffset.toNat ≤ x ∧ x - hdr.xOffset.toNat < hdr.width.toNat ∧
          sampleAt row (x - hdr.xOffset.toNat) ≠ .T then
        sampleAt row (x - hdr.xOffset.toNat)
      else f.sample x y := by
  obtain ⟨-, -, -, hs⟩ := blitColumns_spec row hdr destY f hdr.width.toNat
  exact hs x y hx hy

/-- Settles O19: the end of the record is one step, and its frame is the blit of the row. -/
theorem lineRecordEndsWithBlit : Obligations.LineRecordEndsWithBlit := fun s f hp hl hf =>
  ⟨blit s.row s.hdr s.destY f, (step_ops_end hp hl).trans (endLine_some hf), blit_w _ _ _ _,
    blit_h _ _ _ _, fun _ _ => blit_sample _ _ _⟩

/-! ### The start and the end of a cell -/

/-- Settles O20: the four fields are those of `headerAt`. -/
theorem cellStartsWithHeaderRead : Obligations.CellStartsWithHeaderRead := by
  intro s off rest f hp hpending hf u16At
  have hdrawing : s.canvas.isSome = true := by rw [hf]; rfl
  rw [step_cellStart hp]
  exact ⟨startCell_ok hpending hdrawing,
    fun hshort => ⟨_, startCell_short hpending hdrawing hshort, failCell_fails _⟩⟩

/-- Settles O21: the end of a cell is `endCell`, and with none left `deliverFrame` ends the
operation. -/
theorem finishedCellReadsNoMore : Obligations.FinishedCellReadsNoMore :=
  ⟨fun _ hp hl => step_record_end hp hl,
    fun _ hp hpending => ⟨_, (step_cellStart hp).trans (startCell_nil hpending), rfl⟩⟩

end Sys2Proof.Machine
end

section
/-! SUPPORT. Every operation ends: a running one has a next state, and its work left decreases with
every step that leaves it running (41_cell_decoder.md R103; 70_reset_and_hazards.md R167). -/

namespace Sys2Proof.Machine

/-! ### A running operation has a next state -/

theorem startCell_next {s : State} (hf : s.canvas.isSome = true) : ∃ t, startCell s = .next t := by
  cases hp : s.pending with
  | nil => exact ⟨_, startCell_nil hp⟩
  | cons off rest =>
    rcases Nat.lt_or_ge s.cur.buf.len (off + 8) with hl | hl
    · exact ⟨_, startCell_short hp hf hl⟩
    · exact ⟨_, startCell_ok hp hf hl⟩

theorem rleCompressStep_next (s : State) : ∃ t, rleCompressStep s = .next t := by
  unfold rleCompressStep
  dsimp only
  split <;> exact ⟨_, rfl⟩

/-- A frame is under construction wherever the sequencer of a running operation asks for one. -/
theorem sequencer_next {s : State} (hi : s.Inv) (hrun : s.phase ≠ .idle) :
    ∃ t, sequencer s = .next t := by
  cases hp : s.phase with
  | idle => exact absurd hp hrun
  | cellStart =>
    simp only [sequencer, hp]
    exact startCell_next (hi.drawing.1 (.inl hp))
  | record => simp only [sequencer, hp]; exact ⟨_, rfl⟩
  | ops =>
    obtain ⟨f, hf⟩ := Option.isSome_iff_exists.1 (hi.drawing.1 (.inr (.inr hp)))
    simp only [sequencer, hp]
    exact ⟨_, endLine_some hf⟩
  | rleDecode => simp only [sequencer, hp]; exact ⟨_, rfl⟩
  | rleCompress => simp only [sequencer, hp]; exact rleCompressStep_next s

theorem step_next {s : State} (hi : s.Inv) (hrun : s.phase ≠ .idle) : ∃ t, step s = .next t := by
  cases hd : dueSpace s with
  | none => rw [step_none hd]; exact sequencer_next hi hrun
  | some sp =>
    cases hdec : decode sp (fetchWindow s) with
    | ok p => rw [step_due hd hdec]; exact exec_next p.1 s
    | error r => exact ⟨_, step_cutOff hd hdec⟩

/-! ### The work left -/

/-- The bytes that the cursor, and those that `rle_compress`, can still take. -/
def inputLeft (s : State) : Nat := (s.cur.buf.len - s.cur.pos) + (s.cur.buf.len - s.rle.i)

/-- How many of the loops of a cell decode are open: the scanlines, the operations of a line. -/
def loopDepth : Phase → Nat
  | .record => 1
  | .ops => 2
  | .idle | .cellStart | .rleDecode | .rleCompress => 0

/-- What a running operation has still to do: cells to start, then bytes to take, then loops to
leave. -/
def workLeft (s : State) : ℕ ×ₗ ℕ ×ₗ ℕ :=
  toLex (s.pending.length, toLex (inputLeft s, loopDepth s.phase))

theorem workLeft_lt_iff {s t : State} : workLeft t < workLeft s ↔
    t.pending.length < s.pending.length ∨ t.pending.length = s.pending.length ∧
      (inputLeft t < inputLeft s ∨
        inputLeft t = inputLeft s ∧ loopDepth t.phase < loopDepth s.phase) := by
  simp only [workLeft, Prod.Lex.toLex_lt_toLex]

theorem workLeft_lt_of_input {s t : State} (hp : t.pending = s.pending)
    (h : inputLeft t < inputLeft s) : workLeft t < workLeft s :=
  workLeft_lt_iff.2 (.inr ⟨by rw [hp], .inl h⟩)

theorem workLeft_lt_of_depth {s t : State} (hp : t.pending = s.pending)
    (hin : inputLeft t = inputLeft s) (h : loopDepth t.phase < loopDepth s.phase) :
    workLeft t < workLeft s :=
  workLeft_lt_iff.2 (.inr ⟨by rw [hp], .inr ⟨hin, h⟩⟩)

/-- Moving the cursor forward inside its buffer leaves less to do. -/
theorem workLeft_lt_of_moves {s t : State} (hp : t.pending = s.pending)
    (hbuf : t.cur.buf = s.cur.buf) (hrle : t.rle = s.rle) (hgt : s.cur.pos < t.cur.pos)
    (hle : t.cur.pos ≤ s.cur.buf.len) : workLeft t < workLeft s := by
  refine workLeft_lt_of_input hp ?_
  simp only [inputLeft, hbuf, hrle]
  omega

/-- A round of `rle_compress` leaves less input (R129). -/
theorem inputLeft_lt_of_round {s : State} {out : List Byte}
    (hl : s.rle.i < s.cur.buf.toBytes.length) :
    inputLeft { s with rle := (rleRound s.cur.buf.toBytes s.rle).1, out := out } < inputLeft s := by
  obtain ⟨hgt, hle, -⟩ := rleRound_spec hl
  rw [Memory.toBytes, Memory.readList_length] at hl hle
  simp only [inputLeft, Memory.toBytes] at hgt ⊢
  omega

theorem StepCase.workLeft_lt {s t : State} (h : StepCase s t) (hs : s.phase ≠ .idle)
    (ht : t.phase ≠ .idle) : workLeft t < workLeft s := by
  cases h with
  | waits h => exact absurd h hs
  | starts hreq => exact absurd hreq.1 hs
  | cellStarts _ hp => exact workLeft_lt_iff.2 (.inl (by rw [hp]; exact Nat.lt_succ_self _))
  | cellEnds h => exact workLeft_lt_of_depth rfl rfl (by rw [h]; exact Nat.zero_lt_one)
  | gap _ _ hb => exact workLeft_lt_of_moves rfl rfl rfl (Nat.lt_add_of_pos_right two_pos) hb
  | lineOpens _ _ _ hb =>
    exact workLeft_lt_of_moves rfl rfl rfl (Nat.lt_add_of_pos_right two_pos) hb
  | operates e => exact workLeft_lt_of_moves rfl rfl rfl e.pos_gt e.pos_le
  | lineEnds h => exact workLeft_lt_of_depth rfl rfl (by rw [h]; exact Nat.one_lt_two)
  | rleRecord _ hp hb => exact workLeft_lt_of_moves rfl rfl rfl hp hb
  | compresses _ hl => exact workLeft_lt_of_input rfl (inputLeft_lt_of_round hl)
  | _ => exact absurd rfl ht

/-- Settles O52, by induction on the work left. -/
theorem everyOperationEnds : Obligations.EveryOperationEnds := by
  intro s hi
  induction hw : workLeft s using WellFoundedLT.induction generalizing s with
  | ind w ih =>
    by_cases hs : s.phase = .idle
    · exact ⟨0, s, .zero s, hs⟩
    obtain ⟨u, hu⟩ := step_next hi hs
    have hcase := step_cases hu
    by_cases hidle : u.phase = .idle
    · exact ⟨1, u, .cons hu (.zero u), hidle⟩
    obtain ⟨n, t, hr, ht⟩ := ih _ (hw ▸ hcase.workLeft_lt hs hidle) u (hcase.inv hi) rfl
    exact ⟨n + 1, t, .cons hu hr, ht⟩

end Sys2Proof.Machine
end

section
/-! SUPPORT. The operations of a line record against their rules: what each emits and which registers
it writes, and that fetch addresses rise along a cell (42_cell_opcodes.md R105 to R115). -/

namespace Sys2Proof.Machine

/-! ### Emission -/

/-- `i` runs from `s` to its end: the cursor is then at `p`, the latches are `l`, the `n` pixels `px`
were emitted and nothing else changed (R98, R105). -/
def Emits (i : Instr) (s : State) (p : Nat) (l : Latches) (n : Nat) (px : Nat → Byte) : Prop :=
  ∃ t, exec i s = .next t ∧ OnlyOperationRegs s t ∧ t.cur.pos = p ∧ t.lat = l ∧ Draws s t n px

/-- A meaning that answers an emission emits the pixels of its list, read off one by one. -/
theorem emits_of_exec {i : Instr} {s : State} {p : Nat} {l : Latches} {vs : List Byte} {n : Nat}
    {px : Nat → Byte}
    (h : exec i s = .next (emitAll vs { s with cur := { s.cur with pos := p }, lat := l }))
    (hn : vs.length = n) (hpx : ∀ j < n, vs.getD j 0 = px j) : Emits i s p l n px := by
  subst hn
  obtain ⟨hx, hrow⟩ := draws_emitAll vs { s with cur := { s.cur with pos := p }, lat := l }
  have hcol : ∀ c, s.drawX ≤ c ∧ c < s.drawX + vs.length ∧ c < s.hdr.width.toNat →
      Sample.Px (vs.getD (c - s.drawX) 0) = .Px (px (c - s.drawX)) := fun c hc =>
    congrArg Sample.Px (hpx _ (by omega))
  exact ⟨_, h, rfl, rfl, rfl, hx, fun c =>
    (hrow c).trans (ite_congr rfl (hcol c) fun _ => rfl)⟩

/-! ### Literal runs -/

/-- The stream bytes that a literal run with opcode byte `op` takes (R106). -/
def literalCount (op : Byte) (s : State) : Nat := min (litCount op) (s.lineEnd - (s.cur.pos + 1))

/-- A literal run with opcode byte `op` emits the stream bytes after it (R106). -/
theorem literalRun_emits {i : Instr} {op : Byte} {s : State}
    (hx : exec i s = orFailCell s (literalRun op s))
    (hlen : s.cur.pos + 1 + literalCount op s ≤ s.cur.buf.len) :
    Emits i s (s.cur.pos + 1 + literalCount op s) { s.lat with op := op } (literalCount op s)
      (fun j => s.cur.buf.read (s.cur.pos + 1 + j)) := by
  rw [literalRun_ok hlen] at hx
  exact emits_of_exec hx (Memory.readList_length ..) fun j => Memory.readList_getD _ _ _ j

/-- A literal run that the end of the buffer cuts off ends the cell (R106). -/
theorem literalRun_fails {i : Instr} {op : Byte} {s : State}
    (hx : exec i s = orFailCell s (literalRun op s))
    (hlen : s.cur.buf.len < s.cur.pos + 1 + literalCount op s) :
    ∃ t, exec i s = .next t ∧ CellFails s t := by
  obtain ⟨e, he⟩ := literalRun_short hlen
  rw [he] at hx
  exact ⟨_, hx, failCell_fails s⟩

/-- Settles O9: both meanings are a literal run with their own opcode byte. -/
theorem literalRunsEmitStreamBytes : Obligations.LiteralRunsEmitStreamBytes := by
  rintro n i op s (⟨rfl, hop⟩ | ⟨rfl, hop⟩)
  · obtain rfl : op = opcodeByte (.lit0 n) :=
      BitVec.eq_of_toNat_eq (hop.trans (opcodeByte_lit0 n).symm)
    exact ⟨rfl, literalRun_emits rfl, literalRun_fails rfl⟩
  · obtain rfl : op = opcodeByte (.lit1 n) :=
      BitVec.eq_of_toNat_eq (hop.trans (opcodeByte_lit1 n).symm)
    exact ⟨rfl, literalRun_emits rfl, literalRun_fails rfl⟩

/-! ### REP, COPY, PAIR and GAP -/

/-- Settles O10: every place of a list of equal pixels holds that pixel. -/
theorem repEmitsItsValue : Obligations.RepEmitsItsValue := fun _ v s =>
  ⟨rfl,
    fun h => emits_of_exec (execRep_ok h) List.length_replicate fun _ => List.getD_replicate v,
    fun h => ⟨_, execRep_short h, failCell_fails s⟩⟩

/-- Settles O11: the three failing cases are those in which a read or the seek of COPY leaves the
buffer. -/
theorem copyEmitsBufferBytes : Obligations.CopyEmitsBufferBytes := fun _ back s =>
  ⟨⟨_, _, rfl, (congrArg BitVec.toNat (u16le_le16 back)).symm.trans (u16le_toNat _ _)⟩,
    fun hfield hback hsrc => emits_of_exec (execCopy_ok hfield hback hsrc)
      (Memory.readList_length ..) fun j => Memory.readList_getD _ _ _ j,
    fun h => ⟨_, execCopy_short h, failCell_fails s⟩⟩

theorem pairPixels_getD (a b : Byte) {n j : Nat} (h : j < 2 * n) :
    (pairPixels a b n).getD j 0 = if j % 2 = 0 then a else b := by
  induction n generalizing j with
  | zero => omega
  | succ n ih =>
    match j with
    | 0 => rfl
    | 1 => rfl
    | j + 2 =>
      rw [pairPixels, List.getD_cons_succ, List.getD_cons_succ, ih (by omega), Nat.add_mod_right]

/-- Settles O12: pixel `j` of the pairs is told by its parity. -/
theorem pairEmitsAlternating : Obligations.PairEmitsAlternating := fun _ a b s =>
  ⟨rfl,
    fun h => emits_of_exec (execPair_ok h) (pairPixels_length ..) fun _ => pairPixels_getD a b,
    fun h => ⟨_, execPair_short h, failCell_fails s⟩⟩

/-- Settles O13: the one read of GAP fits, or fails and ends the cell. -/
theorem gapSkipsColumns : Obligations.GapSkipsColumns := fun _ s =>
  ⟨rfl, execGap_ok, fun h => ⟨_, execGap_short h, failCell_fails s⟩⟩

/-! ### Pattern fills -/

/-- A step of the accumulator is an addition modulo 256 (R112). -/
theorem addStep_ofInt (x d : Int) : addStep (BitVec.ofInt 8 x) d = BitVec.ofInt 8 (x + d) := by
  rw [addStep, BitVec.ofInt_add, BitVec.ofInt_natCast, BitVec.ofNat_toNat, BitVec.setWidth_eq,
    BitVec.ofInt_add]

/-- Each pixel of a pattern is the one before it, stepped (R112). -/
theorem patternPixels_getD_succ (steps : Vector Int 16) (sel : BitVec 3) {n i j : Nat} (val : Byte)
    (h : j + 1 < n) :
    (patternPixels steps sel n i val).getD (j + 1) 0 =
      addStep ((patternPixels steps sel n i val).getD j 0) (steps.get (stepIndex sel (i + j))) := by
  induction n generalizing i j val with
  | zero => omega
  | succ n ih =>
    rw [patternPixels, List.getD_cons_succ]
    cases j with
    | zero =>
      obtain ⟨m, rfl⟩ : ∃ m, n = m + 1 := ⟨n - 1, by omega⟩
      rfl
    | succ j => rw [List.getD_cons_succ, ih _ (by omega), Nat.add_right_comm, Nat.add_assoc]

theorem steps_get_stepIndex (steps : Vector Int 16) (sel : BitVec 3) (j : Nat) :
    steps.get (stepIndex sel j) = steps.toList.getD (2 * sel.toNat + j % 2) 0 := by
  have hlt : 2 * sel.toNat + j % 2 < steps.toList.length := by
    rw [Vector.length_toList]
    exact (stepIndex sel j).isLt
  rw [List.getD_eq_getElem _ _ hlt, Vector.getElem_toList]
  rfl

/-- Pixel `j` of a pattern in closed form: `ceil(j/2)` steps of even index and `floor(j/2)` of odd
(R112, marked derived). -/
def patternPixel (steps : Vector Int 16) (seed : Byte) (sel j : Nat) : Byte :=
  BitVec.ofInt 8 ((seed.toNat : Int) + ((j + 1) / 2 : Nat) * steps.toList.getD (2 * sel) 0 +
    (j / 2 : Nat) * steps.toList.getD (2 * sel + 1) 0)

/-- Pixel `j` has taken a step of even index for every even pixel before it, and one of odd index for
every odd one (R112). -/
theorem patternPixels_getD (steps : Vector Int 16) (sel : BitVec 3) (seed : Byte) {n j : Nat}
    (h : j < n) :
    (patternPixels steps sel n 0 seed).getD j 0 = patternPixel steps seed sel.toNat j := by
  induction j with
  | zero =>
    obtain ⟨m, rfl⟩ : ∃ m, n = m + 1 := ⟨n - 1, by omega⟩
    simp [patternPixels, patternPixel]
  | succ j ih =>
    rw [patternPixels_getD_succ _ _ _ h, ih (by omega), patternPixel, addStep_ofInt,
      steps_get_stepIndex, Nat.zero_add, patternPixel]
    have hnext : (j + 1 + 1) / 2 = j / 2 + 1 := Nat.add_div_right j two_pos
    rcases Nat.mod_two_eq_zero_or_one j with hj | hj
    · rw [hnext, show (j + 1) / 2 = j / 2 by omega, hj, Nat.add_zero (2 * _)]
      congr 1
      push_cast
      ring
    · rw [hnext, show (j + 1) / 2 = j / 2 + 1 by omega, hj]
      congr 1
      push_cast
      ring

/-- A pattern fill with opcode byte `op` emits the closed form; nothing is said of the latches `val` and
`i` (R112). -/
theorem patternFill_emits {i : Instr} {op seed : Byte} {pattLen : BitVec 3} {sel : Nat} {s : State}
    (hx : exec i s = orFailCell s (patternFill op seed s))
    (hop : (opSel op).toNat = sel ∧ opPattLen op = pattLen) (hlen : s.cur.pos + 2 ≤ s.cur.buf.len) :
    ∃ t, exec i s = .next t ∧ OnlyOperationRegs s t ∧ t.cur.pos = s.cur.pos + 2 ∧
      t.lat = { s.lat with op := op, val := t.lat.val, i := t.lat.i } ∧
      Draws s t (pattLen.toNat + 3) (patternPixel s.cfg.patternSteps seed sel) := by
  obtain ⟨rfl, rfl⟩ := hop
  rw [patternFill_ok hlen] at hx
  obtain ⟨t, hexec, hregs, hpos, hlat, hdraws⟩ :=
    emits_of_exec hx (patternPixels_length ..) fun _ => patternPixels_getD _ _ seed
  exact ⟨t, hexec, hregs, hpos, by rw [hlat], hdraws⟩

/-- A pattern fill without its seed byte ends the cell (R112). -/
theorem patternFill_fails {i : Instr} {op seed : Byte} {s : State}
    (hx : exec i s = orFailCell s (patternFill op seed s)) (hlen : s.cur.buf.len < s.cur.pos + 2) :
    ∃ t, exec i s = .next t ∧ CellFails s t := by
  rw [patternFill_short hlen] at hx
  exact ⟨_, hx, failCell_fails s⟩

/-- Settles O14: both meanings are a pattern fill, and `sel` is a field of the opcode byte (R71). -/
theorem patternFillsFollowStepTable : Obligations.PatternFillsFollowStepTable := by
  rintro ss p seed i op sel s (⟨rfl, rfl, rfl⟩ | ⟨rfl, rfl, rfl⟩)
  · exact ⟨rfl, patternFill_emits rfl (opSel_patu ss p seed), patternFill_fails rfl⟩
  · exact ⟨rfl, patternFill_emits rfl (opSel_patd ss p seed), patternFill_fails rfl⟩

/-! ### What an operation writes -/

/-- A literal run writes no latch but `op`, and one that ends the cell writes none (R37, R106). -/
theorem literalRun_ownLatches {op : Byte} {s t : State}
    (h : orFailCell s (literalRun op s) = .next t) : t.lat = { s.lat with op := t.lat.op } := by
  rcases Nat.lt_or_ge s.cur.buf.len (s.cur.pos + 1 + literalCount op s) with hlen | hlen
  · obtain ⟨e, he⟩ := literalRun_short hlen
    rw [he] at h
    cases h; rfl
  · rw [literalRun_ok hlen] at h
    cases h; rfl

/-- A pattern fill writes no latch but `op`, `val` and `i` (R37, R112). -/
theorem patternFill_ownLatches {op seed : Byte} {s t : State}
    (h : orFailCell s (patternFill op seed s) = .next t) :
    t.lat = { s.lat with op := t.lat.op, val := t.lat.val, i := t.lat.i } := by
  rcases Nat.lt_or_ge s.cur.buf.len (s.cur.pos + 2) with hlen | hlen
  · rw [patternFill_short hlen] at h
    cases h; rfl
  · rw [patternFill_ok hlen] at h
    cases h; rfl

theorem exec_ownLatches {i : Instr} {s t : State} (hi : i.space = .operation)
    (h : exec i s = .next t) : OwnLatches i s.lat t.lat := by
  cases i with
  | lit0 n => exact literalRun_ownLatches h
  | lit1 n => exact literalRun_ownLatches h
  | rep len5 v =>
    rcases Nat.lt_or_ge s.cur.buf.len (s.cur.pos + 2) with hlen | hlen
    · cases (execRep_short hlen).symm.trans h; rfl
    · cases (execRep_ok hlen).symm.trans h; rfl
  | copy len5 back =>
    by_cases hin : s.cur.pos + 3 ≤ s.cur.buf.len ∧ back.toNat ≤ s.cur.pos + 3 ∧
        s.cur.pos + 3 - back.toNat + copyCount len5 ≤ s.cur.buf.len
    · obtain ⟨hfield, hback, hsrc⟩ := hin
      cases (execCopy_ok hfield hback hsrc).symm.trans h; rfl
    · cases (execCopy_short (by omega)).symm.trans h; rfl
  | pair len5 a b =>
    rcases Nat.lt_or_ge s.cur.buf.len (s.cur.pos + 3) with hlen | hlen
    · cases (execPair_short hlen).symm.trans h; rfl
    · cases (execPair_ok hlen).symm.trans h; rfl
  | gap len5 =>
    rcases Nat.lt_or_ge s.cur.buf.len (s.cur.pos + 1) with hlen | hlen
    · cases (execGap_short hlen).symm.trans h; rfl
    · cases (execGap_ok hlen).symm.trans h; rfl
  | patu ss p seed => exact patternFill_ownLatches h
  | patd ss p seed => exact patternFill_ownLatches h
  | vgap _ | line _ _ | rleRun _ _ | rleLit _ => cases hi

/-- Settles O15: `exec_operation` gives the same end, or the same effect, in every state that agrees on
the line record, and the states compared differ in frames and latches alone. -/
theorem operationsTouchOnlyDecoderRegisters : Obligations.OperationsTouchOnlyDecoderRegisters := by
  intro i s hi _ other
  have hsame : ∀ f g h l, SameLine s (other s f g h l) :=
    fun _ _ _ _ => ⟨rfl, rfl, rfl, rfl, rfl, rfl⟩
  rcases exec_operation hi s with hfail | ⟨e, he⟩
  · exact ⟨_, hfail s (.refl s), .inl ⟨failCell_fails s, fun f g h l =>
      ⟨_, hfail _ (hsame f g h l), failCell_fails _⟩⟩⟩
  · have hrun := he s (.refl s)
    refine ⟨_, hrun, .inr ⟨rfl, exec_ownLatches hi hrun, fun f g h l => ?_⟩⟩
    have hrun' := he _ (hsame f g h l)
    exact ⟨e.lat l, exec_ownLatches hi hrun', hrun'⟩

/-! ### Fetch addresses -/

/-- An instruction that is due and leaves its operation running moves the cursor forward (R115). -/
theorem StepCase.pos_lt_of_due {s t : State} {sp : Space} (h : StepCase s t)
    (hd : dueSpace s = some sp) (ht : t.phase ≠ .idle) : s.cur.pos < t.cur.pos := by
  cases h with
  | gap => exact Nat.lt_add_of_pos_right two_pos
  | lineOpens => exact Nat.lt_add_of_pos_right two_pos
  | operates e => exact e.pos_gt
  | rleRecord _ hp => exact hp
  | waits h => exact absurd h ht
  | starts hr => simp [dueSpace, hr.1] at hd
  | cellStarts h => simp [dueSpace, h] at hd
  | compresses h => simp [dueSpace, h] at hd
  | cellEnds h hl => simp [dueSpace, h, Nat.not_lt.2 hl] at hd
  | lineEnds h hl => simp [dueSpace, h, Nat.not_lt.2 hl] at hd
  | _ => exact absurd rfl ht

/-- Inside a cell the cursor never moves back: an instruction moves it forward, the end of a line record
leaves it (R115). -/
theorem StepCase.pos_le {s t : State} (h : StepCase s t) (hs : s.phase = .record ∨ s.phase = .ops) :
    s.cur.pos ≤ t.cur.pos := by
  cases h with
  | gap => exact Nat.le_add_right _ _
  | lineOpens => exact Nat.le_add_right _ _
  | operates e => exact e.pos_gt.le
  | rleRecord _ hp => exact hp.le
  | starts hr => rcases hs with hs | hs <;> cases hs.symm.trans hr.1
  | cellStarts h => rcases hs with hs | hs <;> cases hs.symm.trans h
  | _ => exact Nat.le_refl _

theorem Reaches.pos_le {n : Nat} {s t : State} (h : Reaches n s t)
    (hcell : ∀ k u, k ≤ n → Reaches k s u → u.phase = .record ∨ u.phase = .ops) :
    s.cur.pos ≤ t.cur.pos := by
  induction n generalizing s with
  | zero => cases h; exact Nat.le_refl _
  | succ n ih =>
    obtain ⟨u, hu, hr⟩ := reaches_succ.1 h
    have hstep := (step_cases hu).pos_le (hcell 0 s (Nat.zero_le _) (.zero s))
    exact hstep.trans (ih hr fun k v hk hv => hcell (k + 1) v (by omega) (.cons hu hv))

/-- Settles O58: the first step moves the cursor forward, and no later step of the cell moves it
back. -/
theorem fetchAddressesIncrease : Obligations.FetchAddressesIncrease := by
  refine ⟨fun s t sp hd h => (step_cases h).pos_lt_of_due hd, fun n s t hd hn h hcell => ?_⟩
  obtain ⟨n, rfl⟩ : ∃ m, n = m + 1 := ⟨n - 1, by omega⟩
  obtain ⟨u, hu, hr⟩ := reaches_succ.1 h
  obtain ⟨sp, hsp⟩ := Option.ne_none_iff_exists'.1 hd
  have hphase := hcell 1 u (by omega) (.cons hu (.zero u))
  have hlt := (step_cases hu).pos_lt_of_due hsp (by rcases hphase with hp | hp <;> simp [hp])
  exact hlt.trans_le (hr.pos_le fun k v hk hv => hcell (k + 1) v (by omega) (.cons hu hv))

end Sys2Proof.Machine
end

section
/-! SUPPORT. The Frame Compositor's start: which headers the bounds read, what they come to, and what
`decode_frame` and a bare `decode_cell` set up from them (43_frame_compositor.md R117, R118, R121). -/

namespace Sys2Proof.Machine

/-! ### Bounds -/

theorem Cursor.header_short {c : Cursor} {off : Nat} (h : c.buf.len < off + 8) :
    ∃ info, c.header off = .error info := by
  cases hc : c.header off with
  | error info => exact ⟨info, rfl⟩
  | ok p => have := (Cursor.header_cases hc).1; omega

theorem cellExtent_of_present {m : Memory} {off : Half} (h : off ≠ 0) :
    cellExtent m off =
      ((headerAt m off.toNat).xOffset.toNat + (headerAt m off.toNat).width.toNat,
        (headerAt m off.toNat).yOffset.toNat + (headerAt m off.toNat).height.toNat) := if_neg h

section Cell

variable {off : Half} {c : Cursor} {m : Memory}

/-- A cell whose header is there, or that is absent, enlarges the bounds to its extent. -/
theorem boundsOfCell_ok (hc : c.buf = m) (wh : Nat × Nat)
    (h : off ≠ 0 → off.toNat + 8 ≤ m.len) :
    ∃ c', c'.buf = m ∧ boundsOfCell off wh c =
      .ok ((max wh.1 (cellExtent m off).1, max wh.2 (cellExtent m off).2), c') := by
  subst hc
  by_cases h0 : off = 0
  · exact ⟨c, rfl, by simp [boundsOfCell, cellExtent, h0]⟩
  · refine ⟨{ c with pos := off.toNat + 8 }, rfl, ?_⟩
    simp only [boundsOfCell, if_neg h0, Cursor.header_ok (h h0), cellExtent_of_present h0]
    rfl

theorem boundsOfCell_short (hc : c.buf = m) (wh : Nat × Nat)
    (h : ¬ (off ≠ 0 → off.toNat + 8 ≤ m.len)) : ∃ info, boundsOfCell off wh c = .error info := by
  subst hc
  obtain ⟨h0, hlt⟩ := Classical.not_imp.1 h
  obtain ⟨info, hinfo⟩ := Cursor.header_short (Nat.not_le.1 hlt)
  exact ⟨info, by simp only [boundsOfCell, if_neg h0, hinfo]; rfl⟩

end Cell

/-- The bounds read the headers of an entry's present cells and come to its extent (R117). -/
theorem frameBounds_ok {m : Memory} {e : Entry} (h : EntryReadable m e) :
    ∃ c, frameBounds m e = .ok (entryExtent m e, c) := by
  obtain ⟨c₁, hc₁, h₁⟩ := boundsOfCell_ok (c := Cursor.over m) (m := m) rfl (0, 0) h.1
  obtain ⟨c₂, -, h₂⟩ := boundsOfCell_ok hc₁ (cellExtent m e.offset1) h.2
  simp only [Nat.zero_max, Prod.mk.eta] at h₁
  exact ⟨c₂, by simp only [frameBounds, h₁, bind, Except.bind, h₂]; rfl⟩

theorem frameBounds_short {m : Memory} {e : Entry} (h : ¬ EntryReadable m e) :
    ∃ info, frameBounds m e = .error info := by
  by_cases hr₁ : e.offset1 ≠ 0 → e.offset1.toNat + 8 ≤ m.len
  · obtain ⟨c₁, hc₁, h₁⟩ := boundsOfCell_ok (c := Cursor.over m) (m := m) rfl (0, 0) hr₁
    obtain ⟨info, h₂⟩ := boundsOfCell_short hc₁ (cellExtent m e.offset1) fun hr₂ => h ⟨hr₁, hr₂⟩
    simp only [Nat.zero_max, Prod.mk.eta] at h₁
    exact ⟨info, by simp only [frameBounds, h₁, bind, Except.bind, h₂]⟩
  · obtain ⟨info, h₁⟩ := boundsOfCell_short (c := Cursor.over m) (m := m) rfl (0, 0) hr₁
    exact ⟨info, by simp only [frameBounds, h₁, bind, Except.bind]⟩

/-- Bounds that are answered are those of a readable entry. -/
theorem frameBounds_extent {m : Memory} {e : Entry} {wh : Nat × Nat} {c : Cursor}
    (h : frameBounds m e = .ok (wh, c)) : EntryReadable m e ∧ wh = entryExtent m e := by
  by_cases hr : EntryReadable m e
  · obtain ⟨c', hok⟩ := frameBounds_ok hr
    cases h.symm.trans hok
    exact ⟨hr, rfl⟩
  · obtain ⟨info, herr⟩ := frameBounds_short hr
    cases h.symm.trans herr

/-- Settles O32: the bounds answer the entry's extent exactly when they can read its headers. -/
theorem frameBoundsCoverTheCells : Obligations.FrameBoundsCoverTheCells := by
  intro s e rest ix hreq hix
  rw [step_requested hreq]
  simp only [startOp, getFrameBounds, hix]
  refine ⟨fun hr => ?_, fun hr => ?_⟩
  · obtain ⟨c, hok⟩ := frameBounds_ok hr
    exact ⟨c, by simp only [hok, complete, hreq.1]⟩
  · obtain ⟨info, herr⟩ := frameBounds_short hr
    exact ⟨info, s.cur, by simp only [herr, raise, hreq.1]⟩

/-! ### Starts -/

theorem withinLimit_iff {limit : Option Nat} {n : Nat} :
    withinLimit limit n = true ↔ ∀ m, limit = some m → n ≤ m :=
  ⟨fun h m hm => by subst hm; exact of_decide_eq_true h, withinLimit_of⟩

theorem fitsFrameStore_iff {cfg : Config} {w h : Nat} : fitsFrameStore cfg w h = true ↔
    (∀ m, cfg.frameMaxW = some m → w ≤ m) ∧ (∀ m, cfg.frameMaxH = some m → h ≤ m) := by
  rw [fitsFrameStore, Bool.and_eq_true, withinLimit_iff, withinLimit_iff]

theorem toNat_ne_zero_iff {off : Half} : off.toNat ≠ 0 ↔ off ≠ 0 := by
  rw [Ne, Ne, BitVec.toNat_eq]; rfl

theorem cellsOfEntry_eq (e : Entry) : cellsOfEntry e =
    (if e.offset1 ≠ 0 then [e.offset1.toNat] else []) ++
      (if e.offset2 ≠ 0 then [e.offset2.toNat] else []) := by
  simp only [cellsOfEntry, List.filter_cons, List.filter_nil, decide_eq_true_eq, toNat_ne_zero_iff]
  split <;> split <;> rfl

/-- Settles O33: `decode_frame` goes through its three tests in order, a bare `decode_cell` takes its
two operands. -/
theorem decodesSetUpTheirFrames : Obligations.DecodesSetUpTheirFrames := by
  refine ⟨fun s i rest ix hreq hix => ?_, fun s b off fr rest m w h sm hreq hbuf hframe => ?_⟩
  · rw [step_requested hreq]
    simp only [startOp, startDecodeFrame, hix]
    refine ⟨fun hl => ⟨s.cur, by simp only [hl, raise, hreq.1]⟩, fun e hl => ?_⟩
    simp only [hl]
    refine ⟨fun hr => ?_, fun hr => ?_⟩
    · obtain ⟨info, herr⟩ := frameBounds_short hr
      exact ⟨info, s.cur, by simp only [herr, raise, hreq.1]⟩
    · obtain ⟨c, hok⟩ := frameBounds_ok hr
      simp only [hok]
      refine ⟨fun hfit => ?_, fun hbig => ?_⟩
      · rw [if_pos (fitsFrameStore_iff.2 hfit), cellsOfEntry_eq]
        rfl
      · refine if_neg fun hfit => ?_
        obtain ⟨hw, hh⟩ := fitsFrameStore_iff.1 hfit
        rcases hbig with ⟨m, hm, hlt⟩ | ⟨m, hm, hlt⟩
        · exact Nat.not_le.2 hlt (hw m hm)
        · exact Nat.not_le.2 hlt (hh m hm)
  · obtain ⟨f, hf, hsize⟩ := callerFrameArg_of_operand (s := { s with requests := rest }) hframe
    have hm := bufferArg_of_operand (s := { s with requests := rest }) hbuf
    exact ⟨f, (step_requested hreq).trans (decodeCell_next.2 ⟨m, f, hm, hf, rfl⟩), hsize⟩

/-- What the start of a `decode_frame` that answers has done: it failed at once, or it has allocated a
frame of the entry's extent and queued the entry's cells (R118). -/
theorem decodeFrame_opens {i : Int} {s t : State} (h : startOp (.decodeFrame i) s = .next t) :
    ∃ ix, s.index = some ix ∧ ((t.phase = .idle ∧ t.status ≠ .ok) ∨
      ∃ e, lookup ix i = some e ∧ EntryReadable ix.wbuf e ∧
        t = { s with
          canvas := some (Frame.fresh (entryExtent ix.wbuf e).1 (entryExtent ix.wbuf e).2)
          pending := cellsOfEntry e
          bare := false
          cur := Cursor.over ix.wbuf
          phase := .cellStart }) := by
  obtain ⟨ix, hix, ⟨-, rfl⟩ | ⟨e, hl, ⟨info, -, rfl⟩ | ⟨w, k, c, hb, -, rfl⟩⟩⟩ := decodeFrame_next h
  · exact ⟨ix, hix, .inl ⟨rfl, nofun⟩⟩
  · exact ⟨ix, hix, .inl ⟨rfl, nofun⟩⟩
  · obtain ⟨hr, hwh⟩ := frameBounds_extent hb
    exact ⟨ix, hix, .inr ⟨e, hl, hr, by rw [← hwh]⟩⟩

end Sys2Proof.Machine
end

section
/-! SUPPORT. A running `decode_frame` keeps its cells inside the frame it allocated, and that frame's
size to its end (43_frame_compositor.md R119, R120). -/

namespace Sys2Proof.Machine

/-! ### The cells of a `decode_frame` lie inside its frame -/

/-- Every present cell of an entry lies inside a frame of the entry's extent. -/
theorem headerFits_of_mem_cellsOfEntry {m : Memory} {e : Entry} {off : Nat}
    (h : off ∈ cellsOfEntry e) :
    HeaderFits (headerAt m off) (Frame.fresh (entryExtent m e).1 (entryExtent m e).2) := by
  simp only [cellsOfEntry, List.mem_filter, List.mem_cons, List.not_mem_nil, or_false,
    decide_eq_true_eq] at h
  obtain ⟨rfl | rfl, h0⟩ := h <;>
    simp only [HeaderFits, Frame.fresh, entryExtent, cellExtent_of_present (toNat_ne_zero_iff.1 h0)] <;>
    omega

theorem not_decoding_of_rle {s : State} (h : s.phase = .rleDecode ∨ s.phase = .rleCompress) :
    ¬ s.decoding := by
  rcases h with h | h <;> simp [State.decoding, h]

/-- The one start that leaves a decode running that is not bare is that of `decode_frame`. -/
theorem startOp_decodes {op : HostOp} {s t : State} (h : startOp op s = .next t) (hd : t.decoding)
    (hb : t.bare = false) : ∃ i, op = .decodeFrame i := by
  have hrun : t.phase ≠ .idle := fun hp => not_decoding_of_idle hp hd
  cases op with
  | decodeFrame i => exact ⟨i, rfl⟩
  | decodeCell b off fr => obtain ⟨m, f, -, -, rfl⟩ := decodeCell_next.1 h; cases hb
  | parse bytes =>
    rcases parse_next h with ⟨ix, c, low, -, rfl⟩ | ⟨e, rfl⟩ <;> exact absurd rfl hrun
  | getFrameBounds e =>
    obtain ⟨ix, -, ⟨info, -, rfl⟩ | ⟨wh, c, -, rfl⟩⟩ := getFrameBounds_next h <;>
      exact absurd rfl hrun
  | toChunky fr => obtain ⟨f, -, rfl⟩ := toChunky_next.1 h; exact absurd rfl hrun
  | toPlanes px n => obtain ⟨c, -, rfl⟩ := toPlanes_next.1 h; exact absurd rfl hrun
  | interleave a => obtain ⟨pl, -, rfl⟩ := interleave_next.1 h; exact absurd rfl hrun
  | writeBitplaneFile a mode =>
    obtain ⟨pl, file, -, -, rfl⟩ := writeBitplaneFile_next.1 h
    exact absurd rfl hrun
  | rleCompress a =>
    obtain ⟨x, -, rfl⟩ := rleCompress_next.1 h
    exact absurd hd (not_decoding_of_rle (.inr rfl))
  | rleDecode a =>
    obtain ⟨z, -, rfl⟩ := rleDecode_next.1 h
    exact absurd hd (not_decoding_of_rle (.inl rfl))

theorem startOp_cellsFit {op : HostOp} {s t : State} (h : startOp op s = .next t) : t.CellsFit := by
  intro hb _ hd
  obtain ⟨i, rfl⟩ := startOp_decodes h hd hb
  obtain ⟨ix, -, ⟨hp, -⟩ | ⟨e, -, -, rfl⟩⟩ := decodeFrame_opens h
  · exact absurd hd (not_decoding_of_idle hp)
  · exact ⟨_, rfl, fun off hoff _ => headerFits_of_mem_cellsOfEntry hoff, absurd rfl, nofun⟩

theorem cellsFit_of_not_decoding {s : State} (h : ¬ s.decoding) : s.CellsFit :=
  fun _ _ hd => absurd hd h

theorem StepCase.cellsFit {s t : State} (h : StepCase s t) (hfit : s.CellsFit) : t.CellsFit := by
  cases h with
  | waits => exact hfit
  | starts _ ht => exact startOp_cellsFit ht
  | cellStarts h hp _ hl =>
    intro hb hg _
    obtain ⟨f, hf, hpend, -, -⟩ := hfit hb hg (.inl h)
    rw [hp, List.forall_mem_cons] at hpend
    exact ⟨f, hf, hpend.2, fun _ => ⟨hpend.1 hl, rfl⟩, nofun⟩
  | cellEnds h =>
    intro hb hg _
    obtain ⟨f, hf, hpend, -, -⟩ := hfit hb hg (.inr (.inl h))
    exact ⟨f, hf, hpend, absurd rfl, nofun⟩
  | @gap k h =>
    intro hb hg _
    obtain ⟨f, hf, hpend, hcell, hline⟩ := hfit hb hg (.inr (.inl h))
    obtain ⟨hin, hy⟩ := hcell (by rw [h]; nofun)
    refine ⟨f, hf, hpend, fun _ => ⟨hin, ?_⟩, fun ho => nomatch h.symm.trans ho⟩
    have hrows : gapLinesOf s.cfg.gapLines k = k.toNat + 1 := congrArg (gapLinesOf · k) hg
    simp only [hrows, hy, Nat.add_assoc]
  | lineOpens h hl =>
    intro hb hg _
    obtain ⟨f, hf, hpend, hcell, -⟩ := hfit hb hg (.inr (.inl h))
    exact ⟨f, hf, hpend, fun _ => hcell (by rw [h]; nofun), fun _ => hl⟩
  | operates e => exact hfit
  | lineEnds h _ hc =>
    intro hb hg _
    obtain ⟨f, hf, hpend, hcell, -⟩ := hfit hb hg (.inr (.inr h))
    obtain ⟨hin, hy⟩ := hcell (by rw [h]; nofun)
    cases hc.symm.trans hf
    refine ⟨_, rfl, fun off hoff hl => ?_, fun _ => ⟨?_, ?_⟩, nofun⟩
    · simpa only [HeaderFits, blit_w, blit_h] using hpend off hoff hl
    · simpa only [HeaderFits, blit_w, blit_h] using hin
    · simp only [hy, Nat.add_assoc]
  | rleRecord h => exact cellsFit_of_not_decoding (not_decoding_of_rle (.inl h))
  | compresses h => exact cellsFit_of_not_decoding (not_decoding_of_rle (.inr h))
  | _ => exact cellsFit_of_not_decoding (not_decoding_of_idle rfl)

/-- Settles O35: each case of a step keeps the cells inside; a gap moves `dest_y` and `lines_done` by
the same rows, and a blit keeps the frame's size. -/
theorem decodeFrameCellsStayInside : Obligations.DecodeFrameCellsStayInside :=
  fun _ _ hfit h => (step_cases h).cellsFit hfit

/-- Settles O36: the column lies in the cell's width and the line below its height. -/
theorem decodeFrameBlitClipsNothing : Obligations.DecodeFrameBlitClipsNothing := by
  intro s c hfit hb hg hp hc
  obtain ⟨f, hf, -, hcell, hline⟩ := hfit hb hg (.inr (.inr hp))
  obtain ⟨⟨hw, hh⟩, hy⟩ := hcell (by rw [hp]; nofun)
  have hlines := hline hp
  exact ⟨f, hf, by omega, by omega⟩

/-! ### The frame of a `decode_frame` keeps its size -/

/-- A `decode_frame` is running and the frame it draws has this size. -/
def State.DrawsSize (s : State) (size : Nat × Nat) : Prop :=
  s.decoding ∧ s.bare = false ∧ s.canvas.map Frame.size = some size

/-- A step of a running `decode_frame` keeps the size of its frame, or ends it; an end with OK returns
a frame of that size. -/
theorem StepCase.drawsSize {s t : State} {size : Nat × Nat} (h : StepCase s t)
    (hs : s.DrawsSize size) : t.DrawsSize size ∨
      (t.phase = .idle ∧ (t.status = .ok → t.frame.map Frame.size = some size)) := by
  obtain ⟨hd, hb, hc⟩ := hs
  cases h with
  | waits h => exact absurd hd (not_decoding_of_idle h)
  | starts hreq => exact absurd hd (not_decoding_of_idle hreq.1)
  | completes h => exact absurd hd (not_decoding_of_rle h)
  | delivers => exact .inr ⟨rfl, fun _ => by simpa [hb] using hc⟩
  | cellShort => exact .inr ⟨rfl, nofun⟩
  | cellFails => exact .inr ⟨rfl, nofun⟩
  | cellStarts => exact .inl ⟨.inr (.inl rfl), hb, hc⟩
  | cellEnds => exact .inl ⟨.inl rfl, hb, hc⟩
  | gap h => exact .inl ⟨.inr (.inl h), hb, hc⟩
  | lineOpens => exact .inl ⟨.inr (.inr rfl), hb, hc⟩
  | operates e h => exact .inl ⟨.inr (.inr h), hb, hc⟩
  | lineEnds _ _ hf =>
    refine .inl ⟨.inr (.inl rfl), hb, ?_⟩
    rw [hf] at hc
    simpa [Frame.size] using hc
  | rleRecord h => exact absurd hd (not_decoding_of_rle (.inl h))
  | rleFails h => exact absurd hd (not_decoding_of_rle (.inl h))
  | compresses h => exact absurd hd (not_decoding_of_rle (.inr h))

/-- A running `decode_frame` that first returns to idle with OK returns a frame of the size it
draws. -/
theorem State.DrawsSize.returned {n : Nat} {s t : State} {size : Nat × Nat} (hs : s.DrawsSize size)
    (hr : Reaches n s t) (ht : t.phase = .idle) (hok : t.status = .ok)
    (hfirst : ∀ k u, k < n → Reaches k s u → u.phase ≠ .idle) :
    t.frame.map Frame.size = some size := by
  induction n generalizing s with
  | zero =>
    cases hr
    exact absurd hs.1 (not_decoding_of_idle ht)
  | succ n ih =>
    obtain ⟨u, hu, hr⟩ := reaches_succ.1 hr
    rcases (step_cases hu).drawsSize hs with hdraws | ⟨hidle, hsize⟩
    · exact ih hdraws hr fun k v hk hv => hfirst (k + 1) v (by omega) (.cons hu hv)
    · cases n with
      | zero => cases hr; exact hsize hok
      | succ n => exact absurd hidle (hfirst 1 u (by omega) (.cons hu (.zero u)))

/-- Settles O34: the first step allocates a frame of the entry's extent, and every step to the first
return to idle keeps its size. -/
theorem decodedFrameHasItsBounds : Obligations.DecodedFrameHasItsBounds := by
  intro n s t i rest ix hreq hix hn hr ht hok hfirst
  obtain ⟨n, rfl⟩ := Nat.exists_eq_succ_of_ne_zero hn.ne'
  obtain ⟨u, hu, hr⟩ := reaches_succ.1 hr
  have hstart := hu
  rw [step_requested hreq] at hstart
  obtain ⟨ix', hix', ⟨hidle, hfail⟩ | ⟨e, hl, hread, rfl⟩⟩ := decodeFrame_opens hstart
  · cases n with
    | zero => cases hr; exact absurd hok hfail
    | succ n => exact absurd hidle (hfirst 1 u one_pos (by omega) (.cons hu (.zero u)))
  · cases hix.symm.trans hix'
    have hsize := State.DrawsSize.returned ⟨.inl rfl, rfl, rfl⟩ hr ht hok
      fun k v hk hv => hfirst (k + 1) v (by omega) (by omega) (.cons hu hv)
    obtain ⟨f, hf, hwh⟩ := Option.map_eq_some_iff.1 hsize
    exact ⟨e, f, hl, hread, hf, hwh⟩

end Sys2Proof.Machine
end

section
/-! SUPPORT. The Bitplane Encoder's operations: each is one step from the request to its result; the
chunky bytes are the resolved samples, a plane's bits are the pixels' bits, and the interleaved
bytes are the planes' rows in turn (44_bitplane_encoder.md R122 to R125). -/

namespace Sys2Proof.Machine

/-- A requested operation whose start completes it takes one step; the machine stays idle (R42). -/
theorem step_completes {s t : State} {op : HostOp} {rest : List HostOp} (hreq : Requested s op rest)
    (hstart : startOp op { s with requests := rest } = .next (complete t)) (ht : t.phase = .idle) :
    step s = .next { t with status := .ok } := by
  rw [step_requested hreq, hstart, complete, ht]

/-! ### Chunky resolution -/

/-- R122: the byte at an address of the frame is the resolved sample there. -/
theorem chunkyOf_read {f : Frame} {a : Nat} (ha : a < f.w * f.h) :
    (chunkyOf f).px.read a = resolve (sampleAt f.cells a) := by
  simp [chunkyOf, Frame.samples, List.getElem?_range ha]

/-- Settles O37: the operand is the frame the operation resolves. -/
theorem chunkyResolvesTransparency : Obligations.ChunkyResolvesTransparency := by
  intro s fr w h sm rest hreq hop
  obtain ⟨f, hf, rfl, rfl, hsm⟩ :=
    returnedFrameArg_of_operand (s := { s with requests := rest }) hop
  refine ⟨chunkyOf f, step_completes hreq (toChunky_next.2 ⟨f, hf, rfl⟩) hreq.1, rfl, rfl,
    (chunkyOf_wf f).2, fun x y hx hy => ?_⟩
  rw [chunkyOf_read (Frame.index_lt hx hy), hsm]
  cases sm (y * f.w + x) <;> rfl

/-! ### The bits of a plane -/

/-- Where in its byte the bit of the pixel `j` places into the byte stands (R12). -/
def planeBitPos (msbFirst : Bool) (j : Nat) : Nat := if msbFirst then 7 - j else j

/-- The bit that a plane with rows of `rowb` bytes holds for the pixel `(x, y)` (R123). -/
def planeBit (msbFirst : Bool) (rowb : Nat) (m : Memory) (x y : Nat) : Bool :=
  (m.read (y * rowb + x / 8)).getLsbD (planeBitPos msbFirst (x % 8))

theorem planeMask_getLsbD (msbFirst : Bool) (x x' : Nat) :
    (planeMask msbFirst x).getLsbD (planeBitPos msbFirst (x' % 8)) = decide (x' % 8 = x % 8) := by
  have hmasks : ∀ msb : Bool, ∀ i < 8, ∀ j < 8,
      (if msb then 0x80#8 >>> i else 1#8 <<< i).getLsbD (planeBitPos msb j) = decide (j = i) := by
    decide
  exact hmasks msbFirst _ (Nat.mod_lt x (by decide)) _ (Nat.mod_lt x' (by decide))

/-- R123's loop body sets the mask's bit where bit `p` of the pixel is set. -/
theorem planePixel_eq (msbFirst : Bool) (c : Chunky) (p y : Nat) (m : Memory) (x : Nat) :
    planePixel msbFirst c p y m x =
      let a := y * rowBytes c.w + x / 8
      if (c.px.read (y * c.w + x)).getLsbD p then m.write a (m.read a ||| planeMask msbFirst x)
      else m := by
  have hbit : ∀ v : Byte, (v.toNat >>> p) % 2 = 1 ↔ v.getLsbD p = true := fun v => by
    rw [← BitVec.testBit_toNat, Nat.testBit_eq_decide_div_mod_eq, Nat.shiftRight_eq_div_pow,
      decide_eq_true_iff]
  simp only [planePixel, hbit]

theorem div_lt_rowBytes {w x : Nat} (hx : x < w) : x / 8 < rowBytes w := by
  unfold rowBytes
  omega

section Plane

variable {msbFirst : Bool} {c : Chunky} {p x y x' y' : Nat}

/-- The loop body for `(x, y)` changes the bit of that pixel alone. -/
theorem planePixel_bit {m : Memory} (hm : m.len = rowBytes c.w * c.h) (hx : x < c.w) (hy : y < c.h)
    (hx' : x' / 8 < rowBytes c.w) :
    planeBit msbFirst (rowBytes c.w) (planePixel msbFirst c p y m x) x' y' = true ↔
      planeBit msbFirst (rowBytes c.w) m x' y' = true ∨
        (x' = x ∧ y' = y ∧ (c.px.read (y * c.w + x)).getLsbD p = true) := by
  rw [planePixel_eq]
  by_cases hv : (c.px.read (y * c.w + x)).getLsbD p = true
  · have ha : y * rowBytes c.w + x / 8 < m.len := hm ▸ Frame.index_lt (div_lt_rowBytes hx) hy
    simp only [hv, if_true, and_true, planeBit, Memory.read_write _ _ _ _ ha]
    by_cases hb : y' * rowBytes c.w + x' / 8 = y * rowBytes c.w + x / 8
    · obtain ⟨hdiv, rfl⟩ := Frame.index_inj hx' (div_lt_rowBytes hx) hb
      have hpos : x' % 8 = x % 8 ↔ x' = x := by omega
      simp [hdiv, planeMask_getLsbD, hpos]
    · have hne : ¬ (x' = x ∧ y' = y) := fun ⟨ex, ey⟩ => hb (by rw [ex, ey])
      simp [hb, hne]
  · simp [hv]

/-- A loop whose every step adds a case in which the bit of `(x', y')` is set adds all of them. -/
theorem planeBit_foldl {f : Memory → Nat → Memory} {rowb n : Nat} {Q : Nat → Prop} {is : List Nat}
    {m : Memory} (hm : m.wf = true ∧ m.len = n)
    (hf : ∀ m, m.wf = true ∧ m.len = n → ∀ i ∈ is, ((f m i).wf = true ∧ (f m i).len = n) ∧
      (planeBit msbFirst rowb (f m i) x' y' = true ↔
        planeBit msbFirst rowb m x' y' = true ∨ Q i)) :
    planeBit msbFirst rowb (is.foldl f m) x' y' = true ↔
      planeBit msbFirst rowb m x' y' = true ∨ ∃ i ∈ is, Q i := by
  induction is generalizing m with
  | nil => simp
  | cons i is ih =>
    obtain ⟨hi, hbit⟩ := hf m hm i List.mem_cons_self
    rw [List.foldl_cons, ih hi fun m hm j hj => hf m hm j (List.mem_cons_of_mem _ hj), hbit,
      or_assoc, List.exists_mem_cons_iff]

theorem planeRow_bit {m : Memory} (hm : m.wf = true ∧ m.len = rowBytes c.w * c.h) (hy : y < c.h)
    (hx' : x' / 8 < rowBytes c.w) :
    planeBit msbFirst (rowBytes c.w) (planeRow msbFirst c p m y) x' y' = true ↔
      planeBit msbFirst (rowBytes c.w) m x' y' = true ∨
        (x' < c.w ∧ y' = y ∧ (c.px.read (y * c.w + x')).getLsbD p = true) := by
  rw [planeRow, planeBit_foldl (f := planePixel msbFirst c p y) hm fun m hm x hx =>
    ⟨planePixel_wf hm, planePixel_bit hm.2 (List.mem_range.1 hx) hy hx'⟩]
  simp

/-- R123: a plane's bit for a pixel is bit `p` of the pixel, and a pad bit is 0 (D11). -/
theorem planeOf_bit (hx : x / 8 < rowBytes c.w) (hy : y < c.h) :
    planeBit msbFirst (rowBytes c.w) (planeOf msbFirst c p) x y =
      (decide (x < c.w) && (c.px.read (y * c.w + x)).getLsbD p) := by
  have hzero :
      ¬ planeBit msbFirst (rowBytes c.w) (Memory.zeros (rowBytes c.w * c.h)) x y = true := by
    simp [planeBit, Memory.read, Memory.zeros]
  rw [Bool.eq_iff_iff, planeOf, planeBit_foldl (f := planeRow msbFirst c p) ⟨Memory.zeros_wf _, rfl⟩
    fun m hm i hi => ⟨planeRow_wf hm, planeRow_bit hm (List.mem_range.1 hi) hx⟩]
  simp [hzero, hy]

end Plane

theorem planesOf_length (msbFirst : Bool) (c : Chunky) (n : Nat) :
    (planesOf msbFirst c n).planes.length = n := by
  simp [planesOf]

theorem planesOf_getElem? {msbFirst : Bool} {c : Chunky} {n p : Nat} {m : Memory}
    (h : (planesOf msbFirst c n).planes[p]? = some m) : m = planeOf msbFirst c p := by
  obtain ⟨hp, rfl⟩ := List.getElem?_eq_some_iff.1 h
  simp [planesOf]

/-- Settles O38: the bit of byte `k` that R123 speaks of is the plane's bit for the pixel `8k+j`. -/
theorem planeBitsArePixelBits : Obligations.PlaneBitsArePixelBits := by
  intro s arg w h px n rest hreq hop
  obtain ⟨c, hc, rfl, rfl, hpx⟩ := pixelArg_of_operand (s := { s with requests := rest }) hop
  refine ⟨planesOf s.cfg.planeBitMsbFirst c n,
    step_completes hreq (toPlanes_next.2 ⟨c, hc, rfl⟩) hreq.1, rfl, rfl,
    planesOf_length .., fun p m hm => ?_⟩
  obtain rfl := planesOf_getElem? hm
  refine ⟨(planeOf_wf ..).2, fun y k j hy hk hj => ?_⟩
  have hdiv : (8 * k + j) / 8 = k := by omega
  have hmod : (8 * k + j) % 8 = j := by omega
  have hbit := planeOf_bit (msbFirst := s.cfg.planeBitMsbFirst) (p := p) (x := 8 * k + j)
    (hdiv.symm ▸ hk) hy
  rwa [planeBit, hdiv, hmod, hpx] at hbit

/-- Settles O40: a plane reads its buffer only through bit `p` of the pixels (`planePixel_eq`), and
each plane is made on its own. -/
theorem planesAreIndependent : Obligations.PlanesAreIndependent := by
  refine ⟨fun msb c d p hw hh hbits => ?_, fun msb c m n hmn => ?_⟩
  · have hpixel : planePixel msb c p = planePixel msb d p := by
      funext y m x
      simp only [planePixel_eq, hw, hbits]
    have hrow : planeRow msb c p = planeRow msb d p := by
      funext m y
      simp only [planeRow, hw, hpixel]
    simp only [planeOf, hw, hh, hrow]
  · simp only [planesOf, ← List.map_take, List.take_range, Nat.min_eq_left hmn]

/-! ### Interleaving -/

theorem Memory.readList_getElem? (m : Memory) (a : Nat) {n k : Nat} (hk : k < n) :
    (m.readList a n)[k]? = some (m.read (a + k)) := by
  have hl : k < (m.readList a n).length := by rwa [Memory.readList_length]
  rw [List.getElem?_eq_getElem hl, ← List.getD_eq_getElem _ 0 hl, Memory.readList_getD m a n k hk]

section Blocks

variable {α β : Type} {f : α → List β} {n : Nat}

theorem length_flatMap_blocks (hf : ∀ x, (f x).length = n) (xs : List α) :
    (xs.flatMap f).length = xs.length * n := by
  simp [List.length_flatMap, hf]

/-- In blocks of one length `n`, item `k` of block `i` stands at `i*n + k`. -/
theorem getElem?_flatMap_blocks (hf : ∀ x, (f x).length = n) {xs : List α} {i k : Nat} {x : α}
    (hx : xs[i]? = some x) (hk : k < n) : (xs.flatMap f)[i * n + k]? = (f x)[k]? := by
  induction xs generalizing i with
  | nil => cases hx
  | cons z xs ih =>
    rw [List.flatMap_cons]
    cases i with
    | zero =>
      cases hx
      rw [Nat.zero_mul, Nat.zero_add, List.getElem?_append_left (by rwa [hf])]
    | succ i =>
      rw [List.getElem?_append_right (by rw [hf, Nat.succ_mul]; omega), hf,
        show (i + 1) * n + k - n = i * n + k by rw [Nat.succ_mul]; omega, ih hx]

end Blocks

/-- The bytes of row `y` of every plane, in plane order (R124). -/
def interleavedRow (pl : Planes) (y : Nat) : List Byte :=
  pl.planes.flatMap fun m => m.readList (y * rowBytes pl.w) (rowBytes pl.w)

theorem interleaveOf_eq (pl : Planes) :
    interleaveOf pl = (List.range pl.h).flatMap (interleavedRow pl) := rfl

theorem interleavedRow_length (pl : Planes) (y : Nat) :
    (interleavedRow pl y).length = pl.planes.length * rowBytes pl.w :=
  length_flatMap_blocks (fun _ => Memory.readList_length ..) _

theorem interleaveOf_length (pl : Planes) :
    (interleaveOf pl).length = pl.planes.length * rowBytes pl.w * pl.h := by
  rw [interleaveOf_eq, length_flatMap_blocks (interleavedRow_length pl), List.length_range,
    Nat.mul_comm]

/-- R124's index formula: a block of a row for each `y`, and in it a block of `ROWB` bytes for each
plane. -/
theorem interleaveOf_getElem? {pl : Planes} {y p k : Nat} {m : Memory} (hy : y < pl.h)
    (hk : k < rowBytes pl.w) (hm : pl.planes[p]? = some m) :
    (interleaveOf pl)[(y * pl.planes.length + p) * rowBytes pl.w + k]? =
      some (m.read (y * rowBytes pl.w + k)) := by
  have hp : p < pl.planes.length := (List.getElem?_eq_some_iff.1 hm).1
  have hin : p * rowBytes pl.w + k < pl.planes.length * rowBytes pl.w := by
    rw [Nat.mul_comm pl.planes.length]
    exact Frame.index_lt hk hp
  calc (interleaveOf pl)[(y * pl.planes.length + p) * rowBytes pl.w + k]?
    _ = (interleaveOf pl)[y * (pl.planes.length * rowBytes pl.w) + (p * rowBytes pl.w + k)]? := by
      rw [Nat.add_mul, Nat.mul_assoc, Nat.add_assoc]
    _ = (interleavedRow pl y)[p * rowBytes pl.w + k]? :=
      getElem?_flatMap_blocks (interleavedRow_length pl) (List.getElem?_range hy) hin
    _ = (m.readList (y * rowBytes pl.w) (rowBytes pl.w))[k]? :=
      getElem?_flatMap_blocks (fun _ => Memory.readList_length ..) hm hk
    _ = some (m.read (y * rowBytes pl.w + k)) := Memory.readList_getElem? m _ hk

/-- Settles O39: the operand's planes are the ones interleaved. -/
theorem interleaveIsRowMajor : Obligations.InterleaveIsRowMajor := by
  intro s arg pl rest hreq hop
  have hpl := planesArg_of_operand (s := { s with requests := rest }) hop
  exact ⟨interleaveOf pl, step_completes hreq (interleave_next.2 ⟨pl, hpl, rfl⟩) hreq.1,
    interleaveOf_length pl, fun y p k m hy hk hm => interleaveOf_getElem? hy hk hm⟩

end Sys2Proof.Machine
end

section
/-! SUPPORT. `rle_decode`: its two instructions, what it does with whole records and with one that is
cut off, and that every sequence is made of these (45_rle_and_output.md R127, R128, R130). -/

namespace Sys2Proof.Machine

/-! ### The two instructions -/

theorem encode_rleRun (r : BitVec 7) (value : Byte) :
    encode (.rleRun r value) = [0x80#8 ||| r.setWidth 8, value] := by
  have htag : ∀ r : BitVec 7, (0b1#1 ++ r : Byte) = 0x80#8 ||| r.setWidth 8 := by decide
  rw [encode, htag]

theorem encode_rleLit (m : BitVec 7) : encode (.rleLit m) = [m.setWidth 8] := by
  have htag : ∀ m : BitVec 7, (0b0#1 ++ m : Byte) = m.setWidth 8 := by decide
  rw [encode, htag]

/-- Settles O22: the one two-byte read of RLE.RUN fits, or fails and ends `rle_decode`. -/
theorem rleRunAppendsCopies : Obligations.RleRunAppendsCopies := fun r value s =>
  ⟨encode_rleRun r value, execRleRun_ok, fun h => ⟨_, execRleRun_short h, failRle_fails _ s⟩⟩

theorem Memory.readList_eq_map (m : Memory) (a n : Nat) :
    m.readList a n = (List.range n).map (fun j => m.read (a + j)) := by
  induction n with
  | zero => rfl
  | succ n ih => rw [Memory.readList_add, ih, List.range_succ, List.map_append]; rfl

/-- Settles O23: the two reads of RLE.LIT fit, or one fails and ends `rle_decode`. -/
theorem rleLiteralAppendsBytes : Obligations.RleLiteralAppendsBytes := fun m s =>
  ⟨encode_rleLit m, fun h => by rw [← Memory.readList_eq_map]; exact execRleLit_ok h, fun h =>
    have ⟨info, hexec⟩ := execRleLit_short h
    ⟨_, hexec, failRle_fails info s⟩⟩

/-! ### The bytes a cursor has still to read -/

/-- From the cursor to the end of its buffer stand the bytes `bs`. -/
def Cursor.Unread (c : Cursor) (bs : List Byte) : Prop :=
  c.buf.len = c.pos + bs.length ∧ c.buf.readList c.pos bs.length = bs

theorem Cursor.unread_over (bs : List Byte) : (Cursor.over (Memory.ofBytes bs)).Unread bs :=
  ⟨(Nat.zero_add _).symm, Memory.toBytes_ofBytes bs⟩

/-- The first bytes stand at the cursor, and past them the others are still to read. -/
theorem Cursor.Unread.split {c : Cursor} {bs rest : List Byte} (h : c.Unread (bs ++ rest)) :
    c.buf.readList c.pos bs.length = bs ∧ { c with pos := c.pos + bs.length }.Unread rest := by
  obtain ⟨hlen, hread⟩ := h
  rw [List.length_append] at hlen hread
  rw [Memory.readList_add] at hread
  obtain ⟨hbs, hrest⟩ := List.append_inj hread (Memory.readList_length ..)
  exact ⟨hbs, by rw [hlen, Nat.add_assoc], hrest⟩

theorem atCursor_of_unread {s : State} {bs rest : List Byte} (h : s.cur.Unread (bs ++ rest)) :
    AtCursor s bs :=
  ⟨by rw [h.1, List.length_append]; omega, h.split.1⟩

/-! ### A record is a step -/

theorem dueSpace_rle {s : State} (hp : s.phase = .rleDecode) (h : s.cur.pos < s.cur.buf.len) :
    dueSpace s = some .rle := by
  rw [dueSpace, hp]
  exact if_pos h

/-- The loop of `rle_decode` runs the instruction whose encoding is next (R130). -/
theorem step_rleDecode {s : State} {i : Instr} {rest : List Byte} (hp : s.phase = .rleDecode)
    (hi : i.space = .rle) (hw : i.wellFormed = true) (hu : s.cur.Unread (encode i ++ rest)) :
    step s = exec i s := by
  obtain ⟨hsize, hpos, -⟩ := encode_sized i
  refine stepRunsEncodingAtCursor s i hw ?_ (atCursor_of_unread hu)
  rw [hi]
  refine dueSpace_rle hp ?_
  rw [hu.1, List.length_append]
  omega

/-- `s` with the cursor `taken` bytes further and `bs` appended to `OUT`. -/
def State.appended (s : State) (taken : Nat) (bs : List Byte) : State :=
  { s with cur := { s.cur with pos := s.cur.pos + taken }, out := s.out ++ bs }

theorem State.appended_appended (s : State) (m n : Nat) (bs cs : List Byte) :
    (s.appended m bs).appended n cs = s.appended (m + n) (bs ++ cs) := by
  simp [State.appended, Nat.add_assoc]

/-- One step takes a whole record and appends its meaning. -/
theorem step_rleRecord {s : State} {r : RleRecord} {rest : List Byte} (hp : s.phase = .rleDecode)
    (hr : r.complete) (hu : s.cur.Unread (r.bytes ++ rest)) :
    step s = .next (s.appended r.bytes.length r.meaning) := by
  have hlen : s.cur.pos + r.bytes.length ≤ s.cur.buf.len := (atCursor_of_unread hu).1
  cases r with
  | run r value =>
    rw [RleRecord.bytes, ← encode_rleRun] at hu
    rw [step_rleDecode hp rfl rfl hu]
    exact execRleRun_ok hlen
  | lit m data =>
    have hdata : data.length = m.toNat := hr
    rw [RleRecord.bytes, List.length_cons, hdata, Nat.add_comm m.toNat, ← Nat.add_assoc] at hlen
    have hafterTag := (hu.split (bs := [m.setWidth 8])).2
    have hread : s.cur.buf.readList (s.cur.pos + 1) data.length = data := hafterTag.split.1
    rw [RleRecord.bytes, List.cons_append, ← List.singleton_append, ← encode_rleLit] at hu
    rw [step_rleDecode hp rfl rfl hu]
    refine (execRleLit_ok hlen).trans ?_
    rw [← hdata, hread, State.appended, RleRecord.bytes, List.length_cons, Nat.add_comm data.length,
      Nat.add_assoc]
    rfl

/-- Whole records take one step each, and their meanings are appended in order. -/
theorem reaches_rleRecords {s : State} {records : List RleRecord} {rest : List Byte}
    (hp : s.phase = .rleDecode) (hr : ∀ r ∈ records, r.complete)
    (hu : s.cur.Unread (records.flatMap RleRecord.bytes ++ rest)) :
    Reaches records.length s (s.appended (records.flatMap RleRecord.bytes).length
      (records.flatMap RleRecord.meaning)) := by
  induction records generalizing s with
  | nil => simpa [State.appended] using Reaches.zero s
  | cons r records ih =>
    obtain ⟨hr, hall⟩ := List.forall_mem_cons.1 hr
    rw [List.flatMap_cons, List.append_assoc] at hu
    have hrest := ih (s := s.appended r.bytes.length r.meaning) hp hall hu.split.2
    rw [State.appended_appended, ← List.length_append] at hrest
    exact .cons (step_rleRecord hp hr hu) hrest

/-- A record that is cut off ends `rle_decode` as BoundsError: the fetch does not hold the value of a
run, or the literal bytes end too early. -/
theorem step_rleCutOff {s : State} {cut : List Byte} (hp : s.phase = .rleDecode) (hc : RleCutOff cut)
    (hu : s.cur.Unread cut) : ∃ info, step s = .next (failRle info s) := by
  rcases hc with ⟨r, rfl⟩ | ⟨m, data, rfl, hdata⟩
  · obtain ⟨hlen, hread⟩ := hu
    have hwin : fetchWindow s = [0x80#8 ||| r.setWidth 8] := by
      rw [fetchWindow, Cursor.window, hlen, Nat.add_sub_cancel_left]
      exact hread
    have hrej : ∀ r : BitVec 7, decode .rle [0x80#8 ||| r.setWidth 8] =
        .error (.operandMissing "RLE.RUN") := by decide
    exact ⟨_, step_cutOff (dueSpace_rle hp (by rw [hlen]; exact Nat.lt_succ_self _))
      (hwin ▸ hrej r)⟩
  · have hlen : s.cur.buf.len < s.cur.pos + 1 + m.toNat := by
      rw [hu.1, List.length_cons]
      omega
    rw [← List.singleton_append, ← encode_rleLit] at hu
    rw [step_rleDecode hp rfl rfl hu]
    exact execRleLit_short hlen

/-- A stream of whole records ends with OK and their meanings appended (R130). -/
theorem reaches_complete_of_rleRecords {s : State} {records : List RleRecord}
    (hp : s.phase = .rleDecode) (hr : ∀ r ∈ records, r.complete)
    (hu : s.cur.Unread (records.flatMap RleRecord.bytes)) :
    ∃ n taken, Reaches n s (complete (s.appended taken (records.flatMap RleRecord.meaning))) := by
  rw [← List.append_nil (List.flatMap ..)] at hu
  have hend : s.cur.buf.len ≤ (s.appended (records.flatMap RleRecord.bytes).length
      (records.flatMap RleRecord.meaning)).cur.pos := Nat.le_of_eq hu.split.2.1
  exact ⟨_, _, (reaches_rleRecords hp hr hu).trans (.cons (step_rleDecode_end hp hend) (.zero _))⟩

/-- A stream that ends inside a record ends as BoundsError (D17). -/
theorem reaches_failRle_of_cutOff {s : State} {records : List RleRecord} {cut : List Byte}
    (hp : s.phase = .rleDecode) (hr : ∀ r ∈ records, r.complete) (hc : RleCutOff cut)
    (hu : s.cur.Unread (records.flatMap RleRecord.bytes ++ cut)) :
    ∃ n info taken bs, Reaches n s (failRle info (s.appended taken bs)) := by
  obtain ⟨info, hfail⟩ := step_rleCutOff (s := s.appended _ (records.flatMap RleRecord.meaning)) hp hc
    hu.split.2
  exact ⟨_, info, _, _, (reaches_rleRecords hp hr hu).trans (.cons hfail (.zero _))⟩

/-! ### Every sequence is records, the last of them perhaps cut off -/

/-- The sequence is whole records, then nothing or a record that is cut off. -/
def IsRecords (z : List Byte) : Prop :=
  ∃ records : List RleRecord, (∀ r ∈ records, r.complete) ∧
    (z = records.flatMap RleRecord.bytes ∨
      ∃ cut, RleCutOff cut ∧ z = records.flatMap RleRecord.bytes ++ cut)

theorem IsRecords.nil : IsRecords [] := ⟨[], by simp, .inl rfl⟩

theorem IsRecords.of_cutOff {z : List Byte} (h : RleCutOff z) : IsRecords z :=
  ⟨[], by simp, .inr ⟨z, h, rfl⟩⟩

theorem IsRecords.cons {r : RleRecord} {z : List Byte} (hr : r.complete) (hz : IsRecords z) :
    IsRecords (r.bytes ++ z) := by
  obtain ⟨records, hall, h⟩ := hz
  refine ⟨r :: records, List.forall_mem_cons.2 ⟨hr, hall⟩, ?_⟩
  rw [List.flatMap_cons]
  rcases h with rfl | ⟨cut, hcut, rfl⟩
  · exact .inl rfl
  · exact .inr ⟨cut, hcut, (List.append_assoc ..).symm⟩

/-- A tag is that of a run or of a literal block (R81). -/
theorem rleTag_cases (tag : Byte) :
    (∃ r : BitVec 7, tag = 0x80#8 ||| r.setWidth 8) ∨ ∃ m : BitVec 7, tag = m.setWidth 8 := by
  cases h7 : tag.getLsbD 7 with
  | true =>
    refine .inl ⟨field 0 7 tag, ?_⟩
    have h := encode_rleRun (field 0 7 tag) 0
    rw [encode, tag_of_bit 0b1#1 h7] at h
    exact (List.cons.inj h).1
  | false =>
    refine .inr ⟨field 0 7 tag, ?_⟩
    have h := encode_rleLit (field 0 7 tag)
    rw [encode, tag_of_bit 0b0#1 h7] at h
    exact (List.cons.inj h).1

theorem isRecords (z : List Byte) : IsRecords z := by
  induction hn : z.length using Nat.strong_induction_on generalizing z with
  | h n ih =>
    subst hn
    cases z with
    | nil => exact .nil
    | cons tag z =>
      rcases rleTag_cases tag with ⟨r, rfl⟩ | ⟨m, rfl⟩
      · cases z with
        | nil => exact .of_cutOff (.inl ⟨r, rfl⟩)
        | cons value z =>
          exact .cons (r := .run r value) trivial (ih z.length (by simp) z rfl)
      · rcases Nat.lt_or_ge z.length m.toNat with hshort | hlong
        · exact .of_cutOff (.inr ⟨m, z, rfl, hshort⟩)
        · have hz := IsRecords.cons (r := .lit m (z.take m.toNat)) (List.length_take_of_le hlong)
            (ih (z.drop m.toNat).length (by simp) _ rfl)
          rwa [RleRecord.bytes, List.cons_append, List.take_append_drop] at hz

/-! ### The operation -/

/-- `s` as the start of `rle_decode` of `z` leaves it, with the requests `rest` to come (R130). -/
def State.rleDecodeStarted (s : State) (z : List Byte) (rest : List HostOp) : State :=
  { s with
    requests := rest
    cur := Cursor.over (Memory.ofBytes z)
    out := []
    phase := .rleDecode }

theorem step_starts_rleDecode {s : State} {arg : ByteArg} {z : List Byte} {rest : List HostOp}
    (hreq : Requested s (.rleDecode arg) rest) (hop : BytesOperand s arg z) :
    step s = .next (s.rleDecodeStarted z rest) := by
  rw [step_requested hreq]
  exact rleDecode_next.2 ⟨z, byteArg_of_operand (s := { s with requests := rest }) hop, rfl⟩

/-- Settles O60: after the start the records are taken one by one, and then the loop ends or the cut
record fails. -/
theorem rleDecodeExpandsItsRecords : Obligations.RleDecodeExpandsItsRecords := by
  refine ⟨fun s arg z rest hreq hop => ?_, isRecords⟩
  have hstart := step_starts_rleDecode hreq hop
  refine ⟨hstart, fun records hall => ⟨?_, ?_⟩⟩
  · rintro rfl
    obtain ⟨n, taken, hrun⟩ := reaches_complete_of_rleRecords
      (s := s.rleDecodeStarted _ rest) rfl hall (Cursor.unread_over _)
    exact ⟨_, _, .cons hstart hrun, rfl, rfl, rfl, rfl⟩
  · rintro cut hcut rfl
    obtain ⟨n, info, taken, bs, hrun⟩ := reaches_failRle_of_cutOff
      (s := s.rleDecodeStarted _ rest) rfl hall hcut (Cursor.unread_over _)
    exact ⟨_, _, info, .cons hstart hrun, rfl, rfl, rfl, rfl⟩

end Sys2Proof.Machine
end

section
/-! SUPPORT. `rle_compress`: its run gives the canonical encoding, whose records mean the input, so
that `rle_decode` gives it back, and whose size is bounded (45_rle_and_output.md R129, R131, R132). -/

namespace Sys2Proof.Machine

/-! ### The rounds -/

theorem rleRounds_end {x : List Byte} {g : RleRegs} (fuel : Nat) (h : x.length ≤ g.i) :
    rleRounds x fuel g = [] := by
  cases fuel with
  | zero => rfl
  | succ fuel => exact if_neg (by omega)

theorem rleRounds_succ {x : List Byte} {g : RleRegs} (fuel : Nat) (h : g.i < x.length) :
    rleRounds x (fuel + 1) g = (rleRound x g).2 ++ rleRounds x fuel (rleRound x g).1 :=
  if_pos h

theorem step_rleCompress_round {s : State} (hp : s.phase = .rleCompress)
    (h : s.rle.i < s.cur.buf.toBytes.length) :
    step s = .next { s with
      rle := (rleRound s.cur.buf.toBytes s.rle).1
      out := s.out ++ (rleRound s.cur.buf.toBytes s.rle).2 } := by
  rw [step_rleCompress hp]
  exact if_pos h

theorem step_rleCompress_end {s : State} (hp : s.phase = .rleCompress)
    (h : s.cur.buf.toBytes.length ≤ s.rle.i) : step s = .next (complete s) := by
  rw [step_rleCompress hp]
  exact if_neg (by omega)

/-- A running `rle_compress` takes its rounds, one a step, and completes. -/
theorem reaches_complete_of_rleRounds (fuel : Nat) {s : State} (hp : s.phase = .rleCompress)
    (hf : s.cur.buf.toBytes.length ≤ s.rle.i + fuel) :
    ∃ n g, Reaches n s
      (complete { s with rle := g, out := s.out ++ rleRounds s.cur.buf.toBytes fuel s.rle }) := by
  induction fuel generalizing s with
  | zero => exact ⟨1, s.rle, .cons (step_rleCompress_end hp hf) (by simpa [rleRounds] using .zero _)⟩
  | succ fuel ih =>
    rcases Nat.lt_or_ge s.rle.i s.cur.buf.toBytes.length with h | h
    · obtain ⟨hgt, -⟩ := rleRound_spec h
      obtain ⟨n, g, hrun⟩ := ih (s := { s with
        rle := (rleRound s.cur.buf.toBytes s.rle).1
        out := s.out ++ (rleRound s.cur.buf.toBytes s.rle).2 }) hp (by dsimp only; omega)
      refine ⟨n + 1, g, .cons (step_rleCompress_round hp h) ?_⟩
      rwa [rleRounds_succ fuel h, ← List.append_assoc]
    · refine ⟨1, s.rle, .cons (step_rleCompress_end hp h) ?_⟩
      rw [rleRounds_end _ h, List.append_nil]
      exact .zero _

/-- `s` as the start of `rle_compress` of `x` leaves it, with the requests `rest` to come (R129). -/
def State.rleCompressStarted (s : State) (x : List Byte) (rest : List HostOp) : State :=
  { s with
    requests := rest
    cur := Cursor.over (Memory.ofBytes x)
    out := []
    rle := { s.rle with i := 0 }
    phase := .rleCompress }

theorem step_starts_rleCompress {s : State} {arg : ByteArg} {x : List Byte} {rest : List HostOp}
    (hreq : Requested s (.rleCompress arg) rest) (hop : BytesOperand s arg x) :
    step s = .next (s.rleCompressStarted x rest) := by
  rw [step_requested hreq]
  exact rleCompress_next.2 ⟨x, byteArg_of_operand (s := { s with requests := rest }) hop, rfl⟩

/-- Settles O41: `|x|` rounds from index 0 are the canonical encoding, and the rounds write only `OUT`
and the working registers. -/
theorem compressRunsToCanonicalEncoding : Obligations.CompressRunsToCanonicalEncoding := by
  intro s arg x rest hreq hop
  have hx : (s.rleCompressStarted x rest).cur.buf.toBytes = x := Memory.toBytes_ofBytes x
  obtain ⟨n, g, hrun⟩ := reaches_complete_of_rleRounds x.length (s := s.rleCompressStarted x rest) rfl
    (by rw [hx]; exact Nat.le_add_left ..)
  refine ⟨n + 1, _, Nat.succ_pos n, .cons (step_starts_rleCompress hreq hop) hrun, rfl, rfl, ?_, rfl,
    rfl, rfl, rfl, rfl, rfl, rfl, rfl⟩
  rw [hx]
  exact rleRounds_congr x x.length rfl

/-! ### What the records mean -/

/-- A round emits one whole record, and the record means the bytes the round took (R126, R129). -/
theorem rleRound_record {x : List Byte} {g : RleRegs} (h : g.i < x.length) :
    ∃ r : RleRecord, r.complete ∧ (rleRound x g).2 = r.bytes ∧
      x.drop g.i = r.meaning ++ x.drop (rleRound x g).1.i := by
  obtain ⟨-, hend, ⟨-, r, -, hi, hout, hrun⟩ | ⟨-, m, -, hi, hout, -⟩⟩ := rleRound_spec h
  · refine ⟨.run r (x.getD g.i 0), trivial, by rw [hout, encode_rleRun, RleRecord.bytes], ?_⟩
    rw [RleRecord.meaning, ← hrun, hi, ← List.drop_drop, List.take_append_drop]
  · refine ⟨.lit m ((x.drop g.i).take m.toNat), ?_, ?_, ?_⟩
    · exact List.length_take_of_le (by rw [List.length_drop]; omega)
    · rw [hout, encode_rleLit, RleRecord.bytes, List.singleton_append]
    · rw [RleRecord.meaning, hi, ← List.drop_drop, List.take_append_drop]

theorem rleRounds_records (x : List Byte) (fuel : Nat) (g : RleRegs) (hf : x.length ≤ g.i + fuel) :
    ∃ records : List RleRecord, (∀ r ∈ records, r.complete) ∧
      rleRounds x fuel g = records.flatMap RleRecord.bytes ∧
      x.drop g.i = records.flatMap RleRecord.meaning := by
  induction fuel generalizing g with
  | zero => exact ⟨[], by simp, rfl, List.drop_of_length_le hf⟩
  | succ fuel ih =>
    rcases Nat.lt_or_ge g.i x.length with h | h
    · obtain ⟨hgt, -⟩ := rleRound_spec h
      obtain ⟨r, hr, hbytes, hmeaning⟩ := rleRound_record h
      obtain ⟨records, hall, hrest, hdrop⟩ := ih (rleRound x g).1 (by omega)
      exact ⟨r :: records, List.forall_mem_cons.2 ⟨hr, hall⟩,
        by rw [rleRounds_succ fuel h, hbytes, hrest, List.flatMap_cons],
        by rw [hmeaning, hdrop, List.flatMap_cons]⟩
    · exact ⟨[], by simp, rleRounds_end _ h, List.drop_of_length_le h⟩

/-- The canonical encoding is whole records that mean the input. -/
theorem rleCompress_records (x : List Byte) :
    ∃ records : List RleRecord, (∀ r ∈ records, r.complete) ∧
      rleCompress x = records.flatMap RleRecord.bytes ∧ x = records.flatMap RleRecord.meaning :=
  rleRounds_records x x.length _ (Nat.le_add_left ..)

/-- Settles O42: the compressor leaves whole records that mean `x` in `OUT` (O41), and the decoder
expands them to their meanings (O60). -/
theorem rleRoundTripReproducesInput : Obligations.RleRoundTripReproducesInput := by
  intro s x rest hp hreq
  obtain ⟨n, u, -, hrun, hidle, -, hout, hrest, -⟩ :=
    compressRunsToCanonicalEncoding s (.bytes x) x _ ⟨hp, hreq⟩ (.inl rfl)
  obtain ⟨records, hall, hbytes, hmeaning⟩ := rleCompress_records x
  obtain ⟨-, hdecode⟩ := rleDecodeExpandsItsRecords.1 u .out (rleCompress x) rest ⟨hidle, hrest⟩
    (.inr (.inl ⟨rfl, hout.symm⟩))
  obtain ⟨m, t, hrun', hidle', hok, hrest', hout'⟩ := (hdecode records hall).1 hbytes
  exact ⟨n + m, t, hrun.trans hrun', hidle', hok, hrest', hout'.trans hmeaning.symm⟩

/-! ### The size -/

/-- A round takes at most 127 bytes and emits at least 2. A run record is shorter than what it stands
for; a literal block is one byte longer, and one of less than 127 bytes stands at the end or before a
run. -/
theorem rleRound_size {x : List Byte} {g : RleRegs} (h : g.i < x.length) :
    (rleRound x g).1.i ≤ g.i + 127 ∧ 2 ≤ (rleRound x g).2.length ∧
      (3 ≤ runLen x g.i → g.i + (rleRound x g).2.length < (rleRound x g).1.i) ∧
      (runLen x g.i < 3 → g.i + (rleRound x g).2.length = (rleRound x g).1.i + 1 ∧
        ((rleRound x g).1.i < g.i + 127 → (rleRound x g).1.i < x.length →
          3 ≤ runLen x (rleRound x g).1.i)) := by
  obtain ⟨-, hend, ⟨hrun, r, hr, hi, hout, -⟩ | ⟨hrun, m, hm, hi, hout, hnext⟩⟩ := rleRound_spec h
  · have hlen : (rleRound x g).2.length = 2 := by rw [hout, encode_rleRun]; rfl
    have hlt := r.isLt
    exact ⟨by omega, by omega, by omega, by omega⟩
  · have hlen : (rleRound x g).2.length = m.toNat + 1 := by
      rw [hout, encode_rleLit, List.length_append, List.length_take, List.length_drop,
        List.length_singleton]
      omega
    have hlt := m.isLt
    exact ⟨by omega, by omega, by omega, fun _ => ⟨by omega, fun hshort => hnext (by omega)⟩⟩

/-- At most one byte is added for every 127 begun, and one less where a run record comes next: that pays
for a short literal block, which a run follows. -/
theorem rleRounds_length_le (x : List Byte) (fuel : Nat) (g : RleRegs) :
    (rleRounds x fuel g).length ≤ (x.length - g.i) + (x.length - g.i + 126) / 127 ∧
      (g.i < x.length → 3 ≤ runLen x g.i →
        (rleRounds x fuel g).length < (x.length - g.i) + (x.length - g.i + 126) / 127) := by
  induction fuel generalizing g with
  | zero => rw [rleRounds, List.length_nil]; omega
  | succ fuel ih =>
    rcases Nat.lt_or_ge g.i x.length with h | h
    · obtain ⟨hgt, hle, -⟩ := rleRound_spec h
      obtain ⟨-, -, hrun, hlit⟩ := rleRound_size h
      obtain ⟨hrest, hrest'⟩ := ih (rleRound x g).1
      rw [rleRounds_succ fuel h, List.length_append]
      rcases Nat.lt_or_ge (runLen x g.i) 3 with hr | hr
      · obtain ⟨hsize, hnext⟩ := hlit hr
        omega
      · have := hrun hr
        omega
    · rw [rleRounds_end _ h, List.length_nil]
      omega

/-- Every record has at least two bytes and stands for at most 127. -/
theorem le_rleRounds_length (x : List Byte) (fuel : Nat) (g : RleRegs)
    (hf : x.length ≤ g.i + fuel) :
    2 * ((x.length - g.i + 126) / 127) ≤ (rleRounds x fuel g).length := by
  induction fuel generalizing g with
  | zero => omega
  | succ fuel ih =>
    rcases Nat.lt_or_ge g.i x.length with h | h
    · obtain ⟨hgt, hle, -⟩ := rleRound_spec h
      obtain ⟨htaken, hsize, -⟩ := rleRound_size h
      have hrest := ih (rleRound x g).1 (by omega)
      rw [rleRounds_succ fuel h, List.length_append]
      omega
    · omega

/-- Settles O43: the bounds on the rounds from index 0; a single byte takes two. -/
theorem compressedSizeIsBounded : Obligations.CompressedSizeIsBounded :=
  ⟨fun x =>
    ⟨(rleRounds_length_le x x.length _).1,
      le_rleRounds_length x x.length { i := 0, r := 0, s := 0 } (Nat.le_add_left ..)⟩, [0], by decide⟩

end Sys2Proof.Machine
end

section
/-! SUPPORT. The bitplane file: its 32-bit fields, and the one step that writes or refuses it
(45_rle_and_output.md R133). -/

namespace Sys2Proof.Machine

/-- The four bytes of a 32-bit field make up its value, the least significant first (R19). -/
theorem le32_bytes_value {v : Nat} (h : v < 2 ^ 32) :
    v = (BitVec.ofNat 8 v).toNat + 2 ^ 8 * (BitVec.ofNat 8 (v / 2 ^ 8)).toNat +
      2 ^ 16 * (BitVec.ofNat 8 (v / 2 ^ 16)).toNat + 2 ^ 24 * (BitVec.ofNat 8 (v / 2 ^ 24)).toNat := by
  simp only [BitVec.toNat_ofNat]
  omega

/-- Every field of the file's header fits in 32 bits (R133, D26). -/
def FieldsFit (pl : Planes) (mode : FileMode) : Prop :=
  pl.w < 2 ^ 32 ∧ pl.h < 2 ^ 32 ∧ pl.planes.length < 2 ^ 32 ∧ (filePayload pl mode).2 < 2 ^ 32

theorem bitplaneFile_of_fit {pl : Planes} {mode : FileMode} (h : FieldsFit pl mode) :
    bitplaneFile pl mode = some (le32 pl.w ++ le32 pl.h ++ le32 pl.planes.length ++
      le32 (filePayload pl mode).2 ++ (filePayload pl mode).1) :=
  if_pos h

theorem bitplaneFile_of_not_fit {pl : Planes} {mode : FileMode} (h : ¬ FieldsFit pl mode) :
    bitplaneFile pl mode = none :=
  if_neg h

theorem writeBitplaneFile_refused {s : State} {arg : PlanesArg} {pl : Planes} {mode : FileMode}
    (harg : planesArg s arg = .ok pl) (h : bitplaneFile pl mode = none) :
    startOp (.writeBitplaneFile arg mode) s = .refused .fieldOver32Bits := by
  simp only [startOp, writeBitplaneFile, harg, h, bind, Except.bind, orRefuse]

/-- Settles O45: the file of the operand's planes is written in one step, in each mode the payload of
`filePayload`; it is refused where a field does not fit. -/
theorem bitplaneFileHasItsLayout : Obligations.BitplaneFileHasItsLayout := by
  refine ⟨fun v hv => ⟨_, _, _, _, rfl, le32_bytes_value hv⟩, ?_⟩
  intro s arg pl mode rest hreq hop blocks payload payloadSize fits
  have harg := planesArg_of_operand (s := { s with requests := rest }) hop
  have hpayload : filePayload pl mode = (payload, payloadSize) := by
    cases mode <;> rfl
  have hfits : FieldsFit pl mode ↔ fits := by rw [FieldsFit, hpayload]
  refine ⟨fun h => ⟨s.rle, ?_⟩, fun h => ?_⟩
  · have hfile := bitplaneFile_of_fit (hfits.2 h)
    rw [hpayload] at hfile
    exact step_completes hreq (writeBitplaneFile_next.2 ⟨pl, _, harg, hfile, rfl⟩) hreq.1
  · rw [step_requested hreq]
    exact writeBitplaneFile_refused harg (bitplaneFile_of_not_fit (mt hfits.1 h))

end Sys2Proof.Machine
end

section
/-! SUPPORT. Exceptions: the codes of the outcomes, and why no step faults. A running operation always has
a next state (`step_next`), and the start of one is refused or answers a next state (60_exceptions.md
R135; 70_reset_and_hazards.md R153, R167). -/

namespace Sys2Proof.Machine

/-! ### Codes -/

/-- Settles O59: it is the table that `Status.code` is defined by. -/
theorem outcomeCodesAreTheTable : Obligations.OutcomeCodesAreTheTable :=
  fun _ _ _ => ⟨rfl, rfl, rfl, rfl, rfl, rfl⟩

/-! ### Faults -/

theorem orRefuse_ne_fault (o : Except Refusal State) (r : Fault) : orRefuse o ≠ .fault r := by
  cases o <;> nofun

theorem getFrameBounds_ne_fault (e : Entry) (s : State) (r : Fault) :
    getFrameBounds e s ≠ .fault r := by
  unfold getFrameBounds
  split
  · nofun
  · split <;> nofun

theorem startDecodeFrame_ne_fault (i : Int) (s : State) (r : Fault) :
    startDecodeFrame i s ≠ .fault r := by
  unfold startDecodeFrame
  split
  · nofun
  split
  · nofun
  split
  · nofun
  split <;> nofun

/-- A host operation that cannot start is refused (R156, D30); none faults. -/
theorem startOp_ne_fault (op : HostOp) (s : State) (r : Fault) : startOp op s ≠ .fault r := by
  cases op with
  | parse bytes => nofun
  | getFrameBounds e => exact getFrameBounds_ne_fault e s r
  | decodeFrame i => exact startDecodeFrame_ne_fault i s r
  | _ => exact orRefuse_ne_fault _ r

/-- The idle machine waits, or starts the request that is next. -/
theorem step_idle_ne_fault {s : State} (h : s.phase = .idle) (r : Fault) : step s ≠ .fault r := by
  cases hr : s.requests with
  | nil => rw [step_idle_nil h hr]; nofun
  | cons op rest => rw [step_requested ⟨h, hr⟩]; exact startOp_ne_fault op _ r

/-- Settles O50: the idle machine cannot fault, and the invariant gives a running operation a next
state, with a frame wherever one is asked for. -/
theorem invariantRulesOutFaults : Obligations.InvariantRulesOutFaults := by
  intro s r hi
  by_cases hp : s.phase = .idle
  · exact step_idle_ne_fault hp r
  · obtain ⟨t, ht⟩ := step_next hi hp
    rw [ht]
    nofun

end Sys2Proof.Machine
end

section
/-! SUPPORT. Refusals and reset: for each host operation exactly when its start is refused and under
which names, and that nothing else a step does is refused (70_reset_and_hazards.md R153, R156, R164). -/

namespace Sys2Proof.Machine

/-! ### When the start of each operation is refused -/

theorem orRefuse_refused {o : Except Refusal State} {r : Refusal} :
    orRefuse o = .refused r ↔ o = .error r := by
  cases o <;> simp [orRefuse]

section Binds
variable {α β : Type} {x : Except Refusal α} {r : Refusal}

/-- Two computations in turn are refused where the first is, or the second on the first's result. -/
theorem bind_error_iff {f : α → Except Refusal β} :
    x >>= f = .error r ↔ x = .error r ∨ ∃ a, x = .ok a ∧ f a = .error r := by
  cases x <;> simp [bind, Except.bind]

/-- What is computed from an operand is refused exactly where the operand is. -/
theorem bind_pure_error_iff {f : α → β} :
    (x >>= fun a => pure (f a)) = .error r ↔ x = .error r := by
  simp [bind_error_iff, pure, Except.pure]

end Binds

section Starts
variable {s : State} {r : Refusal}

theorem getFrameBounds_refused_iff {e : Entry} :
    startOp (.getFrameBounds e) s = .refused r ↔ s.index = none ∧ r = .noIndex := by
  simp only [startOp, getFrameBounds]
  constructor
  · intro h
    split at h
    · cases h
      exact ⟨‹_›, rfl⟩
    · split at h <;> cases h
  · rintro ⟨hi, rfl⟩
    simp only [hi]

theorem decodeFrame_refused_iff {i : Int} :
    startOp (.decodeFrame i) s = .refused r ↔ s.index = none ∧ r = .noIndex ∨
      ∃ ix e w h c, s.index = some ix ∧ lookup ix i = some e ∧
        frameBounds ix.wbuf e = .ok ((w, h), c) ∧ fitsFrameStore s.cfg w h = false ∧
        r = .frameTooLarge := by
  simp only [startOp, startDecodeFrame]
  constructor
  · intro h
    split at h
    · cases h
      exact .inl ⟨‹_›, rfl⟩
    split at h
    · cases h
    split at h
    · cases h
    split at h <;> cases h
    exact .inr ⟨_, _, _, _, _, ‹_›, ‹_›, ‹_›, Bool.eq_false_of_not_eq_true ‹_›, rfl⟩
  · rintro (⟨hi, rfl⟩ | ⟨ix, e, w, h, c, hi, hl, hb, hf, rfl⟩)
    · simp only [hi]
    · simp only [hi, hl, hb, hf, Bool.false_eq_true, if_false]

theorem decodeCell_refused_iff {b : BufferArg} {off : Nat} {fr : FrameArg} :
    startOp (.decodeCell b off fr) s = .refused r ↔ bufferArg s b = .error r ∨
      ∃ m, bufferArg s b = .ok m ∧ callerFrameArg s fr = .error r :=
  orRefuse_refused.trans <| bind_error_iff.trans <| or_congr_right <|
    exists_congr fun _ => and_congr_right fun _ => bind_pure_error_iff

theorem toChunky_refused_iff {fr : FrameArg} :
    startOp (.toChunky fr) s = .refused r ↔ returnedFrameArg s fr = .error r :=
  orRefuse_refused.trans bind_pure_error_iff

theorem toPlanes_refused_iff {px : PixelArg} {n : Nat} :
    startOp (.toPlanes px n) s = .refused r ↔ pixelArg s px = .error r :=
  orRefuse_refused.trans bind_pure_error_iff

theorem interleave_refused_iff {pl : PlanesArg} :
    startOp (.interleave pl) s = .refused r ↔ planesArg s pl = .error r :=
  orRefuse_refused.trans bind_pure_error_iff

theorem rleCompress_refused_iff {x : ByteArg} :
    startOp (.rleCompress x) s = .refused r ↔ byteArg s x = .error r :=
  orRefuse_refused.trans bind_pure_error_iff

theorem rleDecode_refused_iff {z : ByteArg} :
    startOp (.rleDecode z) s = .refused r ↔ byteArg s z = .error r :=
  orRefuse_refused.trans bind_pure_error_iff

theorem writeBitplaneFile_refused_iff {arg : PlanesArg} {mode : FileMode} :
    startOp (.writeBitplaneFile arg mode) s = .refused r ↔ planesArg s arg = .error r ∨
      ∃ pl, planesArg s arg = .ok pl ∧ bitplaneFile pl mode = none ∧ r = .fieldOver32Bits := by
  refine orRefuse_refused.trans <| bind_error_iff.trans <| or_congr_right <|
    exists_congr fun pl => and_congr_right fun _ => ?_
  cases bitplaneFile pl mode with
  | none => simp [eq_comm]
  | some file => simp [pure, Except.pure]

/-! ### Under which names an operand is refused -/

theorem frameOfSamples_refusal {w h : Nat} {xs : List Sample}
    (he : frameOfSamples w h xs = .error r) : r = .argumentShape := by
  unfold frameOfSamples at he
  split at he <;> cases he
  rfl

theorem chunkyOfPixels_refusal {w h : Nat} {px : List Byte}
    (he : chunkyOfPixels w h px = .error r) : r = .argumentShape := by
  unfold chunkyOfPixels at he
  split at he <;> cases he
  rfl

theorem planesOfBytes_refusal {w h : Nat} {planes : List (List Byte)}
    (he : planesOfBytes w h planes = .error r) : r = .argumentShape := by
  unfold planesOfBytes at he
  split at he <;> cases he
  rfl

theorem bufferArg_refusal {b : BufferArg} (he : bufferArg s b = .error r) :
    r = .noWorkingBuffer := by
  unfold bufferArg at he
  split at he
  · cases he
  · split at he <;> cases he
    rfl

theorem callerFrameArg_refusal {fr : FrameArg} (he : callerFrameArg s fr = .error r) :
    r ∈ [Refusal.noFrame, .frameTooLarge, .argumentShape] := by
  unfold callerFrameArg at he
  split at he
  · split at he
    · simp [frameOfSamples_refusal he]
    · cases he
      simp
  · split at he <;> cases he
    simp

theorem returnedFrameArg_refusal {fr : FrameArg} (he : returnedFrameArg s fr = .error r) :
    r ∈ [Refusal.noFrame, .argumentShape] := by
  unfold returnedFrameArg at he
  split at he
  · obtain he | ⟨f, -, he⟩ := bind_error_iff.1 he
    · simp [frameOfSamples_refusal he]
    · split at he <;> cases he
      simp
  · split at he <;> cases he
    simp

theorem pixelArg_refusal {px : PixelArg} (he : pixelArg s px = .error r) :
    r ∈ [Refusal.noChunky, .unresolvedTransparency, .argumentShape] := by
  unfold pixelArg at he
  split at he
  · simp [chunkyOfPixels_refusal he]
  · split at he
    · simp [chunkyOfPixels_refusal he]
    · cases he
      simp
  · split at he <;> cases he
    simp

theorem planesArg_refusal {arg : PlanesArg} (he : planesArg s arg = .error r) :
    r ∈ [Refusal.noPlanes, .argumentShape] := by
  unfold planesArg at he
  split at he
  · obtain he | ⟨pl, -, he⟩ := bind_error_iff.1 he
    · simp [planesOfBytes_refusal he]
    · split at he <;> cases he
      simp
  · split at he <;> cases he
    simp

theorem byteArg_refusal {x : ByteArg} (he : byteArg s x = .error r) : r = .noPlanes := by
  unfold byteArg at he
  split at he
  · cases he
  · cases he
  · split at he
    · cases he
      rfl
    · split at he <;> cases he
      rfl

end Starts

/-! ### Only the start of a host operation is refused -/

/-- The names under which the start of an operation can be refused (R121, R123, R133, R156). -/
def HostOp.refusals : HostOp → List Refusal
  | .parse _ => []
  | .getFrameBounds _ => [.noIndex]
  | .decodeFrame _ => [.noIndex, .frameTooLarge]
  | .decodeCell _ _ _ => [.noWorkingBuffer, .noFrame, .frameTooLarge, .argumentShape]
  | .toChunky _ => [.noFrame, .argumentShape]
  | .toPlanes _ _ => [.noChunky, .unresolvedTransparency, .argumentShape]
  | .interleave _ => [.noPlanes, .argumentShape]
  | .rleCompress _ => [.noPlanes]
  | .rleDecode _ => [.noPlanes]
  | .writeBitplaneFile _ _ => [.fieldOver32Bits, .noPlanes, .argumentShape]

theorem HostOp.notModelled_not_mem_refusals (op : HostOp) (name : String) :
    .notModelled name ∉ op.refusals := by
  cases op <;> simp [HostOp.refusals]

theorem startOp_refusal {op : HostOp} {s : State} {r : Refusal} (h : startOp op s = .refused r) :
    r ∈ op.refusals := by
  cases op with
  | parse bytes => cases h
  | getFrameBounds e => simp [HostOp.refusals, (getFrameBounds_refused_iff.1 h).2]
  | decodeFrame i =>
    obtain ⟨-, rfl⟩ | ⟨_, _, _, _, _, -, -, -, -, rfl⟩ := decodeFrame_refused_iff.1 h <;>
      simp [HostOp.refusals]
  | decodeCell b off fr =>
    obtain h | ⟨_, -, h⟩ := decodeCell_refused_iff.1 h
    · simp [HostOp.refusals, bufferArg_refusal h]
    · exact List.mem_cons_of_mem _ (callerFrameArg_refusal h)
  | toChunky fr => exact returnedFrameArg_refusal (toChunky_refused_iff.1 h)
  | toPlanes px n => exact pixelArg_refusal (toPlanes_refused_iff.1 h)
  | interleave pl => exact planesArg_refusal (interleave_refused_iff.1 h)
  | rleCompress x => exact List.mem_singleton.2 (byteArg_refusal (rleCompress_refused_iff.1 h))
  | rleDecode z => exact List.mem_singleton.2 (byteArg_refusal (rleDecode_refused_iff.1 h))
  | writeBitplaneFile pl mode =>
    obtain h | ⟨_, -, -, rfl⟩ := writeBitplaneFile_refused_iff.1 h
    · exact List.mem_cons_of_mem _ (planesArg_refusal h)
    · exact List.mem_cons_self

/-- A cell that starts answers a next state or, without a frame, a fault. -/
theorem startCell_ne_refused (s : State) (r : Refusal) : startCell s ≠ .refused r := by
  unfold startCell
  split
  · nofun
  · split
    · nofun
    · obtain ⟨t, ht⟩ := orFailCell_next _ _
      rw [ht]
      nofun

theorem endLine_ne_refused (s : State) (r : Refusal) : endLine s ≠ .refused r := by
  unfold endLine
  split <;> nofun

/-- Between the instructions of a running operation nothing is refused. -/
theorem sequencer_ne_refused {s : State} (hrun : s.phase ≠ .idle) (r : Refusal) :
    sequencer s ≠ .refused r := by
  cases hp : s.phase with
  | idle => exact absurd hp hrun
  | cellStart => simp only [sequencer, hp]; exact startCell_ne_refused s r
  | record => simp only [sequencer, hp]; nofun
  | ops => simp only [sequencer, hp]; exact endLine_ne_refused s r
  | rleDecode => simp only [sequencer, hp]; nofun
  | rleCompress =>
    obtain ⟨t, ht⟩ := rleCompressStep_next s
    simp only [sequencer, hp, ht]
    nofun

/-- A running operation is never refused: an instruction always answers a next state (R79). -/
theorem step_running_ne_refused {s : State} (hrun : s.phase ≠ .idle) (r : Refusal) :
    step s ≠ .refused r := by
  cases hd : dueSpace s with
  | none => rw [step_none hd]; exact sequencer_ne_refused hrun r
  | some sp =>
    cases hdec : decode sp (fetchWindow s) with
    | error e => rw [step_cutOff hd hdec]; nofun
    | ok p =>
      obtain ⟨t, ht⟩ := exec_next p.1 s
      rw [step_due hd hdec, ht]
      nofun

/-- A refused step is the start of a host operation, refused under one of its names. -/
theorem step_refused {s : State} {r : Refusal} (h : step s = .refused r) :
    ∃ op rest, Requested s op rest ∧ r ∈ op.refusals := by
  have hp : s.phase = .idle := by_contra fun hrun => step_running_ne_refused hrun r h
  cases hr : s.requests with
  | nil =>
    rw [step_idle_nil hp hr] at h
    cases h
  | cons op rest =>
    have hreq : Requested s op rest := ⟨hp, hr⟩
    rw [step_requested hreq] at h
    exact ⟨op, rest, hreq, startOp_refusal h⟩

/-- Settles O51: a refused step starts a host operation (`step_refused`), and none of the names an
operation is refused under is "not modelled". -/
theorem onlyHostOperationsAreRefused : Obligations.OnlyHostOperationsAreRefused := by
  intro s r h
  obtain ⟨op, rest, hreq, hr⟩ := step_refused h
  refine ⟨⟨op, rest, hreq⟩, ?_⟩
  rintro name rfl
  exact op.notModelled_not_mem_refusals name hr

/-! ### Operands that are not there -/

section Missing
variable {s : State}

theorem bufferArg_held_none (h : s.index = none) : bufferArg s .held = .error .noWorkingBuffer := by
  simp only [bufferArg, h]

theorem callerFrameArg_held_none (h : s.callerFrame = none) :
    callerFrameArg s .held = .error .noFrame := by
  simp only [callerFrameArg, h]

theorem returnedFrameArg_held_none (h : s.frame = none) :
    returnedFrameArg s .held = .error .noFrame := by
  simp only [returnedFrameArg, h]

theorem pixelArg_held_none (h : s.chunky = none) : pixelArg s .held = .error .noChunky := by
  simp only [pixelArg, h]

theorem planesArg_held_none (h : s.planes = none) : planesArg s .held = .error .noPlanes := by
  simp only [planesArg, h]

theorem byteArg_plane_none (h : s.planes = none) (p : Nat) :
    byteArg s (.plane p) = .error .noPlanes := by
  simp only [byteArg, h]

/-- The samples of a frame made of samples are those. -/
theorem samples_of_frameOfSamples {w h : Nat} {xs : List Sample} {f : Frame}
    (hf : frameOfSamples w h xs = .ok f) : (f.w, f.h, f.samples) = (w, h, xs) := by
  unfold frameOfSamples at hf
  split at hf <;> cases hf
  rename_i hl
  have hs : Frame.samples { w := w, h := h, cells := cellsOfSamples 0 xs } = xs := by
    refine List.ext_getElem (by rw [Frame.samples_length, hl]) fun k _ hk => ?_
    simp [Frame.samples, sampleAt_ofSamples, hk]
  rw [hs]

/-- A frame handed in with the samples of none that was returned is refused (R156). -/
theorem returnedFrameArg_given_unknown {w h : Nat} {xs : List Sample} (hl : xs.length = w * h)
    (hnew : ∀ f ∈ s.returnedFrames, (f.w, f.h, f.samples) ≠ (w, h, xs)) :
    returnedFrameArg s (.given w h xs) = .error .noFrame := by
  have hf : frameOfSamples w h xs = .ok { w := w, h := h, cells := cellsOfSamples 0 xs } := if_pos hl
  refine bind_error_iff.2 (.inr ⟨_, hf, if_neg fun hm => ?_⟩)
  exact hnew _ hm (samples_of_frameOfSamples hf)

/-- Planes handed in before any were made, or with one that was not made, are refused (R164). -/
theorem planesArg_given_unmade {w h : Nat} {planes : List (List Byte)}
    (hl : ∀ bs ∈ planes, bs.length = rowBytes w * h)
    (hnew : s.returnedPlanes = [] ∨
      ∃ bs ∈ planes, ∀ made ∈ s.returnedPlanes, ∀ m ∈ made.planes, m.toBytes ≠ bs) :
    planesArg s (.given w h planes) = .error .noPlanes := by
  have hshape : (planes.all fun bs => decide (bs.length = rowBytes w * h)) = true := by
    simpa using hl
  have hnot : ¬ PlanesMade s (planes.map Memory.ofBytes) := by
    rintro ⟨hne, hmade⟩
    obtain hnil | ⟨bs, hbs, hbytes⟩ := hnew
    · exact hne hnil
    · obtain ⟨made, hm, hmem⟩ := hmade _ (List.mem_map_of_mem hbs)
      exact hbytes made hm _ hmem (Memory.toBytes_ofBytes bs)
  exact bind_error_iff.2 (.inr ⟨_, if_pos hshape, if_neg hnot⟩)

theorem allResolved_of_mem_T {xs : List Sample} (h : .T ∈ xs) : allResolved xs = false := by
  induction xs with
  | nil => cases h
  | cons x xs ih =>
    cases x with
    | T => rfl
    | Px v => exact ih (by simpa using h)

theorem pixelArg_unresolved_T {w h : Nat} {xs : List Sample} (hT : .T ∈ xs) :
    pixelArg s (.unresolved w h xs) = .error .unresolvedTransparency := by
  simp [pixelArg, allResolved_of_mem_T hT]

end Missing

/-- Settles O46: each clause is the case of the operation's `_refused_iff` in which the operand is not
there. -/
theorem refusedWithoutPrerequisite : Obligations.RefusedWithoutPrerequisite := by
  intro s op rest hreq
  rw [step_requested hreq]
  refine ⟨fun hix => ⟨?_, ?_, ?_⟩, fun hcaller => ⟨?_, ?_⟩, ?_, fun hchunky n => ?_,
    fun hpl => ⟨?_, ?_, ?_⟩, ?_, ?_, ?_⟩
  · rintro e rfl
    exact getFrameBounds_refused_iff.2 ⟨hix, rfl⟩
  · rintro i rfl
    exact decodeFrame_refused_iff.2 (.inl ⟨hix, rfl⟩)
  · rintro off fr rfl
    exact decodeCell_refused_iff.2 (.inl (bufferArg_held_none hix))
  · rintro bytes off rfl
    exact decodeCell_refused_iff.2 (.inr ⟨_, rfl, callerFrameArg_held_none hcaller⟩)
  · rintro off hix rfl
    obtain ⟨ix, hix⟩ := Option.ne_none_iff_exists'.1 hix
    have hbuf := bufferArg_of_operand (s := { s with requests := rest }) (.inl ⟨rfl, ix, hix, rfl⟩)
    exact decodeCell_refused_iff.2 (.inr ⟨_, hbuf, callerFrameArg_held_none hcaller⟩)
  · rintro hf rfl
    exact toChunky_refused_iff.2 (returnedFrameArg_held_none hf)
  · rintro rfl
    exact toPlanes_refused_iff.2 (pixelArg_held_none hchunky)
  · rintro rfl
    exact interleave_refused_iff.2 (planesArg_held_none hpl)
  · rintro p rfl
    exact rleCompress_refused_iff.2 (byteArg_plane_none hpl p)
  · rintro mode rfl
    exact writeBitplaneFile_refused_iff.2 (.inl (planesArg_held_none hpl))
  · rintro w h samples rfl hl hnew
    exact toChunky_refused_iff.2 (returnedFrameArg_given_unknown hl hnew)
  · intro w h planes hl hnew
    have harg := planesArg_given_unmade (s := { s with requests := rest }) hl hnew
    refine ⟨?_, ?_⟩
    · rintro rfl
      exact interleave_refused_iff.2 harg
    · rintro mode rfl
      exact writeBitplaneFile_refused_iff.2 (.inl harg)
  · rintro w h samples n rfl hT
    exact toPlanes_refused_iff.2 (pixelArg_unresolved_T hT)

/-! ### Reset -/

/-- An idle machine that is asked for nothing stays as it is (R153). -/
theorem reaches_self_of_idle {s : State} (h : s.phase = .idle) (hr : s.requests = []) (n : Nat) :
    Reaches n s s := by
  induction n with
  | zero => exact .zero s
  | succ n ih => exact .cons (step_idle_nil h hr) ih

/-- Settles O47: the reset values are those of `State.reset`, which is idle and asked for nothing. -/
theorem resetHoldsNoResults : Obligations.ResetHoldsNoResults :=
  ⟨rfl, rfl, rfl, rfl, rfl, rfl, rfl, rfl, rfl, rfl, rfl, rfl, rfl, rfl, reaches_self_of_idle rfl rfl⟩

end Sys2Proof.Machine
end
